-- ==== Sys2Proof/Word.lean ====
section
/-! DEFINITION. The word types of the core: bytes (symbols, IN and OUT cells) and the 64-bit register word. -/

namespace Sys2Proof

/-- A symbol, an IN byte, an OUT byte (00_scope.md R8 SYMBOLS, 20_memory.md R51). -/
abbrev Byte := BitVec 8

/-- A register, a weight, a count, a length field, a command word (00_scope.md R8). -/
abbrev Word := BitVec 64

end Sys2Proof
end

