-- ==== Sys2Proof/Config.lean ====
section
/-! DEFINITION. What an implementation fixes (00_scope.md R8, R9) and the free values (unspecified reads). -/

namespace Sys2Proof

/-- The open parameters of 00_scope.md R9. They are fixed for a machine and no step changes them. -/
structure Config where
  /-- IN_CAP: bytes of the IN memory. -/
  inCap : Nat
  /-- OUT_CAP: bytes of the OUT memory. -/
  outCap : Nat
  /-- BITBUF_CAP: bytes of the internal bit buffer. -/
  bitbufCap : Nat
  /-- BLOCK_BASE: where the platform places the three spaces (20_memory.md R52). The spec addresses each space from
  offset 0, so no rule of the core reads it (log entry 14). -/
  blockBase : Nat
  deriving DecidableEq, Repr

/-- The range constraints of 00_scope.md R9. -/
def Config.valid (c : Config) : Bool :=
  decide (16 ≤ c.inCap) && decide (c.inCap ≤ 2 ^ 48) &&
  decide (16 ≤ c.outCap) && decide (c.outCap ≤ 2 ^ 56) &&
  decide (1 ≤ c.bitbufCap) && decide (c.bitbufCap ≤ 2 ^ 56)

/-- The conforming constraints of 00_scope.md R9, beside the ranges. -/
def Config.conforming (c : Config) : Bool :=
  c.valid && decide (c.inCap + 4871 ≤ c.outCap) && decide (c.inCap ≤ c.bitbufCap)

/-- CFG0 of 95_test_vectors.md: the configuration State.reset takes (DESIGN CHOICE, log entry 2). -/
def Config.cfg0 : Config := { inCap := 65536, outCap := 70407, bitbufCap := 65536, blockBase := 0 }

/-- MAX_NODES of 00_scope.md R8. -/
def Config.maxNodes : Nat := 511

/-- MAX_CODE_LEN of 00_scope.md R8. -/
def Config.maxCodeLen : Nat := 255

/-- The ID constant of 00_scope.md R8 and 10_state.md R25. -/
def Config.idValue : Word := 0x4855464600000001#64

/-- FREE VALUE (log entry 3): the n-th unspecified register value a HOST read draws while BUSY (70_reset_and_hazards.md
R151). It has no body: no proof can see a value of it. -/
opaque Config.freeWord : Nat → Word

/-- FREE VALUE (log entry 3): the n-th unspecified byte an InRead or OutRead draws (70_reset_and_hazards.md R151, R153;
10_state.md R50; 60_exceptions.md R136). -/
opaque Config.freeByte : Nat → Byte

/-- FREE VALUE (log entry 3): the n-th unspecified TV, CV, BV triple a STATUS read draws while BUSY
(70_reset_and_hazards.md R151). -/
opaque Config.freeFlags : Nat → BitVec 3

end Sys2Proof
end

