-- ==== Sys2Proof/Syntax.lean ====
section
/-! DEFINITION. The commands of the core (30_encoding.md R68), one constructor per row of opcode_table.json. A command
has no operand field and no immediate (R67), so no constructor takes an argument. -/

namespace Sys2Proof

/-- The eleven commands of 30_encoding.md R68. -/
inductive Instr where
  | nop
  | count
  | build
  | gencodes
  | encode
  | serialize
  | deserialize
  | decode
  | compress
  | uncompress
  | clear
  deriving DecidableEq, Repr

end Sys2Proof
end

