-- ==== Sys2Proof/WellFormed.lean ====
section
/-! DEFINITION. What a well-formed command word and command are (30_encoding.md R66, R67, R69). -/

namespace Sys2Proof

/-- The legality check of 60_exceptions.md R129 item 1: `w[63:8] = 0` and `w[7:0]` at most 0x0A. -/
def legalWord (w : Word) : Bool :=
  decide (w >>> 8 = 0#64) && decide (w.setWidth 8 ≤ 0x0A#8)

/-- Every command is well formed: it has no operand that could be out of range (30_encoding.md R67). The checks an
encoding must meet are those of `legalWord`, on words; those a configuration must meet are `Config.valid`. -/
def Instr.wellFormed (_ : Instr) : Bool := true

end Sys2Proof
end

