-- ==== Sys2Proof/Decode.lean ====
section
/-! DEFINITION. The decoder of command words, total and rejecting by name, and the encoder (30_encoding.md R66 to R70). -/

namespace Sys2Proof

/-- The OPCODE field [7:0] of a command word (30_encoding.md R66). -/
def opcodeField (w : Word) : Byte := w.extractLsb' 0 8

/-- The RSVD field [63:8] of a command word (30_encoding.md R66). -/
def rsvdField (w : Word) : BitVec 56 := w.extractLsb' 8 56

/-- Why a word is no command (30_encoding.md R69): the ENGINE step completes it with ILLEGAL_COMMAND. -/
inductive DecodeReject where
  /-- a bit of RSVD is set -/
  | rsvdNonzero
  /-- OPCODE is in 0x0B..0xFF -/
  | reservedOpcode
  deriving DecidableEq, Repr

/-- The opcode map of 30_encoding.md R68. -/
def decodeOpcode (op : Byte) : Except DecodeReject Instr :=
  match op.toNat with
  | 0x00 => .ok .nop
  | 0x01 => .ok .count
  | 0x02 => .ok .build
  | 0x03 => .ok .gencodes
  | 0x04 => .ok .encode
  | 0x05 => .ok .serialize
  | 0x06 => .ok .deserialize
  | 0x07 => .ok .decode
  | 0x08 => .ok .compress
  | 0x09 => .ok .uncompress
  | 0x0A => .ok .clear
  | _ => .error .reservedOpcode

/-- "A decoder reads OPCODE and checks RSVD = 0; nothing else is decoded" (30_encoding.md R66). -/
def decode (w : Word) : Except DecodeReject Instr :=
  if rsvdField w = 0 then decodeOpcode (opcodeField w) else .error .rsvdNonzero

/-- The command word of a command (30_encoding.md R68: OPCODE, RSVD = 0). -/
def encode : Instr → Word
  | .nop => 0x00#64
  | .count => 0x01#64
  | .build => 0x02#64
  | .gencodes => 0x03#64
  | .encode => 0x04#64
  | .serialize => 0x05#64
  | .deserialize => 0x06#64
  | .decode => 0x07#64
  | .compress => 0x08#64
  | .uncompress => 0x09#64
  | .clear => 0x0A#64

/-- The 64-bit command word that the opcode table's low `nbits` bits `w` stand for, bits above them 0. A command word
is one register write (30_encoding.md R70), so there is no byte order to lay out (20_memory.md R56). -/
def tableWord (nbits w : Nat) : Word := BitVec.ofNat 64 (w % 2 ^ nbits)

/-- What the decoder reads from an opcode-table word. -/
def decodeTableWord (nbits w : Nat) : Option Instr :=
  match decode (tableWord nbits w) with
  | .ok i => some i
  | .error _ => none

end Sys2Proof
end

