-- ==== Sys2Proof/Machine/State.lean ====
section
/-! DEFINITION. The machine's state as plain data (10_state.md R20), the reasons a step stops, and the state after
reset (10_state.md R50). -/

namespace Sys2Proof.Machine

open Sys2Proof

/-- A byte-addressed memory: its listed bytes, addresses strictly rising. An unlisted address holds NO value. For IN
an unlisted byte is one "not written since reset" (70_reset_and_hazards.md R153): an ENGINE read of it is a fault, a HOST
read a draw. For OUT an unlisted byte is unspecified (10_state.md R50, 60_exceptions.md R136): a HOST read is a draw. -/
abbrev Memory := List Host.Cell

/-- A code, a path, a bit stream: bits in the order they are produced (00_scope.md R13; `false` is 0, left). -/
abbrev Bits := List Bool

/-- A node index, 9 bits (10_state.md R42). -/
abbrev NodeIndex := BitVec 9

/-- A node record (10_state.md R42). -/
inductive Node where
  | leaf (weight : Word) (symbol : Byte)
  | internal (weight : Word) (left right : NodeIndex)
  deriving DecidableEq, Repr

/-- STATUS.ERRCODE (60_exceptions.md R131). The codes 10 to 255, "never produced", have no name. -/
inductive ErrCode where
  | none
  | corruptContainer
  | emptyAlphabet
  | illegalCommand
  | notReady
  | inLength
  | outOverflow
  | bitbufOverflow
  | noCode
  | weightOverflow
  deriving DecidableEq, Repr

/-- The causes of CORRUPT_CONTAINER (60_exceptions.md R132). -/
inductive CorruptDetail where
  | shortHeader
  | shortTree
  | treeOverrun
  | badTag
  | nodeLimit
  | dupSymbol
  | treeTrailing
  | shortBitlen
  | emptyTreeBits
  | shortBits
  | trailingBytes
  | padNonzero
  | partialCode
  | leafRootOne
  deriving DecidableEq, Repr

/-- `raise E(detail, info)` of 00_scope.md R16 and 60_exceptions.md R128. -/
structure CmdError where
  code : ErrCode
  detail : Byte
  info : Word
  deriving DecidableEq, Repr

/-- The validity flags a command's pre-check demands (30_encoding.md R68 "requires"). -/
structure Need where
  tv : Bool
  cv : Bool
  bv : Bool
  deriving DecidableEq, Repr

/-- The two agents of 00_scope.md R11. -/
inductive Agent where
  | host
  | engine
  deriving DecidableEq, Repr

/-- The HOST's transactions: the six of 20_memory.md R57, and the accesses outside them that R57 names ("a register
access of another width", "a write to OUT", "any access outside these"), each of which the model treats as a fault. -/
inductive HostTxn where
  /-- `RegRead(off)` -/
  | regRead (off : Nat)
  /-- `RegWrite(off, v)` -/
  | regWrite (off : Nat) (v : Word)
  /-- `InWrite(a, b)` -/
  | inWrite (a : Nat) (b : Byte)
  /-- `InRead(a)` -/
  | inRead (a : Nat)
  /-- `OutRead(a)` -/
  | outRead (a : Nat)
  /-- `Reset` -/
  | reset
  /-- a register access of another width than 64 bits (illegal) -/
  | partRegAccess (off : Nat)
  /-- an IN or OUT access of more than one byte (illegal) -/
  | wideMemAccess (a : Nat)
  /-- a write to OUT (illegal) -/
  | outWrite (a : Nat) (b : Byte)
  deriving DecidableEq, Repr

/-- One line of the HOST's program after expansion (30_encoding.md R76, R77): a transaction, or `WAIT`, "repeat
`RREG STATUS` until the value has BUSY = 0". -/
inductive HostOp where
  | txn (t : HostTxn)
  | wait
  deriving DecidableEq, Repr

/-- A value the HOST has read. -/
inductive Observation where
  | reg (off : Nat) (v : Word)
  | inByte (a : Nat) (b : Byte)
  | outByte (a : Nat) (b : Byte)
  deriving DecidableEq, Repr

/-- The model faults. All but `treeBroken` are the spec's own ("a model treats it as a fault"); each is SAFE: the model
stops, nothing can be proved of what follows. -/
inductive Fault where
  /-- Raised by a HOST register access at an offset that is no multiple of 8 (20_memory.md R57). Safe. -/
  | regMisaligned (off : Nat)
  /-- Raised by a HOST register access at an offset of 0x100 or more (20_memory.md R53). Safe. -/
  | regOutOfSpace (off : Nat)
  /-- Raised by a HOST register access of another width than 64 bits (20_memory.md R57). Safe. -/
  | regWidth (off : Nat)
  /-- Raised by a HOST access to IN at or above IN_CAP (20_memory.md R53). Safe. -/
  | inOutOfSpace (a : Nat)
  /-- Raised by a HOST read of OUT at or above OUT_CAP (20_memory.md R53). Safe. -/
  | outOutOfSpace (a : Nat)
  /-- Raised by a HOST memory access of more than one byte (20_memory.md R57). Safe. -/
  | memWidth (a : Nat)
  /-- Raised by a HOST write to OUT (20_memory.md R57). Safe. -/
  | outWritten (a : Nat)
  /-- Raised by `InWrite` while BUSY (70_reset_and_hazards.md R152). Safe. -/
  | inWriteWhileBusy (a : Nat)
  /-- Raised by an ENGINE read of an IN byte not written since reset (70_reset_and_hazards.md R153). Safe. -/
  | inUnwritten (a : Nat)
  /-- Raised by a tree walk of GENCODES, SERIALIZE or DECODE that leaves the arena, or does not end, because the arena
  is no full tree. 10_state.md R49 item 5 excludes such states; no run from reset reaches one (log entry 7). Safe. -/
  | treeBroken
  deriving DecidableEq, Repr

/-- The refusals. Every command of the opcode table has its meaning, so no arm of exec answers with one. -/
inductive Refusal where
  /-- Raised by an arm of exec whose command has no meaning yet (none). Safe: the model stops. -/
  | notModelled (mnemonic : String)
  deriving DecidableEq, Repr

/-- The state of the core (10_state.md R20), its configuration, and the HOST's side of the interface. -/
structure State where
  /-- IN_CAP, OUT_CAP, BITBUF_CAP, BLOCK_BASE (00_scope.md R9): fixed, changed by no step (log entry 2) -/
  cfg : Config
  /-- PENDING (10_state.md R48); STATUS.BUSY is 1 exactly when it is not empty -/
  pending : Option Word
  /-- STATUS.DONE (10_state.md R27) -/
  done : Bool
  /-- STATUS.ERR -/
  err : Bool
  /-- STATUS.OVERRUN, sticky -/
  overrun : Bool
  /-- STATUS.TV: the tree store holds a tree (10_state.md R46) -/
  tv : Bool
  /-- STATUS.CV: CODE holds the codes of the current tree -/
  cv : Bool
  /-- STATUS.BV: BITBUF and BITLEN hold a bit sequence encoded against the current tree -/
  bv : Bool
  /-- STATUS.ERRCODE -/
  errCode : ErrCode
  /-- STATUS.DETAIL -/
  detail : Byte
  /-- STATUS.LAST_OP -/
  lastOp : Byte
  /-- ERR_INFO (10_state.md R28) -/
  errInfo : Word
  /-- IN_LEN (10_state.md R29) -/
  inLen : Word
  /-- OUT_LEN (10_state.md R30) -/
  outLen : Word
  /-- BITLEN (10_state.md R31) -/
  bitLen : Word
  /-- ROOT (10_state.md R32): `none` is NONE = 1 -/
  root : Option NodeIndex
  /-- WIN_INDEX.IDX (10_state.md R34) -/
  winIdx : BitVec 9
  /-- WIN_INDEX.WSEL -/
  winSel : BitVec 2
  /-- FREQ[0..255] (10_state.md R41) -/
  freq : Vector Word 256
  /-- NODE[0..NODE_COUNT) (10_state.md R42); NODE_COUNT (R33) is its length -/
  nodes : List Node
  /-- CODE[0..255] (10_state.md R44) -/
  code : Vector Bits 256
  /-- BITBUF[0..ceil8(BITLEN)) (10_state.md R45) -/
  bitbuf : List Byte
  /-- the IN memory; listed bytes are those written since reset (20_memory.md R51) -/
  inMem : Memory
  /-- the OUT memory; unlisted bytes are unspecified -/
  outMem : Memory
  /-- what the HOST will still issue, in program order (log entry 1) -/
  hostProgram : List HostOp
  /-- what the HOST has read, newest first (log entry 1) -/
  hostLog : List Observation
  /-- who moves next when both agents are enabled; when it is empty the ENGINE does (log entry 1) -/
  schedule : List Agent
  /-- how many unspecified values have been drawn (log entry 3) -/
  draws : Nat
  deriving DecidableEq, Repr

/-- The state after reset of a core with configuration `c` (10_state.md R50), with nothing on the HOST's side. -/
def State.resetWith (c : Config) : State where
  cfg := c
  pending := none
  done := false
  err := false
  overrun := false
  tv := false
  cv := false
  bv := false
  errCode := .none
  detail := 0
  lastOp := 0
  errInfo := 0
  inLen := 0
  outLen := 0
  bitLen := 0
  root := none
  winIdx := 0
  winSel := 0
  freq := Vector.replicate 256 0
  nodes := []
  code := Vector.replicate 256 []
  bitbuf := []
  inMem := []
  outMem := []
  hostProgram := []
  hostLog := []
  schedule := []
  draws := 0

/-- The machine right after reset (10_state.md R50), in configuration CFG0 (log entry 2). -/
def State.reset : State := State.resetWith Config.cfg0

end Sys2Proof.Machine
end

