-- ==== Sys2Proof/Machine/Flags.lean ====
section
/-! DEFINITION. The numbers of STATUS: error and detail codes, the status word, the readiness mask (10_state.md R27;
60_exceptions.md R131 to R133). -/

namespace Sys2Proof.Machine

open Sys2Proof

/-- STATUS.ERRCODE as a number (60_exceptions.md R131). -/
def ErrCode.number : ErrCode → Byte
  | .none => 0
  | .corruptContainer => 1
  | .emptyAlphabet => 2
  | .illegalCommand => 3
  | .notReady => 4
  | .inLength => 5
  | .outOverflow => 6
  | .bitbufOverflow => 7
  | .noCode => 8
  | .weightOverflow => 9

/-- STATUS.DETAIL of a CORRUPT_CONTAINER error (60_exceptions.md R132). -/
def CorruptDetail.number : CorruptDetail → Byte
  | .shortHeader => 1
  | .shortTree => 2
  | .treeOverrun => 3
  | .badTag => 4
  | .nodeLimit => 5
  | .dupSymbol => 6
  | .treeTrailing => 7
  | .shortBitlen => 8
  | .emptyTreeBits => 9
  | .shortBits => 10
  | .trailingBytes => 11
  | .padNonzero => 12
  | .partialCode => 13
  | .leafRootOne => 14

/-- CORRUPT_CONTAINER(detail, info), `info` an offset or a bit index (60_exceptions.md R134). -/
def corruptError (d : CorruptDetail) (info : Nat) : CmdError :=
  { code := .corruptContainer, detail := d.number, info := BitVec.ofNat 64 info }

/-- An error with DETAIL = 0 (60_exceptions.md R133, last sentence). -/
def plainError (c : ErrCode) (info : Nat) : CmdError :=
  { code := c, detail := 0, info := BitVec.ofNat 64 info }

/-- STATUS.BUSY: 1 exactly when PENDING is non-empty (10_state.md R48). -/
def State.busy (s : State) : Bool := s.pending.isSome

/-- The STATUS word from its fields (10_state.md R27). -/
def statusWord (busy done err overrun tv cv bv : Bool) (code detail op : Byte) : Word :=
  BitVec.ofNat 64 (busy.toNat + 2 * done.toNat + 4 * err.toNat + 8 * overrun.toNat + 16 * tv.toNat + 32 * cv.toNat + 64 * bv.toNat
    + 2 ^ 8 * code.toNat + 2 ^ 16 * detail.toNat + 2 ^ 24 * op.toNat)

/-- What a STATUS read returns while the core is not BUSY (10_state.md R27). -/
def statusIdle (s : State) : Word :=
  statusWord false s.done s.err s.overrun s.tv s.cv s.bv s.errCode.number s.detail s.lastOp

/-- What a STATUS read returns while BUSY: "BUSY = 1, DONE = ERR = 0, ERRCODE = DETAIL = 0, OVERRUN and LAST_OP their
values; TV, CV, BV unspecified", here the free bits `u` (70_reset_and_hazards.md R151). -/
def statusBusy (s : State) (u : BitVec 3) : Word :=
  statusWord true false false s.overrun (u.getLsbD 0) (u.getLsbD 1) (u.getLsbD 2) 0 0 s.lastOp

/-- The mask of the required flags that are 0: bit 0 = TV, bit 1 = CV, bit 2 = BV (60_exceptions.md R133). -/
def missingMask (n : Need) (s : State) : Byte :=
  BitVec.ofNat 8 ((n.tv && !s.tv).toNat + 2 * (n.cv && !s.cv).toNat + 4 * (n.bv && !s.bv).toNat)

/-- The pre-checks of 60_exceptions.md R129 items 2 and 3, in their order (item 1, legality, is the decoder's:
`decode` rejects exactly the illegal words). `readsIn` says that the command reads IN. -/
def precheck (n : Need) (readsIn : Bool) (s : State) : Option CmdError :=
  if missingMask n s ≠ 0 then some { code := .notReady, detail := missingMask n s, info := 0 }
  else if readsIn && decide (s.cfg.inCap < s.inLen.toNat) then some { code := .inLength, detail := 0, info := s.inLen }
  else none

end Sys2Proof.Machine
end

