-- ==== Sys2Proof/Machine/Ops.lean ====
section
/-! DEFINITION. The shared operations: memories, byte and bit order, the product clears, acceptance and completion of
a command (the core's only "exception": an error completion), and what every command has in common. -/

namespace Sys2Proof.Machine

open Sys2Proof

/-! ## Memories -/

/-- The byte listed at an address, if one is. -/
def readByte : Memory → Nat → Option Byte
  | [], _ => none
  | (a, b) :: m, x => if x = a then some b else readByte m x

/-- Write one byte, keeping addresses strictly rising. -/
def writeByte : Memory → Nat → Byte → Memory
  | [], x, v => [(x, v)]
  | (a, b) :: m, x, v =>
    if x < a then (x, v) :: (a, b) :: m
    else if x = a then (x, v) :: m
    else (a, b) :: writeByte m x v

/-- Write bytes at consecutive addresses from `x` on: the `MemWrite`s of a command, in order (00_scope.md R16). -/
def writeBytes : Memory → Nat → List Byte → Memory
  | m, _, [] => m
  | m, x, v :: vs => writeBytes (writeByte m x v) (x + 1) vs

/-- The canonical form of a memory: addresses strictly rising. (Every listed byte differs from what an unlisted address
reads as, which is no value.) -/
def Memory.wf : Memory → Bool
  | [] => true
  | [_] => true
  | (a, _) :: (b, v) :: m => decide (a < b) && Memory.wf ((b, v) :: m)

/-! ## Byte order and bit order -/

/-- Σ b_i · 256^(n−1−i): the first byte is the most significant (00_scope.md R14). -/
def beNat : List Byte → Nat → Nat
  | [], acc => acc
  | b :: bs, acc => beNat bs (acc * 256 + b.toNat)

/-- `be64` (00_scope.md R14). -/
def be64 (bs : List Byte) : Word := BitVec.ofNat 64 (beNat bs 0)

/-- `be64_bytes` (00_scope.md R14): the eight bytes, most significant first. -/
def be64Bytes (v : Word) : List Byte :=
  [v.extractLsb' 56 8, v.extractLsb' 48 8, v.extractLsb' 40 8, v.extractLsb' 32 8,
   v.extractLsb' 24 8, v.extractLsb' 16 8, v.extractLsb' 8 8, v.extractLsb' 0 8]

/-- The number whose `n` binary digits, most significant first, are the first `n` bits of a sequence, 0 past its end. -/
def msbNat : Nat → Bits → Nat
  | 0, _ => 0
  | n + 1, bs => (bs.headD false).toNat * 2 ^ n + msbNat n bs.tail

/-- `ceil8` (00_scope.md R15). -/
def ceil8 (n : Nat) : Nat := n / 8 + (if n % 8 ≠ 0 then 1 else 0)

/-- The packed bytes of a bit sequence, `p` of them: bit s_i goes to byte ⌊i/8⌋ at bit position 7 − (i mod 8), padding
bits 0 (00_scope.md R15). -/
def packBytes : Nat → Bits → List Byte
  | 0, _ => []
  | p + 1, bs => BitVec.ofNat 8 (msbNat 8 bs) :: packBytes p (bs.drop 8)

/-- The bits of a packed byte in stream order, bit 7 first (00_scope.md R15, 20_memory.md R55). -/
def byteBits (b : Byte) : Bits :=
  [b.getLsbD 7, b.getLsbD 6, b.getLsbD 5, b.getLsbD 4, b.getLsbD 3, b.getLsbD 2, b.getLsbD 1, b.getLsbD 0]

/-- The first `n` bits of a packed buffer: `bit(buf, i)` for i in 0..n (00_scope.md R15). -/
def unpackBits (n : Nat) (buf : List Byte) : Bits := (buf.flatMap byteBits).take n

/-! ## What a command can do -/

/-- Why a computation inside a command stops: a raised error, or a model fault. -/
inductive Stop where
  | error (e : CmdError)
  | fault (f : Fault)
  deriving DecidableEq, Repr

/-- What a command's body does (45_orchestration.md R113): it ends, it raises an error with the state its earlier writes
left (60_exceptions.md R128), or the model stops with a fault. -/
inductive Body where
  | done (s : State)
  | raised (e : CmdError) (s : State)
  | faulted (f : Fault)
  deriving DecidableEq, Repr

/-- Run a second body after a first; a raise or a fault ends both (45_orchestration.md R113). -/
def Body.andThen : Body → (State → Body) → Body
  | .done s, k => k s
  | .raised e s, _ => .raised e s
  | .faulted f, _ => .faulted f

/-- Continue a body with the result of a computation; where that stops, the writes already in `s` stand. -/
def Body.ofExcept {α : Type} (r : Except Stop α) (s : State) (k : α → Body) : Body :=
  match r with
  | .ok a => k a
  | .error (.error e) => .raised e s
  | .error (.fault f) => .faulted f

/-- `MemRead(a, 1)`: a byte whose written-since-reset mark is clear is a model fault (00_scope.md R16,
70_reset_and_hazards.md R153). -/
def memRead (m : Memory) (a : Nat) : Except Stop Byte :=
  match readByte m a with
  | some b => .ok b
  | none => .error (.fault (.inUnwritten a))

/-- `n` consecutive `MemRead`s from address `a` on, in ascending order. -/
def memReadBytes (m : Memory) : Nat → Nat → Except Stop (List Byte)
  | _, 0 => .ok []
  | a, n + 1 =>
    match memRead m a with
    | .error e => .error e
    | .ok b =>
      match memReadBytes m (a + 1) n with
      | .error e => .error e
      | .ok bs => .ok (b :: bs)

/-- `MemRead(a, 8)`, big-endian (00_scope.md R16, 20_memory.md R54). -/
def memRead64 (m : Memory) (a : Nat) : Except Stop Word :=
  match memReadBytes m a 8 with
  | .error e => .error e
  | .ok bs => .ok (be64 bs)

/-! ## The product clears (10_state.md R47) -/

/-- `invalidate(TREE)`. -/
def invalidateTree (s : State) : State := { s with tv := false, nodes := [], root := none }

/-- `invalidate(CODES)`. -/
def invalidateCodes (s : State) : State := { s with cv := false, code := Vector.replicate 256 [] }

/-- `invalidate(BITS)`. With BITLEN = 0 no byte of BITBUF is meaningful, so none is held (log entry 6). -/
def invalidateBits (s : State) : State := { s with bv := false, bitLen := 0, bitbuf := [] }

/-- All three clears, in the order of 10_state.md R47. -/
def invalidateAll (s : State) : State := invalidateBits (invalidateCodes (invalidateTree s))

/-! ## Acceptance and completion (60_exceptions.md R126, R127, R136) -/

/-- What the acceptance of a command word writes (60_exceptions.md R126, PENDING empty). BUSY becomes 1 with PENDING. -/
def acceptWord (w : Word) (s : State) : State :=
  { s with pending := some w, done := false, err := false, errCode := .none, detail := 0,
           lastOp := w.extractLsb' 0 8, errInfo := 0 }

/-- A CMD write (60_exceptions.md R126): accepted when PENDING is empty, else dropped with OVERRUN set. -/
def cmdWrite (w : Word) (s : State) : State :=
  match s.pending with
  | none => acceptWord w s
  | some _ => { s with overrun := true }

/-- A successful completion (60_exceptions.md R127). BUSY becomes 0 with PENDING. -/
def completeOk (s : State) : State := { s with done := true, pending := none }

/-- An error completion, the core's one exception: ERR, ERRCODE, DETAIL and ERR_INFO are recorded and the core waits
for the next command (60_exceptions.md R125, R127). -/
def completeError (e : CmdError) (s : State) : State :=
  { s with err := true, errCode := e.code, detail := e.detail, errInfo := e.info, pending := none }

/-- The OUT side of the error outcome of SERIALIZE, DECODE, COMPRESS and UNCOMPRESS: "OUT_LEN <- 0; every OUT byte
unspecified" (60_exceptions.md R136). -/
def outLost (s : State) : State := { s with outLen := 0, outMem := [] }

/-- The error outcome of an OUT-writing command's body (60_exceptions.md R136). -/
def Body.losingOut : Body → Body
  | .raised e s => .raised e (outLost s)
  | b => b

/-- Complete the command whose body did this (60_exceptions.md R127). -/
def finish : Body → Host.Outcome State Fault Refusal
  | .done s => .next (completeOk s)
  | .raised e s => .next (completeError e s)
  | .faulted f => .fault f

/-- A command: its pre-checks, which change nothing when they fail, then its body, then completion
(60_exceptions.md R127, R129). -/
def runCommand (n : Need) (readsIn : Bool) (body : State → Body) (s : State) : Host.Outcome State Fault Refusal :=
  match precheck n readsIn s with
  | some e => .next (completeError e s)
  | none => finish (body s)

/-- No flag required (30_encoding.md R68). -/
def Need.nothing : Need := { tv := false, cv := false, bv := false }

/-- Write `bytes` to OUT from address 0 on and set OUT_LEN: what an OUT-writing command leaves on success. Bytes of OUT
at or above OUT_LEN keep their previous values (93_implementation_defined.md U8). -/
def writeOut (bytes : List Byte) (len : Nat) (s : State) : State :=
  { s with outMem := writeBytes s.outMem 0 bytes, outLen := BitVec.ofNat 64 len }

/-! ## The tree store -/

/-- The weight of a record (10_state.md R42). -/
def Node.weight : Node → Word
  | .leaf w _ => w
  | .internal w _ _ => w

/-- The stack walk of GENCODES (42_code_table.md R90) and SERIALIZE (44_container.md R104): records in pre-order, left
first, each with its path from the root. `fuel` bounds the pops by the number of records held; a walk that would pop more,
or meets an index outside the arena, is not one of a full tree (log entry 7). -/
def traverse (nodes : List Node) : Nat → List (Nat × Bits) → Except Stop (List (Node × Bits))
  | _, [] => .ok []
  | 0, _ :: _ => .error (.fault .treeBroken)
  | fuel + 1, (n, p) :: stack =>
    match nodes[n]? with
    | none => .error (.fault .treeBroken)
    | some (.leaf w sym) =>
      match traverse nodes fuel stack with
      | .error e => .error e
      | .ok rest => .ok ((.leaf w sym, p) :: rest)
    | some (.internal w l r) =>
      match traverse nodes fuel ((l.toNat, p ++ [false]) :: (r.toNat, p ++ [true]) :: stack) with
      | .error e => .error e
      | .ok rest => .ok ((.internal w l r, p) :: rest)

end Sys2Proof.Machine
end

