-- ==== Sys2Proof/Machine/Operands.lean ====
section
/-! DEFINITION. The register map and the register views (10_state.md R23 to R40). Commands have no operands
(30_encoding.md R67): the registers are the HOST's operand forms. -/

namespace Sys2Proof.Machine

open Sys2Proof

/-- The registers of 10_state.md R23. -/
inductive Reg where
  | id | cmd | status | errInfo | inLen | outLen | bitLen | root | nodeCount | winIndex | freqWin | codeLenWin
  | codeBitsWin | nodeWin | nodeWeightWin | inCap | outCap | bitbufCap | reserved
  deriving DecidableEq, Repr

/-- The register at an offset (10_state.md R23): 0x90 to 0xF8 are reserved. -/
def regAt (off : Nat) : Reg :=
  match off with
  | 0x00 => .id
  | 0x08 => .cmd
  | 0x10 => .status
  | 0x18 => .errInfo
  | 0x20 => .inLen
  | 0x28 => .outLen
  | 0x30 => .bitLen
  | 0x38 => .root
  | 0x40 => .nodeCount
  | 0x48 => .winIndex
  | 0x50 => .freqWin
  | 0x58 => .codeLenWin
  | 0x60 => .codeBitsWin
  | 0x68 => .nodeWin
  | 0x70 => .nodeWeightWin
  | 0x78 => .inCap
  | 0x80 => .outCap
  | 0x88 => .bitbufCap
  | _ => .reserved

/-- ROOT (10_state.md R32): NONE at bit 63, INDEX at [8:0]. -/
def rootWord : Option NodeIndex → Word
  | none => 0x8000000000000000#64
  | some i => i.setWidth 64

/-- WIN_INDEX (10_state.md R34): IDX at [8:0], WSEL at [17:16]. -/
def winIndexWord (s : State) : Word := s.winIdx.setWidth 64 ||| s.winSel.setWidth 64 <<< 16

/-- The symbol the windows read: WIN_INDEX.IDX[7:0] (10_state.md R35 to R37). -/
def winSymbol (s : State) : Byte := s.winIdx.setWidth 8

/-- A count of FREQ (10_state.md R41). -/
def freqOf (freq : Vector Word 256) (sym : Byte) : Word := freq[sym.toNat]'sym.isLt

/-- The code of a symbol (10_state.md R44). -/
def codeOf (code : Vector Bits 256) (sym : Byte) : Bits := code[sym.toNat]'sym.isLt

/-- CODE_BITS_WIN (10_state.md R37): word `w` of a code, its first bit at bit 63 of word 0. -/
def codeBitsWord (c : Bits) (w : Nat) : Word := BitVec.ofNat 64 (msbNat 64 (c.drop (64 * w)))

/-- NODE_WIN of a record held (10_state.md R38). -/
def nodeWord : Node → Word
  | .leaf _ sym => 0x8000000000000000#64 ||| sym.setWidth 64 <<< 32
  | .internal _ l r => 0x8001000000000000#64 ||| r.setWidth 64 <<< 16 ||| l.setWidth 64

/-- What a register read returns while the core is not BUSY (10_state.md R23 to R40). -/
def regValue (s : State) : Reg → Word
  | .id => Config.idValue
  | .cmd => 0
  | .status => statusIdle s
  | .errInfo => s.errInfo
  | .inLen => s.inLen
  | .outLen => s.outLen
  | .bitLen => s.bitLen
  | .root => rootWord s.root
  | .nodeCount => BitVec.ofNat 64 s.nodes.length
  | .winIndex => winIndexWord s
  | .freqWin => freqOf s.freq (winSymbol s)
  | .codeLenWin => BitVec.ofNat 64 (codeOf s.code (winSymbol s)).length
  | .codeBitsWin => codeBitsWord (codeOf s.code (winSymbol s)) s.winSel.toNat
  | .nodeWin =>
    match s.nodes[s.winIdx.toNat]? with
    | some n => nodeWord n
    | none => 0
  | .nodeWeightWin =>
    match s.nodes[s.winIdx.toNat]? with
    | some n => n.weight
    | none => 0
  | .inCap => BitVec.ofNat 64 s.cfg.inCap
  | .outCap => BitVec.ofNat 64 s.cfg.outCap
  | .bitbufCap => BitVec.ofNat 64 s.cfg.bitbufCap
  | .reserved => 0

/-- The registers whose read is specified while BUSY, STATUS apart (70_reset_and_hazards.md R151): "ID, IN_LEN,
WIN_INDEX, a capacity register, CMD, a reserved offset". -/
def Reg.readableBusy : Reg → Bool
  | .id | .cmd | .inLen | .winIndex | .inCap | .outCap | .bitbufCap | .reserved => true
  | .status | .errInfo | .outLen | .bitLen | .root | .nodeCount | .freqWin | .codeLenWin | .codeBitsWin | .nodeWin
  | .nodeWeightWin => false

/-- What a register write does while the core is not BUSY, CMD apart: IN_LEN, WIN_INDEX and FREQ_WIN are writable, a
write to any other register is ignored (10_state.md R24, R29, R34, R35). -/
def regStore (r : Reg) (v : Word) (s : State) : State :=
  match r with
  | .inLen => { s with inLen := v }
  | .winIndex => { s with winIdx := v.extractLsb' 0 9, winSel := v.extractLsb' 16 2 }
  | .freqWin => { s with freq := s.freq.set (winSymbol s).toNat v (winSymbol s).isLt }
  | .id | .cmd | .status | .errInfo | .outLen | .bitLen | .root | .nodeCount | .codeLenWin | .codeBitsWin | .nodeWin
  | .nodeWeightWin | .inCap | .outCap | .bitbufCap | .reserved => s

end Sys2Proof.Machine
end

