-- ==== Sys2Proof/Machine/Control.lean ====
section
/-! DEFINITION. The control commands NOP and CLEAR and the completion of an illegal word (46_control.md R121, R122;
30_encoding.md R69). -/

namespace Sys2Proof.Machine

open Sys2Proof

/-- NOP: "the command completes" (46_control.md R121). -/
def execNop (s : State) : Host.Outcome State Fault Refusal :=
  runCommand Need.nothing false Body.done s

/-- The writes of CLEAR (46_control.md R122). -/
def clearBody (s : State) : Body :=
  .done { invalidateAll { s with freq := Vector.replicate 256 0 } with outLen := 0, overrun := false }

/-- CLEAR: "return the core's computed state to its reset values" (46_control.md R122). -/
def execClear (s : State) : Host.Outcome State Fault Refusal :=
  runCommand Need.nothing false clearBody s

/-- The ENGINE step of an illegal word: ILLEGAL_COMMAND, ERR_INFO the whole word, no other change (30_encoding.md R69,
60_exceptions.md R129 item 1). -/
def execIllegal (w : Word) (s : State) : Host.Outcome State Fault Refusal :=
  .next (completeError { code := .illegalCommand, detail := 0, info := w } s)

end Sys2Proof.Machine
end

