-- ==== Sys2Proof/Machine/Bitstream.lean ====
section
/-! DEFINITION. The bit-stream encoder and decoder: ENCODE and DECODE (43_bitstream.md). -/

namespace Sys2Proof.Machine

open Sys2Proof

/-! ## ENCODE -/

/-- Pass 1 of ENCODE (43_bitstream.md R96) with the bits pass 2 packs: the codes of IN[i..i+n), in input order (R97);
NO_CODE at the first byte that has none. -/
def encodeBits (m : Memory) (code : Vector Bits 256) : Nat → Nat → Except Stop Bits
  | _, 0 => .ok []
  | i, n + 1 =>
    match memRead m i with
    | .error e => .error e
    | .ok sym =>
      match codeOf code sym with
      | [] => .error (.error (plainError .noCode i))
      | b :: bs =>
        match encodeBits m code (i + 1) n with
        | .error e => .error e
        | .ok rest => .ok (b :: bs ++ rest)

/-- The body of ENCODE (43_bitstream.md R96). -/
def encodeBody (s : State) : Body :=
  Body.ofExcept (encodeBits s.inMem s.code 0 s.inLen.toNat) (invalidateBits s) fun bits =>
    if s.cfg.bitbufCap < ceil8 bits.length then
      .raised (plainError .bitbufOverflow (ceil8 bits.length)) (invalidateBits s)
    else
      .done { invalidateBits s with
        bitbuf := packBytes (ceil8 bits.length) bits
        bitLen := BitVec.ofNat 64 bits.length
        bv := true }

/-- ENCODE requires CV and reads IN (43_bitstream.md R96). -/
def execEncode (s : State) : Host.Outcome State Fault Refusal :=
  runCommand { tv := false, cv := true, bv := false } true encodeBody s

/-! ## DECODE -/

/-- The walk under a Leaf root (43_bitstream.md R98, R101): each 0 bit is one occurrence of its symbol, a 1 bit is
LEAF_ROOT_ONE. `i` is the index of the next bit, `k` the number of symbols emitted. -/
def decodeLeafRoot (sym : Byte) (cap : Nat) : Bits → Nat → Nat → Except Stop (List Byte)
  | [], _, _ => .ok []
  | true :: _, i, _ => .error (.error (corruptError .leafRootOne i))
  | false :: bits, i, k =>
    if k = cap then .error (.error (plainError .outOverflow i))
    else
      match decodeLeafRoot sym cap bits (i + 1) (k + 1) with
      | .error e => .error e
      | .ok rest => .ok (sym :: rest)

/-- The walk of 43_bitstream.md R98 and R99 from cursor `cur`: one step down per bit, a symbol and back to the root at a
Leaf; PARTIAL_CODE when the bits end elsewhere than at the root (R102). `i` is the index of the next bit, `k` the number of
symbols emitted. -/
def decodeWalk (nodes : List Node) (root cap : Nat) : Bits → Nat → Nat → Nat → Except Stop (List Byte)
  | [], i, _, cur => if cur ≠ root then .error (.error (corruptError .partialCode i)) else .ok []
  | bit :: bits, i, k, cur =>
    match nodes[cur]? with
    | some (.internal _ l r) =>
      match nodes[(if bit then r else l).toNat]? with
      | some (.leaf _ sym) =>
        if k = cap then .error (.error (plainError .outOverflow i))
        else
          match decodeWalk nodes root cap bits (i + 1) (k + 1) root with
          | .error e => .error e
          | .ok rest => .ok (sym :: rest)
      | some (.internal _ _ _) => decodeWalk nodes root cap bits (i + 1) k (if bit then r else l).toNat
      | none => .error (.fault .treeBroken)
    | some (.leaf _ _) => .error (.fault .treeBroken)
    | none => .error (.fault .treeBroken)

/-- The symbols DECODE emits (43_bitstream.md R98): it reads bits 0..B−1 of BITBUF and no others (R100). -/
def decodeSymbols (s : State) : Except Stop (List Byte) :=
  match s.root with
  | none => if s.bitLen ≠ 0 then .error (.error (corruptError .emptyTreeBits 0)) else .ok []
  | some r =>
    match s.nodes[r.toNat]? with
    | none => .error (.fault .treeBroken)
    | some (.leaf _ sym) => decodeLeafRoot sym s.cfg.outCap (unpackBits s.bitLen.toNat s.bitbuf) 0 0
    | some (.internal _ _ _) =>
      decodeWalk s.nodes r.toNat s.cfg.outCap (unpackBits s.bitLen.toNat s.bitbuf) 0 0 r.toNat

/-- The body of DECODE (43_bitstream.md R98). A raise loses every OUT byte (60_exceptions.md R136), so the symbols are
written when all of them are known. -/
def decodeBody (s : State) : Body :=
  Body.ofExcept (decodeSymbols s) s fun syms => .done (writeOut syms syms.length s)

/-- DECODE requires TV and BV (43_bitstream.md R98). -/
def execDecode (s : State) : Host.Outcome State Fault Refusal :=
  runCommand { tv := true, cv := false, bv := true } false (fun s => (decodeBody s).losingOut) s

end Sys2Proof.Machine
end

