-- ==== Sys2Proof/Machine/CodeTable.lean ====
section
/-! DEFINITION. The prefix-code table generator: GENCODES (42_code_table.md). -/

namespace Sys2Proof.Machine

open Sys2Proof

/-- `CODE[NODE[n].symbol] <- p` for a leaf visited with path `p`; an internal node writes no code (42_code_table.md R90). -/
def setCode (code : Vector Bits 256) (visit : Node × Bits) : Vector Bits 256 :=
  match visit.1 with
  | .leaf _ sym => code.set sym.toNat visit.2 sym.isLt
  | .internal _ _ _ => code

/-- The code table of a tree store (42_code_table.md R90): the empty tree gives no code, a Leaf root the one-bit code
"0" (R91), any other tree the root-to-leaf paths (R89). -/
def codeTable (nodes : List Node) (root : Option NodeIndex) : Except Stop (Vector Bits 256) :=
  match root with
  | none => .ok (Vector.replicate 256 [])
  | some r =>
    match nodes[r.toNat]? with
    | none => .error (.fault .treeBroken)
    | some (.leaf _ sym) => .ok ((Vector.replicate 256 []).set sym.toNat [false] sym.isLt)
    | some (.internal _ _ _) =>
      match traverse nodes nodes.length [(r.toNat, [])] with
      | .error e => .error e
      | .ok visits => .ok (visits.foldl setCode (Vector.replicate 256 []))

/-- The body of GENCODES (42_code_table.md R90). -/
def gencodesBody (s : State) : Body :=
  Body.ofExcept (codeTable s.nodes s.root) (invalidateCodes s) fun code =>
    .done { invalidateCodes s with code := code, cv := true }

/-- GENCODES requires TV (42_code_table.md R90). -/
def execGencodes (s : State) : Host.Outcome State Fault Refusal :=
  runCommand { tv := true, cv := false, bv := false } false gencodesBody s

end Sys2Proof.Machine
end

