-- ==== Sys2Proof/Machine/Container.lean ====
section
/-! DEFINITION. The container serializer and deserializer: SERIALIZE and DESERIALIZE (44_container.md). -/

namespace Sys2Proof.Machine

open Sys2Proof

/-! ## SERIALIZE -/

/-- The size of a record in the tree block (30_encoding.md R72). -/
def recordSize : Node → Nat
  | .leaf _ _ => 10
  | .internal _ _ _ => 9

/-- T, the sum over all records held (44_container.md R104). -/
def treeBlockSize (nodes : List Node) : Nat := (nodes.map recordSize).sum

/-- A record of the tree block: tag, weight, and for a leaf its symbol (30_encoding.md R72). -/
def recordBytes : Node → List Byte
  | .leaf w sym => 0#8 :: be64Bytes w ++ [sym]
  | .internal w _ _ => 1#8 :: be64Bytes w

/-- The tree block in pre-order (44_container.md R104); the empty tree has none. -/
def treeBlock (nodes : List Node) (root : Option NodeIndex) : Except Stop (List Byte) :=
  match root with
  | none => .ok []
  | some r =>
    match traverse nodes nodes.length [(r.toNat, [])] with
    | .error e => .error e
    | .ok visits => .ok (visits.flatMap fun v => recordBytes v.1)

/-- 16 + T + P, the length of the container (44_container.md R104). -/
def containerSize (s : State) : Nat := 16 + treeBlockSize s.nodes + ceil8 s.bitLen.toNat

/-- The body of SERIALIZE (44_container.md R104). -/
def serializeBody (s : State) : Body :=
  if s.cfg.outCap < containerSize s then .raised (plainError .outOverflow (containerSize s)) s
  else
    Body.ofExcept (treeBlock s.nodes s.root) s fun block =>
      .done (writeOut
        (be64Bytes (BitVec.ofNat 64 (treeBlockSize s.nodes)) ++ block ++ be64Bytes s.bitLen
          ++ s.bitbuf.take (ceil8 s.bitLen.toNat))
        (containerSize s) s)

/-- SERIALIZE requires TV and BV (44_container.md R104). -/
def execSerialize (s : State) : Host.Outcome State Fault Refusal :=
  runCommand { tv := true, cv := false, bv := true } false (fun s => (serializeBody s).losingOut) s

/-! ## DESERIALIZE -/

/-- A pending child slot of the parser (44_container.md R108). -/
inductive Slot where
  | root
  | left (parent : Nat)
  | right (parent : Nat)
  deriving DecidableEq, Repr

/-- Set a record's left child. -/
def Node.withLeft (idx : Nat) : Node → Node
  | .leaf w sym => .leaf w sym
  | .internal w _ r => .internal w (BitVec.ofNat 9 idx) r

/-- Set a record's right child. -/
def Node.withRight (idx : Nat) : Node → Node
  | .leaf w sym => .leaf w sym
  | .internal w l _ => .internal w l (BitVec.ofNat 9 idx)

/-- "fill slot with idx" (44_container.md R108). The root needs no record: in pre-order it is node 0. -/
def fillSlot (nodes : List Node) (slot : Slot) (idx : Nat) : List Node :=
  match slot with
  | .root => nodes
  | .left p => nodes.modify p (Node.withLeft idx)
  | .right p => nodes.modify p (Node.withRight idx)

/-- Step 1 of DESERIALIZE, the tree length T (44_container.md R107). -/
def parseTreeLength (m : Memory) (n : Nat) : Except Stop Nat :=
  if n < 8 then .error (.error (corruptError .shortHeader 0))
  else
    match memRead64 m 0 with
    | .error e => .error e
    | .ok t => if n - 8 < t.toNat then .error (.error (corruptError .shortTree 0)) else .ok t.toNat

/-- Step 2 of DESERIALIZE, the loop over pending slots (44_container.md R108). `last` is `end`, `nodes` the records read so
far (`count` is their number), `seen` the leaf symbols so far. Every round reads one record and the 512th raises
NODE_LIMIT, so `fuel` = 512 rounds suffice. A new Internal record holds its own index in its pending child fields until the
slots are filled. The result is the records and the position after the tree. -/
def parseRecords (m : Memory) (last : Nat) :
    Nat → List Slot → Nat → List Node → List Byte → Except Stop (List Node × Nat)
  | _, [], pos, nodes, _ => .ok (nodes, pos)
  | 0, _ :: _, _, _, _ => .error (.fault .treeBroken)
  | fuel + 1, slot :: stack, pos, nodes, seen =>
    if pos = last then .error (.error (corruptError .treeOverrun pos))
    else
      match memRead m pos with
      | .error e => .error e
      | .ok tag =>
        if 1 < tag.toNat then .error (.error (corruptError .badTag pos))
        else if last - pos < (if tag = 0 then 10 else 9) then .error (.error (corruptError .treeOverrun pos))
        else if nodes.length = Config.maxNodes then .error (.error (corruptError .nodeLimit pos))
        else
          match memRead64 m (pos + 1) with
          | .error e => .error e
          | .ok w =>
            if tag = 0 then
              match memRead m (pos + 9) with
              | .error e => .error e
              | .ok sym =>
                if sym ∈ seen then .error (.error (corruptError .dupSymbol (pos + 9)))
                else
                  parseRecords m last fuel stack (pos + 10)
                    (fillSlot nodes slot nodes.length ++ [.leaf w sym]) (sym :: seen)
            else
              parseRecords m last fuel (.left nodes.length :: .right nodes.length :: stack) (pos + 9)
                (fillSlot nodes slot nodes.length
                  ++ [.internal w (BitVec.ofNat 9 nodes.length) (BitVec.ofNat 9 nodes.length)]) seen

/-- Step 2 of DESERIALIZE, the tree block IN[8 .. 8+T) (44_container.md R108). -/
def parseTree (m : Memory) (t : Nat) : Except Stop (List Node) :=
  if t = 0 then .ok []
  else
    match parseRecords m (8 + t) (Config.maxNodes + 1) [.root] 8 [] [] with
    | .error e => .error e
    | .ok (nodes, pos) =>
      if pos ≠ 8 + t then .error (.error (corruptError .treeTrailing pos)) else .ok nodes

/-- The padding check of step 3 (44_container.md R109): with P packed bytes from `r` on, the low bits of the last one
beyond the bit length `b` must be 0. -/
def parsePadding (m : Memory) (r b : Nat) : Except Stop Unit :=
  if b % 8 = 0 then .ok ()
  else
    match memRead m (r + ceil8 b - 1) with
    | .error e => .error e
    | .ok pad =>
      if pad.toNat % 2 ^ (8 - b % 8) ≠ 0 then .error (.error (corruptError .padNonzero (r + ceil8 b - 1))) else .ok ()

/-- Step 3 of DESERIALIZE, the bit length and the packed bytes (44_container.md R109), and the copy of R106: the bit
length and the bytes of BITBUF. -/
def parseBits (m : Memory) (n t bitbufCap : Nat) : Except Stop (Word × List Byte) :=
  if n - (8 + t) < 8 then .error (.error (corruptError .shortBitlen (8 + t)))
  else
    match memRead64 m (8 + t) with
    | .error e => .error e
    | .ok b =>
      if t = 0 ∧ b ≠ 0 then .error (.error (corruptError .emptyTreeBits (8 + t)))
      else if n - (16 + t) < ceil8 b.toNat then .error (.error (corruptError .shortBits (8 + t)))
      else if ceil8 b.toNat < n - (16 + t) then
        .error (.error (corruptError .trailingBytes (16 + t + ceil8 b.toNat)))
      else
        match parsePadding m (16 + t) b.toNat with
        | .error e => .error e
        | .ok () =>
          if bitbufCap < ceil8 b.toNat then .error (.error (plainError .bitbufOverflow (ceil8 b.toNat)))
          else
            match memReadBytes m (16 + t) (ceil8 b.toNat) with
            | .error e => .error e
            | .ok bytes => .ok (b, bytes)

/-- The three steps of DESERIALIZE in order (44_container.md R106): T, the records, the bit length and the packed
bytes. -/
def parseContainer (m : Memory) (n bitbufCap : Nat) : Except Stop (Nat × List Node × Word × List Byte) :=
  match parseTreeLength m n with
  | .error e => .error e
  | .ok t =>
    match parseTree m t with
    | .error e => .error e
    | .ok nodes =>
      match parseBits m n t bitbufCap with
      | .error e => .error e
      | .ok (b, bytes) => .ok (t, nodes, b, bytes)

/-- The body of DESERIALIZE (44_container.md R106): the clears stand also when it raises. -/
def deserializeBody (s : State) : Body :=
  Body.ofExcept (parseContainer s.inMem s.inLen.toNat s.cfg.bitbufCap) (invalidateAll s) fun r =>
    .done { invalidateAll s with
      nodes := r.2.1
      root := if r.1 = 0 then none else some 0
      bitLen := r.2.2.1
      bitbuf := r.2.2.2
      tv := true
      bv := true }

/-- DESERIALIZE reads IN and requires no flag (44_container.md R106). -/
def execDeserialize (s : State) : Host.Outcome State Fault Refusal :=
  runCommand Need.nothing true deserializeBody s

end Sys2Proof.Machine
end

