-- ==== Sys2Proof/Machine/FrequencyTree.lean ====
section
/-! DEFINITION. The frequency counter and the tree builder: COUNT and BUILD (41_frequency_tree.md). -/

namespace Sys2Proof.Machine

open Sys2Proof

/-! ## COUNT -/

/-- `FREQ[s] <- FREQ[s] + 1` (41_frequency_tree.md R78). -/
def bump (freq : Vector Word 256) (sym : Byte) : Vector Word 256 :=
  freq.set sym.toNat (freq[sym.toNat]'sym.isLt + 1) sym.isLt

/-- The body of COUNT (41_frequency_tree.md R78): FREQ is zeroed, then counts IN[0..IN_LEN). -/
def countBody (s : State) : Body :=
  Body.ofExcept (memReadBytes s.inMem 0 s.inLen.toNat) s fun bytes =>
    .done { s with freq := bytes.foldl bump (Vector.replicate 256 0) }

/-- COUNT (41_frequency_tree.md R78). -/
def execCount (s : State) : Host.Outcome State Fault Refusal :=
  runCommand Need.nothing true countBody s

/-! ## BUILD -/

/-- The leaves, in ascending symbol order, of the symbols with a count above 0; `sym` is the symbol of the list's first
count (41_frequency_tree.md R80, R83). -/
def leavesFrom : List Word → Nat → List Node
  | [], _ => []
  | f :: fs, sym =>
    if f = 0 then leavesFrom fs (sym + 1) else .leaf f (BitVec.ofNat 8 sym) :: leavesFrom fs (sym + 1)

/-- The first symbol at which the running sum, unbounded, exceeds 2^64 − 1 (41_frequency_tree.md R80,
60_exceptions.md R134). -/
def overflowSymbol : List Word → Nat → Nat → Option Nat
  | [], _, _ => none
  | f :: fs, sym, acc => if 2 ^ 64 - 1 < acc + f.toNat then some sym else overflowSymbol fs (sym + 1) (acc + f.toNat)

/-- key(n) = (NODE[n].weight, n) (41_frequency_tree.md R82). -/
structure Key where
  weight : Word
  index : Nat
  deriving DecidableEq, Repr

/-- The lexicographic order of keys: weight unsigned first, then node index (41_frequency_tree.md R82). -/
def Key.lt (a b : Key) : Bool :=
  decide (a.weight.toNat < b.weight.toNat) || (decide (a.weight = b.weight) && decide (a.index < b.index))

/-- Put a key into a pool held in ascending key order. -/
def insertKey (k : Key) : List Key → List Key
  | [] => [k]
  | a :: pool => if k.lt a then k :: a :: pool else a :: insertKey k pool

/-- The keys of a list of nodes, the first of index `i`, as a pool in ascending key order. -/
def poolOf : List Node → Nat → List Key
  | [], _ => []
  | n :: ns, i => insertKey { weight := n.weight, index := i } (poolOf ns (i + 1))

/-- The merge loop of 41_frequency_tree.md R80. The pool is held in ascending key order, so its first two keys are the
two least: the first removed becomes the left child, the second the right (R84), and the new Internal node takes the next
free index (R83). Each round takes one key away, so `fuel` = |pool| rounds suffice. -/
def mergeLoop : Nat → List Key → List Node → List Node
  | fuel + 1, a :: b :: pool, nodes =>
    mergeLoop fuel (insertKey { weight := a.weight + b.weight, index := nodes.length } pool)
      (nodes ++ [.internal (a.weight + b.weight) (BitVec.ofNat 9 a.index) (BitVec.ofNat 9 b.index)])
  | _, _, nodes => nodes

/-- The arena BUILD makes from its leaves. With one leaf there is no merge (41_frequency_tree.md R85). -/
def buildNodes (leaves : List Node) : List Node := mergeLoop leaves.length (poolOf leaves 0) leaves

/-- The body of BUILD (41_frequency_tree.md R80): the clears stand also when it raises. The root is the last node
created (R83), at index 0 when there is one leaf. -/
def buildBody (s : State) : Body :=
  match leavesFrom s.freq.toList 0 with
  | [] => .raised (plainError .emptyAlphabet 0) (invalidateAll s)
  | leaf :: leaves =>
    match overflowSymbol s.freq.toList 0 0 with
    | some sym => .raised (plainError .weightOverflow sym) (invalidateAll s)
    | none =>
      .done { invalidateAll s with
        nodes := buildNodes (leaf :: leaves)
        root := some (BitVec.ofNat 9 ((buildNodes (leaf :: leaves)).length - 1))
        tv := true }

/-- BUILD (41_frequency_tree.md R80). -/
def execBuild (s : State) : Host.Outcome State Fault Refusal :=
  runCommand Need.nothing false buildBody s

end Sys2Proof.Machine
end

