-- ==== Sys2Proof/Machine/Orchestration.lean ====
section
/-! DEFINITION. The composite commands COMPRESS and UNCOMPRESS (45_orchestration.md). -/

namespace Sys2Proof.Machine

open Sys2Proof

/-- The tree step of COMPRESS: the empty tree for an empty input (45_orchestration.md R115), else the body of BUILD. -/
def compressTree (s : State) : Body :=
  if s.inLen = 0 then .done { invalidateAll s with tv := true } else buildBody s

/-- The body of COMPRESS (45_orchestration.md R114): "build table → build tree → derive codes → pack bits → serialize". -/
def compressBody (s : State) : Body :=
  ((((countBody s).andThen compressTree).andThen gencodesBody).andThen encodeBody).andThen serializeBody

/-- COMPRESS reads IN and requires no flag (45_orchestration.md R114). -/
def execCompress (s : State) : Host.Outcome State Fault Refusal :=
  runCommand Need.nothing true (fun s => (compressBody s).losingOut) s

/-- The body of UNCOMPRESS (45_orchestration.md R116): DESERIALIZE, then DECODE. -/
def uncompressBody (s : State) : Body := (deserializeBody s).andThen decodeBody

/-- UNCOMPRESS reads IN and requires no flag (45_orchestration.md R116). -/
def execUncompress (s : State) : Host.Outcome State Fault Refusal :=
  runCommand Need.nothing true (fun s => (uncompressBody s).losingOut) s

end Sys2Proof.Machine
end

