-- ==== Sys2Proof/Machine/Dispatch.lean ====
section
/-! DEFINITION. One arm per command: the ENGINE's execution and completion of a legal command (60_exceptions.md R127). -/

namespace Sys2Proof.Machine

open Sys2Proof

/-- The pre-checks after legality, the body and the completion of a command (60_exceptions.md R127, R129). -/
def exec (i : Instr) (s : State) : Host.Outcome State Fault Refusal :=
  match i with
  | .nop => Sys2Proof.Machine.execNop s
  | .count => Sys2Proof.Machine.execCount s
  | .build => Sys2Proof.Machine.execBuild s
  | .gencodes => Sys2Proof.Machine.execGencodes s
  | .encode => Sys2Proof.Machine.execEncode s
  | .serialize => Sys2Proof.Machine.execSerialize s
  | .deserialize => Sys2Proof.Machine.execDeserialize s
  | .decode => Sys2Proof.Machine.execDecode s
  | .compress => Sys2Proof.Machine.execCompress s
  | .uncompress => Sys2Proof.Machine.execUncompress s
  | .clear => Sys2Proof.Machine.execClear s

end Sys2Proof.Machine
end

