-- ==== Sys2Proof/Machine/HostPort.lean ====
section
/-! DEFINITION. The HOST's transactions (20_memory.md R57, R59; 10_state.md R24; 70_reset_and_hazards.md R148 to R154). -/

namespace Sys2Proof.Machine

open Sys2Proof

/-- The HOST sees a value. -/
def observe (o : Observation) (s : State) : State := { s with hostLog := o :: s.hostLog }

/-- The HOST sees an unspecified value: a draw is used up (70_reset_and_hazards.md R151). -/
def observeDraw (o : Observation) (s : State) : State := { s with hostLog := o :: s.hostLog, draws := s.draws + 1 }

/-- A legal register read (20_memory.md R57): not BUSY, the register's view (10_state.md R23); BUSY, as
70_reset_and_hazards.md R151 says, an unspecified value being a draw. -/
def regRead (off : Nat) (s : State) : State :=
  if s.busy then
    match regAt off with
    | .status => observeDraw (.reg off (statusBusy s (Config.freeFlags s.draws))) s
    | r =>
      if r.readableBusy then observe (.reg off (regValue s r)) s
      else observeDraw (.reg off (Config.freeWord s.draws)) s
  else observe (.reg off (regValue s (regAt off))) s

/-- A legal register write (20_memory.md R57): CMD issues a command or, while BUSY, is dropped with OVERRUN set; any other
write is ignored while BUSY (70_reset_and_hazards.md R151). -/
def regWrite (off : Nat) (v : Word) (s : State) : State :=
  match regAt off with
  | .cmd => cmdWrite v s
  | r => if s.busy then s else regStore r v s

/-- The `Reset` transaction (70_reset_and_hazards.md R148, R149): every piece of the core's state takes its reset value,
also while BUSY; the configuration is no state, and the HOST's program, its log and the schedule are not the core's. -/
def resetCore (s : State) : State :=
  { State.resetWith s.cfg with
    hostProgram := s.hostProgram, hostLog := s.hostLog, schedule := s.schedule, draws := s.draws }

/-- When a register offset is legal (20_memory.md R53, R57), the access; else the fault. -/
def regAccess (off : Nat) (access : State) : Host.Outcome State Fault Refusal :=
  if 0x100 ≤ off then .fault (.regOutOfSpace off)
  else if off % 8 ≠ 0 then .fault (.regMisaligned off)
  else .next access

/-- `InWrite(a, b)` (20_memory.md R57): it sets the byte and its written-since-reset mark; BUSY, a model fault
(70_reset_and_hazards.md R152, R153). -/
def inWrite (a : Nat) (b : Byte) (s : State) : Host.Outcome State Fault Refusal :=
  if s.cfg.inCap ≤ a then .fault (.inOutOfSpace a)
  else if s.busy then .fault (.inWriteWhileBusy a)
  else .next { s with inMem := writeByte s.inMem a b }

/-- `InRead(a)` (20_memory.md R57): the byte, BUSY or not; a draw where it was not written since reset
(70_reset_and_hazards.md R151, R153). -/
def inRead (a : Nat) (s : State) : Host.Outcome State Fault Refusal :=
  if s.cfg.inCap ≤ a then .fault (.inOutOfSpace a)
  else
    match readByte s.inMem a with
    | some b => .next (observe (.inByte a b) s)
    | none => .next (observeDraw (.inByte a (Config.freeByte s.draws)) s)

/-- `OutRead(a)` (20_memory.md R57): the byte; a draw while BUSY (70_reset_and_hazards.md R151) or where the byte is
unspecified (10_state.md R50, 60_exceptions.md R136). -/
def outRead (a : Nat) (s : State) : Host.Outcome State Fault Refusal :=
  if s.cfg.outCap ≤ a then .fault (.outOutOfSpace a)
  else if s.busy then .next (observeDraw (.outByte a (Config.freeByte s.draws)) s)
  else
    match readByte s.outMem a with
    | some b => .next (observe (.outByte a b) s)
    | none => .next (observeDraw (.outByte a (Config.freeByte s.draws)) s)

/-- One HOST transaction (20_memory.md R57). -/
def hostTxn (t : HostTxn) (s : State) : Host.Outcome State Fault Refusal :=
  match t with
  | .regRead off => regAccess off (regRead off s)
  | .regWrite off v => regAccess off (regWrite off v s)
  | .inWrite a b => inWrite a b s
  | .inRead a => inRead a s
  | .outRead a => outRead a s
  | .reset => .next (resetCore s)
  | .partRegAccess off => .fault (.regWidth off)
  | .wideMemAccess a => .fault (.memWidth a)
  | .outWrite a _ => .fault (.outWritten a)

/-- One step of the HOST on an operation already taken from its program. `WAIT` reads STATUS and stays in the program until
the value has BUSY = 0 (30_encoding.md R77). -/
def hostStep (op : HostOp) (s : State) : Host.Outcome State Fault Refusal :=
  match op with
  | .txn t => hostTxn t s
  | .wait =>
    if s.busy then .next { regRead 0x10 s with hostProgram := .wait :: s.hostProgram }
    else .next (regRead 0x10 s)

end Sys2Proof.Machine
end

