-- ==== Sys2Proof/Machine/Engine.lean ====
section
/-! DEFINITION. The ENGINE step, the choice between the two agents, and the placing of a command word. -/

namespace Sys2Proof.Machine

open Sys2Proof

/-- The ENGINE step on the pending word (60_exceptions.md R127): legality first (R129 item 1), then the command. -/
def engineStep (w : Word) (s : State) : Host.Outcome State Fault Refusal :=
  match decode w with
  | .error _ => execIllegal w s
  | .ok i => exec i s

/-- Which agent takes the next step, if any (00_scope.md R11). The ENGINE is enabled exactly when PENDING is non-empty
(60_exceptions.md R127), the HOST while its program has an operation left. With both enabled the schedule's head says who
moves, and the ENGINE when the schedule is used up, so an enabled ENGINE step is eventually taken
(70_reset_and_hazards.md R159; log entry 1). -/
def nextAgent (s : State) : Option Agent :=
  match s.pending, s.hostProgram, s.schedule with
  | none, [], _ => none
  | none, _ :: _, _ => some .host
  | some _, [], _ => some .engine
  | some _, _ :: _, [] => some .engine
  | some _, _ :: _, a :: _ => some a

/-- The state with the turn taken: a schedule entry is used up exactly when both agents were enabled. -/
def takeTurn (s : State) : State :=
  match s.pending, s.hostProgram with
  | some _, _ :: _ => { s with schedule := s.schedule.tail }
  | _, _ => s

/-- One step of the core and its HOST. With neither agent enabled the core waits (60_exceptions.md R125, R146). -/
def stepAgents (s : State) : Host.Outcome State Fault Refusal :=
  match nextAgent s with
  | none => .next s
  | some .engine =>
    match s.pending with
    | some w => engineStep w (takeTurn s)
    | none => .next s
  | some .host =>
    match s.hostProgram with
    | op :: rest => hostStep op { takeTurn s with hostProgram := rest }
    | [] => .next s

/-- The state with command word `w` accepted as by a CMD write (60_exceptions.md R126), whatever was pending before, and
the ENGINE due to move next. -/
def placeWord (w : Word) (s : State) : State :=
  match s.hostProgram with
  | [] => acceptWord w s
  | _ :: _ => { acceptWord w s with schedule := .engine :: s.schedule }

end Sys2Proof.Machine
end

