-- ==== Sys2Proof/Machine/Step.lean ====
section
/-! DEFINITION. The step of the machine, and the placing of an opcode-table word. -/

namespace Sys2Proof.Machine

open Sys2Proof

/-- One step: the ENGINE's or the HOST's (00_scope.md R11). -/
def step (s : State) : Host.Outcome State Fault Refusal := stepAgents s

/-- `s` with the command word that the opcode table's `nbits` bits `w` stand for in PENDING, accepted as by a CMD write, so
that the next step runs it (log entry 10). -/
def State.withFetchWord (s : State) (nbits w : Nat) : State := placeWord (tableWord nbits w) s

end Sys2Proof.Machine
end

