-- ==== Sys2Proof/Machine/HostSyntax.lean ====
section
/-! DEFINITION. The written form of HOST programs and what its lines expand to (30_encoding.md R76, R77). -/

namespace Sys2Proof.Machine

open Sys2Proof

/-- The offset of a register (10_state.md R23). `reserved` stands for the first reserved offset. -/
def Reg.offset : Reg → Nat
  | .id => 0x00
  | .cmd => 0x08
  | .status => 0x10
  | .errInfo => 0x18
  | .inLen => 0x20
  | .outLen => 0x28
  | .bitLen => 0x30
  | .root => 0x38
  | .nodeCount => 0x40
  | .winIndex => 0x48
  | .freqWin => 0x50
  | .codeLenWin => 0x58
  | .codeBitsWin => 0x60
  | .nodeWin => 0x68
  | .nodeWeightWin => 0x70
  | .inCap => 0x78
  | .outCap => 0x80
  | .bitbufCap => 0x88
  | .reserved => 0x90

/-- A line of a HOST program: the forms of 30_encoding.md R76 and the pseudo-instructions of R77. -/
inductive HostLine where
  | wreg (r : Reg) (v : Word)
  | rreg (r : Reg)
  | win (a : Nat) (bytes : List Byte)
  | rin (a : Nat)
  | rout (a n : Nat)
  | reset
  | cmd (i : Instr)
  | wait
  | setfreq (sym : Byte) (v : Word)
  | loadin (bytes : List Byte)
  | expect (r : Reg) (v : Word)
  deriving DecidableEq, Repr

/-- `InWrite(a, b0)`, `InWrite(a+1, b1)`, ... (30_encoding.md R76 WIN). -/
def winOps : Nat → List Byte → List HostOp
  | _, [] => []
  | a, b :: bs => .txn (.inWrite a b) :: winOps (a + 1) bs

/-- `OutRead(a)` ... `OutRead(a+n−1)` (30_encoding.md R76 ROUT). -/
def routOps : Nat → Nat → List HostOp
  | _, 0 => []
  | a, n + 1 => .txn (.outRead a) :: routOps (a + 1) n

/-- The transactions a line expands to (30_encoding.md R76, R77). -/
def HostLine.expand : HostLine → List HostOp
  | .wreg r v => [.txn (.regWrite r.offset v)]
  | .rreg r => [.txn (.regRead r.offset)]
  | .win a bytes => winOps a bytes
  | .rin a => [.txn (.inRead a)]
  | .rout a n => routOps a n
  | .reset => [.txn .reset]
  | .cmd i => [.txn (.regWrite 0x08 (encode i))]
  | .wait => [.wait]
  | .setfreq sym v => [.txn (.regWrite 0x48 (sym.setWidth 64)), .txn (.regWrite 0x50 v)]
  | .loadin bytes => winOps 0 bytes ++ [.txn (.regWrite 0x20 (BitVec.ofNat 64 bytes.length))]
  | .expect r _ => [.txn (.regRead r.offset)]

/-- The assertion of an EXPECT line on what its read returned: "the program asserts the result equals v (a test-program
check, not a transaction of its own)" (30_encoding.md R77). Other lines assert nothing. -/
def HostLine.holdsOf (l : HostLine) (o : Observation) : Bool :=
  match l with
  | .expect r v => decide (o = .reg r.offset v)
  | _ => true

/-- The operations of a whole program, in program order (20_memory.md R61 item 1). -/
def expandProgram (lines : List HostLine) : List HostOp := lines.flatMap HostLine.expand

end Sys2Proof.Machine
end

