-- ==== Sys2Proof/Safety.lean ====
section
/-! DEFINITION. The terms claims are made in: trees as the source has them, the container as a function of tree and bits,
what the memories hold, the invariants of 10_state.md R49, and what a safe and an ended run are. -/

namespace Sys2Proof

open Sys2Proof.Machine

/-! ## The command table (30_encoding.md R68) -/

/-- The flags a command requires (30_encoding.md R68 "requires"). -/
def Instr.need : Instr → Need
  | .gencodes => { tv := true, cv := false, bv := false }
  | .encode => { tv := false, cv := true, bv := false }
  | .serialize | .decode => { tv := true, cv := false, bv := true }
  | .nop | .count | .build | .deserialize | .compress | .uncompress | .clear => { tv := false, cv := false, bv := false }

/-- The commands that read IN (30_encoding.md R68 "IN"). -/
def Instr.readsIn : Instr → Bool
  | .count | .encode | .deserialize | .compress | .uncompress => true
  | .nop | .build | .gencodes | .serialize | .decode | .clear => false

/-- The commands that write OUT (30_encoding.md R68 "writes"; 10_state.md R30). -/
def Instr.writesOut : Instr → Bool
  | .serialize | .decode | .compress | .uncompress => true
  | .nop | .count | .build | .gencodes | .encode | .deserialize | .clear => false

/-! ## Trees (source §3; 10_state.md R42, R43) -/

/-- A Huffman tree without node indices: equality of these is the tree equality of 10_state.md R43. -/
inductive HuffTree where
  | leaf (weight : Word) (symbol : Byte)
  | node (weight : Word) (left right : HuffTree)
  deriving DecidableEq, Repr

/-- The symbols at the leaves, left to right. -/
def HuffTree.symbols : HuffTree → List Byte
  | .leaf _ sym => [sym]
  | .node _ l r => l.symbols ++ r.symbols

/-- The root-to-leaf path of every leaf, after the path `p` to the tree (42_code_table.md R89). -/
def HuffTree.paths : HuffTree → Bits → List (Byte × Bits)
  | .leaf _ sym, p => [(sym, p)]
  | .node _ l r, p => l.paths (p ++ [false]) ++ r.paths (p ++ [true])

/-- The codes of a tree: its paths, but "0" for a tree that is one Leaf (42_code_table.md R89, R91). -/
def HuffTree.codes : HuffTree → List (Byte × Bits)
  | .leaf _ sym => [(sym, [false])]
  | .node w l r => (HuffTree.node w l r).paths []

/-- The code of a symbol; the empty sequence says "no code" (42_code_table.md R90). -/
def HuffTree.codeFor (t : HuffTree) (sym : Byte) : Bits := (t.codes.lookup sym).getD []

/-- The serialized tree block, "recursive, depth-first, pre-order" (30_encoding.md R72). -/
def HuffTree.block : HuffTree → List Byte
  | .leaf w sym => 0#8 :: be64Bytes w ++ [sym]
  | .node w l r => 1#8 :: be64Bytes w ++ l.block ++ r.block

/-- The tree block of a tree or of the empty tree (30_encoding.md R71: T = 0 with no tree bytes). -/
def blockOf : Option HuffTree → List Byte
  | none => []
  | some t => t.block

/-- The container of a tree and a bit sequence (30_encoding.md R71). -/
def containerOf (t : Option HuffTree) (bits : Bits) : List Byte :=
  be64Bytes (BitVec.ofNat 64 (blockOf t).length) ++ blockOf t ++ be64Bytes (BitVec.ofNat 64 bits.length)
    ++ packBytes (ceil8 bits.length) bits

/-- The encoding of an input with the codes of a tree (43_bitstream.md R97). -/
def HuffTree.encoded (t : HuffTree) (input : List Byte) : Bits := input.flatMap t.codeFor

/-! ## What the machine's stores hold -/

/-- The arena holds tree `t` at index `i`. -/
def holdsAt (nodes : List Node) : Nat → HuffTree → Prop
  | i, .leaf w sym => nodes[i]? = some (.leaf w sym)
  | i, .node w l r =>
    ∃ a b : NodeIndex, nodes[i]? = some (.internal w a b) ∧ holdsAt nodes a.toNat l ∧ holdsAt nodes b.toNat r

/-- The arena indices of a tree held at index `i`, in pre-order. -/
def indicesOf (nodes : List Node) : Nat → HuffTree → List Nat
  | i, .leaf _ _ => [i]
  | i, .node _ l r =>
    match nodes[i]? with
    | some (.internal _ a b) => i :: (indicesOf nodes a.toNat l ++ indicesOf nodes b.toNat r)
    | _ => [i]

/-- The arena is a full binary tree `t` rooted at `i` in which every record is reachable exactly once and the leaf
symbols are pairwise distinct (10_state.md R49 item 5). -/
def fullTree (nodes : List Node) (i : Nat) (t : HuffTree) : Prop :=
  holdsAt nodes i t ∧ (indicesOf nodes i t).Perm (List.range nodes.length) ∧ t.symbols.Nodup

/-- A tree store holds a tree, or the empty tree. -/
def storesTree (nodes : List Node) (root : Option NodeIndex) : Option HuffTree → Prop
  | none => root = none ∧ nodes = []
  | some t => ∃ r : NodeIndex, root = some r ∧ fullTree nodes r.toNat t

/-- A tree store as DESERIALIZE fills it: a tree with its records numbered 0, 1, 2, ... in pre-order, the root at index 0, or
the empty tree (44_container.md R106, R108). -/
def storesInPreorder (nodes : List Node) (root : Option NodeIndex) (t : Option HuffTree) : Prop :=
  storesTree nodes root t ∧
  ∀ tree, t = some tree → root = some 0 ∧ indicesOf nodes 0 tree = List.range nodes.length

/-- BITLEN and BITBUF hold a bit sequence, packed, its padding bits 0 (10_state.md R45; 00_scope.md R15). -/
def storesBits (s : State) (bits : Bits) : Prop :=
  s.bitLen.toNat = bits.length ∧ s.bitbuf = packBytes (ceil8 bits.length) bits

/-- IN[0..IN_LEN) is `bytes`, every one of them written since reset, and IN_LEN is at most IN_CAP. -/
def inputIs (s : State) (bytes : List Byte) : Prop :=
  s.inLen.toNat = bytes.length ∧ bytes.length ≤ s.cfg.inCap ∧
    ∀ a, a < bytes.length → readByte s.inMem a = bytes[a]?

/-- OUT[0..OUT_LEN) is `bytes`. -/
def outputIs (s : State) (bytes : List Byte) : Prop :=
  s.outLen.toNat = bytes.length ∧ ∀ a, a < bytes.length → readByte s.outMem a = bytes[a]?

/-- OUT memory `m'` is `m` with `bytes` written from address 0 on, every other address as before. -/
def wroteFromZero (m m' : Memory) (bytes : List Byte) : Prop :=
  (∀ a, a < bytes.length → readByte m' a = bytes[a]?) ∧ (∀ a, bytes.length ≤ a → readByte m' a = readByte m a)

/-- The leaves of a frequency table: one per symbol with a count above 0, in ascending symbol order
(41_frequency_tree.md R80, R83). -/
def presentLeaves (freq : Vector Word 256) : List Node :=
  (List.finRange 256).filterMap fun (i : Fin 256) =>
    if freq[i.val]'i.isLt = 0 then none else some (.leaf (freq[i.val]'i.isLt) (BitVec.ofNat 8 i.val))

/-- Σ_{t ≤ sym} FREQ[t], unbounded (60_exceptions.md R134). -/
def freqSumThrough (freq : Vector Word 256) (sym : Nat) : Nat :=
  ((freq.toList.take (sym + 1)).map BitVec.toNat).sum

/-- Σ_s FREQ[s], unbounded (41_frequency_tree.md R80). -/
def freqSum (freq : Vector Word 256) : Nat := (freq.toList.map BitVec.toNat).sum

/-- Index `j` is a child of some internal record below index `k`. -/
def childBelow (nodes : List Node) (k j : Nat) : Prop :=
  ∃ m w a b, m < k ∧ nodes[m]? = some (.internal w a b) ∧ (a.toNat = j ∨ b.toNat = j)

/-- Index `j` is in BUILD's pool when record `k` is about to be made: it exists and no earlier merge has removed it
(41_frequency_tree.md R80). -/
def inPool (nodes : List Node) (k j : Nat) : Prop := j < k ∧ ¬ childBelow nodes k j

/-- key(i) < key(j) in the total order of 41_frequency_tree.md R82: weight as an unsigned integer, then index. -/
def keyBefore (nodes : List Node) (i j : Nat) : Prop :=
  ∃ x y, nodes[i]? = some x ∧ nodes[j]? = some y ∧
    (x.weight.toNat < y.weight.toNat ∨ (x.weight.toNat = y.weight.toNat ∧ i < j))

/-! ## Invariants (10_state.md R49) -/

/-- Items 1, 2 and 5: the tree store holds a full tree or the empty tree, the empty one while TV = 0. -/
def treeInv (s : State) : Prop :=
  ∃ t, storesTree s.nodes s.root t ∧ (s.tv = false → t = none)

/-- Items 2 and 3: no code while CV = 0; while CV = 1 TV = 1 and CODE is what GENCODES computes from the tree. -/
def codeInv (s : State) : Prop :=
  (s.cv = false → s.code = Vector.replicate 256 []) ∧
  (s.cv = true → s.tv = true ∧ codeTable s.nodes s.root = .ok s.code)

/-- Items 2 and 4: BITBUF and BITLEN hold a packed sequence with padding 0 that fits BITBUF_CAP, the empty one while
BV = 0 or the tree is empty, and BV = 1 implies TV = 1. -/
def bitInv (s : State) : Prop :=
  (∃ bits, storesBits s bits ∧ ceil8 bits.length ≤ s.cfg.bitbufCap ∧
    (s.bv = false → bits = []) ∧ (s.root = none → bits = [])) ∧
  (s.bv = true → s.tv = true)

/-- Both memories are in canonical form. -/
def memoriesCanonical (s : State) : Bool := Memory.wf s.inMem && Memory.wf s.outMem

/-- Both memories list only addresses inside their spaces, and OUT[0..OUT_LEN) is specified (20_memory.md R51,
10_state.md R30). -/
def memoryInv (s : State) : Prop :=
  memoriesCanonical s = true ∧
  (∀ a, s.cfg.inCap ≤ a → readByte s.inMem a = none) ∧
  (∀ a, s.cfg.outCap ≤ a → readByte s.outMem a = none) ∧
  (∀ a, a < s.outLen.toNat → readByte s.outMem a ≠ none)

/-- The consistency of STATUS and ERR_INFO (10_state.md R27, R28): never DONE and ERR, neither while BUSY; ERRCODE,
DETAIL and ERR_INFO are 0 unless ERR; ERR says that there is an error code. -/
def statusInv (s : State) : Bool :=
  !(s.done && s.err) && (s.pending.isNone || (!s.done && !s.err)) &&
  (s.err || (decide (s.errCode = .none) && decide (s.detail = 0) && decide (s.errInfo = 0))) &&
  (!s.err || decide (s.errCode ≠ .none))

/-- Everything that holds from reset on. -/
structure inv (s : State) : Prop where
  config : s.cfg.valid = true
  status : statusInv s = true
  memory : memoryInv s
  tree : treeInv s
  codes : codeInv s
  bits : bitInv s

/-! ## Malformed containers (44_container.md R107 to R109) -/

/-- A record of a tree block: its weight and, for a leaf, its symbol (30_encoding.md R72). -/
structure TreeRecord where
  weight : Word
  symbol : Option Byte
  deriving DecidableEq, Repr

/-- The bytes of a record: tag 0 with weight and symbol for a leaf, tag 1 with weight for an internal node
(30_encoding.md R72). -/
def TreeRecord.bytes (r : TreeRecord) : List Byte :=
  match r.symbol with
  | some sym => 0#8 :: be64Bytes r.weight ++ [sym]
  | none => 1#8 :: be64Bytes r.weight

/-- The size of a record with this tag (44_container.md R108). -/
def sizeOfTag (tag : Byte) : Nat := if tag = 0 then 10 else 9

/-- How many child slots are pending after records that meet `n` pending slots: a leaf fills one, an internal node fills
one and opens two; none when a record comes with no slot pending (44_container.md R108). -/
def slotsAfter : Nat → List TreeRecord → Option Nat
  | n, [] => some n
  | 0, _ :: _ => none
  | n + 1, r :: rs => slotsAfter (if r.symbol.isSome then n else n + 2) rs

/-- The leaf symbols of records: the set `seen` of 44_container.md R108. -/
def seenSymbols (rs : List TreeRecord) : List Byte := rs.filterMap TreeRecord.symbol

/-- The parser reads these records without an error and has `k` slots pending after them: no symbol comes twice and there
are at most 511 (44_container.md R108). -/
def readsRecords (rs : List TreeRecord) (k : Nat) : Prop :=
  slotsAfter 1 rs = some k ∧ (seenSymbols rs).Nodup ∧ rs.length ≤ Config.maxNodes

/-- `pos` after these records (44_container.md R108). -/
def posAfter (rs : List TreeRecord) : Nat := 8 + (rs.flatMap TreeRecord.bytes).length

/-- A tree length field, the tree block it declares, and what follows (30_encoding.md R71). -/
def withTreeBlock (block rest : List Byte) : List Byte :=
  be64Bytes (BitVec.ofNat 64 block.length) ++ block ++ rest

/-- DESERIALIZE ends with this error, ERR_INFO = `info`, the tree empty and the three products cleared; UNCOMPRESS ends with
the same error and loses OUT as well (60_exceptions.md R136). Nothing else changes. -/
def containerRejected (s : State) (code : ErrCode) (detail : Byte) (info : Nat) : Prop :=
  exec .deserialize s = .next { s with
    nodes := [], root := none, tv := false, cv := false, code := Vector.replicate 256 [], bv := false, bitLen := 0,
    bitbuf := [], err := true, errCode := code, detail := detail, errInfo := BitVec.ofNat 64 info, pending := none } ∧
  exec .uncompress s = .next { s with
    nodes := [], root := none, tv := false, cv := false, code := Vector.replicate 256 [], bv := false, bitLen := 0,
    bitbuf := [], err := true, errCode := code, detail := detail, errInfo := BitVec.ofNat 64 info, outLen := 0,
    outMem := [], pending := none }

/-- UNCOMPRESS of a container of this tree and these bits ends with an error of its DECODE: the tree and the bits stand as
DESERIALIZE left them, TV = BV = 1, CV = 0 and the codes are cleared, and OUT is lost (45_orchestration.md R116,
60_exceptions.md R136). Nothing else changes. -/
def uncompressFails (s : State) (tree : HuffTree) (bits : Bits) (code : ErrCode) (detail : Byte) (info : Nat) : Prop :=
  ∃ (nodes : List Node) (root : Option NodeIndex),
    exec .uncompress s = .next { s with
      nodes := nodes, root := root, tv := true, bv := true, cv := false, code := Vector.replicate 256 [],
      bitLen := BitVec.ofNat 64 bits.length, bitbuf := packBytes (ceil8 bits.length) bits, err := true,
      errCode := code, detail := detail, errInfo := BitVec.ofNat 64 info, outLen := 0, outMem := [],
      pending := none } ∧
    storesInPreorder nodes root (some tree)

/-! ## Runs -/

/-- A step is safe when the model does not stop. -/
def safeOutcome : Host.Outcome State Fault Refusal → Bool
  | .next _ => true
  | .fault _ => false
  | .refused _ => false

/-- "A host program has ended when its last transaction has been performed and PENDING is empty" (60_exceptions.md
R147). -/
def ended (s : State) : Bool := s.hostProgram.isEmpty && s.pending.isNone

/-- A HOST operation that the interface forbids in a state (20_memory.md R57, R53; 70_reset_and_hazards.md R152). -/
def forbidden (op : HostOp) (s : State) : Bool :=
  match op with
  | .wait => false
  | .txn t =>
    match t with
    | .regRead off => decide (0x100 ≤ off) || decide (off % 8 ≠ 0)
    | .regWrite off _ => decide (0x100 ≤ off) || decide (off % 8 ≠ 0)
    | .inWrite a _ => decide (s.cfg.inCap ≤ a) || s.busy
    | .inRead a => decide (s.cfg.inCap ≤ a)
    | .outRead a => decide (s.cfg.outCap ≤ a)
    | .reset => false
    | .partRegAccess _ => true
    | .wideMemAccess _ => true
    | .outWrite _ _ => true

/-- Every byte the command reads has been written since reset, so that its ENGINE step meets no unwritten byte
(70_reset_and_hazards.md R150, R153). -/
def inputWritten (s : State) : Prop := ∀ a, a < s.inLen.toNat → readByte s.inMem a ≠ none

end Sys2Proof
end

