-- ==== Sys2Proof/Certificates/Slice0/Obligations.lean ====
section
/-! DEFINITION. The statements for the provers. Each docstring names the rule of the spec it formalises. -/

open Sys2Proof Sys2Proof.Machine

/-! ## Encodings -/

/-- 30_encoding.md R68: every command's word decodes to that command. -/
def Obligations.EncodedCommandDecodes : Prop :=
  ∀ i : Instr, decode (encode i) = .ok i

/-- 30_encoding.md R66, R69: a word decodes to a command exactly when it is that command's word, and it decodes at all
exactly when it is legal (60_exceptions.md R129 item 1): every other word is rejected. -/
def Obligations.OnlyCommandWordsDecode : Prop :=
  (∀ (w : Word) (i : Instr), decode w = .ok i ↔ w = encode i) ∧
  (∀ w : Word, (∃ i, decode w = .ok i) ↔ legalWord w = true)

/-- 30_encoding.md R68: words written out bit by bit decode to their commands, and neighbours are rejected by name. -/
def Obligations.SampleWordsDecode : Prop :=
  decode 0b0000000000000000000000000000000000000000000000000000000000000000#64 = .ok .nop ∧
  decode 0b0000000000000000000000000000000000000000000000000000000000000010#64 = .ok .build ∧
  decode 0b0000000000000000000000000000000000000000000000000000000000000101#64 = .ok .serialize ∧
  decode 0b0000000000000000000000000000000000000000000000000000000000001001#64 = .ok .uncompress ∧
  decode 0b0000000000000000000000000000000000000000000000000000000000001010#64 = .ok .clear ∧
  decode 0b0000000000000000000000000000000000000000000000000000000000001011#64 = .error .reservedOpcode ∧
  decode 0b1000000000000000000000000000000000000000000000000000000000001000#64 = .error .rsvdNonzero

/-! ## The step -/

/-- 60_exceptions.md R127: when it is the ENGINE's turn and the pending word decodes to a command, the step is exec of
that command; what the step adds is only the schedule entry that `takeTurn` uses up (the model's own field, log entry 1). -/
def Obligations.StepRunsPendingCommand : Prop :=
  ∀ (s : State) (w : Word) (i : Instr),
    nextAgent s = some .engine → s.pending = some w → decode w = .ok i → step s = exec i (takeTurn s)

/-- 20_memory.md R61 item 1, 30_encoding.md R77 (`WAIT`), 60_exceptions.md R146: on the HOST's turn the step is the next
operation of its program; `WAIT` reads STATUS and stays in the program while BUSY = 1; with neither agent enabled the
state stays as it is (the model's choice for idling, log entry 9). -/
def Obligations.StepRunsHostOperation : Prop :=
  (∀ (s : State) (op : HostOp) (rest : List HostOp), nextAgent s = some .host → s.hostProgram = op :: rest →
    step s = hostStep op { takeTurn s with hostProgram := rest }) ∧
  (∀ s : State, nextAgent s = none ↔ (s.pending = none ∧ s.hostProgram = [])) ∧
  (∀ s : State, nextAgent s = none → step s = .next s) ∧
  (∀ s : State, s.busy = false → hostStep .wait s = hostTxn (.regRead 0x10) s) ∧
  (∀ s : State, s.busy = true → ∃ t : State, hostTxn (.regRead 0x10) s = .next t ∧
    hostStep .wait s = .next { t with hostProgram := .wait :: s.hostProgram })

/-- The placing of an opcode-table word (log entry 10): the next step is exec of the decoded command on the state with that
word accepted. -/
def Obligations.PlacedWordRunsNext : Prop :=
  ∀ (s : State) (nbits w : Nat) (i : Instr),
    decodeTableWord nbits w = some i → step (s.withFetchWord nbits w) = exec i (acceptWord (tableWord nbits w) s)

/-- 30_encoding.md R69: an illegal word (a reserved opcode, or any bit of RSVD set) is accepted like any command, and its
ENGINE step completes it with ILLEGAL_COMMAND and ERR_INFO the whole word (DETAIL = 0 by 60_exceptions.md R133), and changes
nothing else. Whose turn it is, and `takeTurn`, which uses up a schedule entry, are the model's own schedule (log entry 1,
DESIGN CHOICE). -/
def Obligations.IllegalWordIsReported : Prop :=
  ∀ w : Word, (0x0A < (w.setWidth 8 : Byte).toNat ∨ w.extractLsb' 8 56 ≠ 0) →
    (∀ s : State, s.pending = none → hostTxn (.regWrite 0x08 w) s = .next (acceptWord w s)) ∧
    (∀ s : State, nextAgent s = some .engine → s.pending = some w →
      step s = .next { takeTurn s with
        err := true, errCode := .illegalCommand, detail := 0, errInfo := w, pending := none })

/-- 60_exceptions.md R126: a CMD write with PENDING empty is accepted, legal word or not; with PENDING non-empty it is
dropped and OVERRUN set; an illegal word is rejected at its ENGINE step, whose turn the model's own schedule gives (log
entry 1, DESIGN CHOICE). -/
def Obligations.CommandWordAcceptance : Prop :=
  ∀ (s : State) (w : Word),
    (s.pending = none → hostTxn (.regWrite 0x08 w) s = .next { s with
      pending := some w, done := false, err := false, errCode := .none, detail := 0,
      lastOp := w.setWidth 8, errInfo := 0 }) ∧
    (∀ p, s.pending = some p → hostTxn (.regWrite 0x08 w) s = .next { s with overrun := true }) ∧
    (legalWord w = false → s.pending = some w → nextAgent s = some .engine →
      ∃ t : State, step s = .next t ∧ t.err = true ∧ t.errCode = .illegalCommand)

/-- 70_reset_and_hazards.md R159: an accepted command completes. From every state with a word pending, and every HOST
program and schedule, within (schedule length + 1) steps PENDING is empty, or the model has stopped with a fault. -/
def Obligations.PendingCommandEnds : Prop :=
  ∀ s : State, s.pending ≠ none →
    ∃ k, k ≤ s.schedule.length + 1 ∧
      match core.run k s with
      | .next (t : State) => t.pending = none
      | .fault _ => True
      | .refused _ => False

/-- 10_state.md R48: OVERRUN is cleared only by the ENGINE step of CLEAR or by a Reset transaction. -/
def Obligations.OverrunClearedOnlyByClearOrReset : Prop :=
  ∀ s t : State, step s = .next t → s.overrun = true → t.overrun = false →
    (nextAgent s = some .engine ∧ s.pending = some (encode .clear)) ∨
    (nextAgent s = some .host ∧ ∃ rest, s.hostProgram = .txn .reset :: rest)

/-- 00_scope.md R11, 70_reset_and_hazards.md R148: no step changes the configuration. -/
def Obligations.ConfigurationNeverChanges : Prop :=
  ∀ s t : State, step s = .next t → t.cfg = s.cfg

/-! ## What every command leaves alone -/

/-- 20_memory.md R51 "The ENGINE never writes IN", 10_state.md R29 "No command writes IN_LEN": no command changes IN, its
marks, IN_LEN, WIN_INDEX, LAST_OP or the HOST's side, and every command that completes leaves PENDING empty. -/
def Obligations.CommandsLeaveInputAlone : Prop :=
  ∀ (i : Instr) (s t : State), exec i s = .next t →
    t.inMem = s.inMem ∧ t.inLen = s.inLen ∧ t.winIdx = s.winIdx ∧ t.winSel = s.winSel ∧ t.lastOp = s.lastOp ∧
    t.hostProgram = s.hostProgram ∧ t.hostLog = s.hostLog ∧ t.schedule = s.schedule ∧ t.draws = s.draws ∧
    t.pending = none

/-- 10_state.md R30: only SERIALIZE, DECODE, COMPRESS and UNCOMPRESS change OUT; OUT_LEN is changed by these and CLEAR
alone. -/
def Obligations.OnlyOutCommandsChangeOut : Prop :=
  ∀ (i : Instr) (s t : State), exec i s = .next t → i.writesOut = false →
    t.outMem = s.outMem ∧ (i ≠ .clear → t.outLen = s.outLen)

/-- 60_exceptions.md R129, with the flags of each command of 30_encoding.md R68: a command whose pre-check fails records
the error and changes nothing else. NOT_READY with the mask of the missing flags comes before IN_LENGTH with ERR_INFO =
IN_LEN (R133, R134). -/
def Obligations.PrecheckFailureChangesNothingElse : Prop :=
  ∀ (i : Instr) (s : State),
    (missingMask i.need s ≠ 0 → exec i s = .next { s with
      err := true, errCode := .notReady, detail := missingMask i.need s, errInfo := 0, pending := none }) ∧
    (missingMask i.need s = 0 → i.readsIn = true → s.cfg.inCap < s.inLen.toNat → exec i s = .next { s with
      err := true, errCode := .inLength, detail := 0, errInfo := s.inLen, pending := none })

/-- 60_exceptions.md R133: DETAIL of NOT_READY has bit 0 for TV, bit 1 for CV, bit 2 for BV, each set exactly when that
flag is required and 0; the other bits are 0. -/
def Obligations.NotReadyMaskBits : Prop :=
  ∀ (n : Need) (s : State) (k : Nat),
    (missingMask n s).getLsbD k =
      (if k = 0 then n.tv && !s.tv else if k = 1 then n.cv && !s.cv else if k = 2 then n.bv && !s.bv else false)

/-- 60_exceptions.md R136: when the body of an OUT-writing command raises an error (its pre-checks passed), OUT_LEN is 0
and every OUT byte is unspecified. -/
def Obligations.FailedOutCommandLosesOut : Prop :=
  ∀ (i : Instr) (s t : State), i.writesOut = true → precheck i.need i.readsIn s = none → s.err = false →
    exec i s = .next t → t.err = true → t.outLen = 0 ∧ ∀ a, readByte t.outMem a = none

/-! ## NOP and CLEAR -/

/-- 46_control.md R121: NOP completes, and nothing but its completion changes. -/
def Obligations.NopOnlyCompletes : Prop :=
  ∀ s : State, exec .nop s = .next { s with done := true, pending := none }

/-- 46_control.md R122: CLEAR's effect, and all it keeps. -/
def Obligations.ClearReturnsComputedState : Prop :=
  ∀ s : State, exec .clear s = .next { s with
    freq := Vector.replicate 256 0, tv := false, cv := false, bv := false, nodes := [], root := none,
    code := Vector.replicate 256 [], bitLen := 0, bitbuf := [], outLen := 0, overrun := false,
    done := true, pending := none }

/-! ## COUNT -/

/-- 41_frequency_tree.md R78, R79: on an input IN[0..IN_LEN) that has been written and fits IN_CAP, COUNT completes; FREQ
then holds each byte's number of occurrences (0 for an absent one), whatever it held before, and nothing else changes. -/
def Obligations.CountCountsOccurrences : Prop :=
  ∀ (s : State) (bytes : List Byte), inputIs s bytes →
    ∃ f : Vector Word 256, exec .count s = .next { s with freq := f, done := true, pending := none } ∧
      (∀ sym : Byte, (freqOf f sym).toNat = bytes.count sym) ∧ freqSum f = s.inLen.toNat

/-- 70_reset_and_hazards.md R153: the ENGINE stops with a fault at the first byte it reads that has not been written since
reset. COUNT and COMPRESS read all of IN[0..IN_LEN) in order; ENCODE reads in order too, here past bytes that have codes;
DESERIALIZE and UNCOMPRESS read every byte of a container, here with one byte of it unwritten. -/
def Obligations.UnwrittenInputIsFault : Prop :=
  (∀ (s : State) (a : Nat), s.inLen.toNat ≤ s.cfg.inCap → a < s.inLen.toNat → readByte s.inMem a = none →
    (∀ b, b < a → readByte s.inMem b ≠ none) →
    exec .count s = .fault (.inUnwritten a) ∧ exec .compress s = .fault (.inUnwritten a) ∧
    (s.cv = true → (∀ b sym, b < a → readByte s.inMem b = some sym → codeOf s.code sym ≠ []) →
      exec .encode s = .fault (.inUnwritten a))) ∧
  (∀ (s : State) (t : Option HuffTree) (bits : Bits) (a : Nat), s.inLen.toNat = (containerOf t bits).length →
    (containerOf t bits).length ≤ s.cfg.inCap → ceil8 bits.length ≤ s.cfg.bitbufCap →
    (∀ tree, t = some tree → tree.symbols.Nodup) → (t = none → bits = []) → bits.length < 2 ^ 64 →
    a < (containerOf t bits).length → readByte s.inMem a = none →
    (∀ b, b < (containerOf t bits).length → b ≠ a → readByte s.inMem b = (containerOf t bits)[b]?) →
    exec .deserialize s = .fault (.inUnwritten a) ∧ exec .uncompress s = .fault (.inUnwritten a))

/-! ## BUILD -/

/-- 41_frequency_tree.md R80, R83, R85: with a count above 0 and a total that fits 64 bits, BUILD completes. NODE[0..L) are
the leaves in ascending symbol order, there are 2L − 1 records, the root is record 2L − 2, the arena is a full tree, CODE
and the bits are cleared, and nothing else changes. -/
def Obligations.BuildMakesFullTree : Prop :=
  ∀ s : State, presentLeaves s.freq ≠ [] → freqSum s.freq < 2 ^ 64 →
    ∃ (nodes : List Node) (root : NodeIndex),
      exec .build s = .next { s with
        nodes := nodes, root := some root, tv := true, cv := false, code := Vector.replicate 256 [],
        bv := false, bitLen := 0, bitbuf := [], done := true, pending := none } ∧
      nodes.take (presentLeaves s.freq).length = presentLeaves s.freq ∧
      nodes.length = 2 * (presentLeaves s.freq).length - 1 ∧
      root.toNat = 2 * (presentLeaves s.freq).length - 2 ∧
      ∃ t, fullTree nodes root.toNat t

/-- 41_frequency_tree.md R82, R84 (with the spec's own choice for clause (d) of R81): every internal record of the tree
BUILD makes has as its left child the least key, and as its right child the next, of the pool of its moment. -/
def Obligations.BuildMergesTwoLeastKeys : Prop :=
  ∀ s : State, presentLeaves s.freq ≠ [] → freqSum s.freq < 2 ^ 64 →
    ∃ t : State, exec .build s = .next t ∧ t.done = true ∧
      ∀ (k : Nat) (w : Word) (a b : NodeIndex), t.nodes[k]? = some (.internal w a b) →
        inPool t.nodes k a.toNat ∧ inPool t.nodes k b.toNat ∧ keyBefore t.nodes a.toNat b.toNat ∧
        ∀ j, inPool t.nodes k j → j ≠ a.toNat → j ≠ b.toNat → keyBefore t.nodes b.toNat j

/-- 41_frequency_tree.md R86: after BUILD every internal record's weight is the sum of its children's, as integers, and
the root's weight is the sum of all FREQ entries. -/
def Obligations.BuildKeepsWeightInvariant : Prop :=
  ∀ s : State, presentLeaves s.freq ≠ [] → freqSum s.freq < 2 ^ 64 →
    ∃ t : State, exec .build s = .next t ∧ t.done = true ∧
      (∀ (k : Nat) (w : Word) (a b : NodeIndex), t.nodes[k]? = some (.internal w a b) →
        ∃ x y, t.nodes[a.toNat]? = some x ∧ t.nodes[b.toNat]? = some y ∧
          w.toNat = x.weight.toNat + y.weight.toNat) ∧
      ∃ r x, t.root = some r ∧ t.nodes[r.toNat]? = some x ∧ x.weight.toNat = freqSum s.freq

/-- 41_frequency_tree.md R87, 60_exceptions.md R136: BUILD of an all-zero table ends with EMPTY_ALPHABET, the tree empty
and all three products cleared. -/
def Obligations.BuildOfEmptyTableFails : Prop :=
  ∀ s : State, (∀ sym : Byte, freqOf s.freq sym = 0) →
    exec .build s = .next { s with
      nodes := [], root := none, tv := false, cv := false, code := Vector.replicate 256 [], bv := false, bitLen := 0,
      bitbuf := [], err := true, errCode := .emptyAlphabet, detail := 0, errInfo := 0, pending := none }

/-- 41_frequency_tree.md R80, 60_exceptions.md R134: when the total exceeds 2^64 − 1, BUILD ends with WEIGHT_OVERFLOW and
ERR_INFO the symbol at which the running sum first exceeds it; FREQ is unchanged, the products are cleared. -/
def Obligations.BuildReportsWeightOverflow : Prop :=
  ∀ (s : State) (sym : Nat), sym < 256 → 2 ^ 64 ≤ freqSumThrough s.freq sym →
    (∀ j, j < sym → freqSumThrough s.freq j < 2 ^ 64) →
    exec .build s = .next { s with
      nodes := [], root := none, tv := false, cv := false, code := Vector.replicate 256 [], bv := false, bitLen := 0,
      bitbuf := [], err := true, errCode := .weightOverflow, detail := 0, errInfo := BitVec.ofNat 64 sym,
      pending := none }

/-! ## GENCODES -/

/-- 42_code_table.md R89, R90, R91: with TV = 1, GENCODES completes; each symbol of the tree has its code (its path, or "0"
under a Leaf root), every other symbol has none, and nothing else changes. -/
def Obligations.GencodesDerivesTreePaths : Prop :=
  ∀ (s : State) (t : Option HuffTree), s.tv = true → storesTree s.nodes s.root t →
    ∃ c : Vector Bits 256,
      exec .gencodes s = .next { s with code := c, cv := true, done := true, pending := none } ∧
      (t = none → ∀ sym : Byte, codeOf c sym = []) ∧
      (∀ tree, t = some tree → ∀ sym : Byte, codeOf c sym = tree.codeFor sym)

/-- 42_code_table.md R92, R93: after GENCODES on a stored tree, no code is a prefix of another symbol's code, every code is
at most 255 bits long, and exactly the tree's symbols have one. -/
def Obligations.GeneratedCodesArePrefixCode : Prop :=
  ∀ (s : State) (tree : HuffTree), s.tv = true → storesTree s.nodes s.root (some tree) →
    ∃ t : State, exec .gencodes s = .next t ∧ t.done = true ∧
      (∀ a b : Byte, a ≠ b → codeOf t.code a ≠ [] → ¬ codeOf t.code a <+: codeOf t.code b) ∧
      (∀ a : Byte, (codeOf t.code a).length ≤ 255) ∧
      (∀ a : Byte, codeOf t.code a ≠ [] ↔ a ∈ tree.symbols)

/-! ## ENCODE -/

/-- 43_bitstream.md R96, R97: with CV = 1, an input every byte of which has a code, and a packed stream that fits
BITBUF_CAP, ENCODE completes; the bits are the codes of the input bytes concatenated in input order, packed, and nothing
else changes. -/
def Obligations.EncodeConcatenatesCodes : Prop :=
  ∀ (s : State) (bytes : List Byte), s.cv = true → inputIs s bytes → (∀ sym ∈ bytes, codeOf s.code sym ≠ []) →
    ceil8 (bytes.flatMap (codeOf s.code)).length ≤ s.cfg.bitbufCap →
    exec .encode s = .next { s with
      bitbuf := packBytes (ceil8 (bytes.flatMap (codeOf s.code)).length) (bytes.flatMap (codeOf s.code)),
      bitLen := BitVec.ofNat 64 (bytes.flatMap (codeOf s.code)).length,
      bv := true, done := true, pending := none }

/-- 43_bitstream.md R96, 60_exceptions.md R134: at the first input byte without a code ENCODE ends with NO_CODE and
ERR_INFO its offset; bytes after it need not even be written. BV = 0, BITLEN = 0, the tree and the codes stand. -/
def Obligations.EncodeReportsFirstCodelessByte : Prop :=
  ∀ (s : State) (bytes : List Byte) (sym : Byte), s.cv = true → s.inLen.toNat ≤ s.cfg.inCap →
    bytes.length < s.inLen.toNat → (∀ a, a < bytes.length → readByte s.inMem a = bytes[a]?) →
    readByte s.inMem bytes.length = some sym → (∀ x ∈ bytes, codeOf s.code x ≠ []) → codeOf s.code sym = [] →
    exec .encode s = .next { s with
      bv := false, bitLen := 0, bitbuf := [], err := true, errCode := .noCode, detail := 0,
      errInfo := BitVec.ofNat 64 bytes.length, pending := none }

/-- 43_bitstream.md R96, 60_exceptions.md R134: a packed stream longer than BITBUF_CAP ends ENCODE with BITBUF_OVERFLOW
and ERR_INFO its length in bytes. -/
def Obligations.EncodeReportsBufferOverflow : Prop :=
  ∀ (s : State) (bytes : List Byte), s.cv = true → inputIs s bytes → (∀ sym ∈ bytes, codeOf s.code sym ≠ []) →
    s.cfg.bitbufCap < ceil8 (bytes.flatMap (codeOf s.code)).length →
    exec .encode s = .next { s with
      bv := false, bitLen := 0, bitbuf := [], err := true, errCode := .bitbufOverflow, detail := 0,
      errInfo := BitVec.ofNat 64 (ceil8 (bytes.flatMap (codeOf s.code)).length), pending := none }

/-- 00_scope.md R15: bit s_i goes to byte ⌊i/8⌋ at bit position 7 − (i mod 8), the padding bits are 0, and reading the
buffer back gives the sequence. -/
def Obligations.PackingIsMsbFirst : Prop :=
  ∀ bits : Bits,
    (packBytes (ceil8 bits.length) bits).length = ceil8 bits.length ∧
    (∀ (q : Nat) (b : Byte), (packBytes (ceil8 bits.length) bits)[q]? = some b →
      ∀ k, k < 8 → b.getLsbD (7 - k) = bits.getD (8 * q + k) false) ∧
    unpackBits bits.length (packBytes (ceil8 bits.length) bits) = bits

/-! ## DECODE -/

/-- 43_bitstream.md R98, R103: with TV = BV = 1, a tree stored, the bits being the encoding of `v` with the tree's codes,
and `v` fitting OUT_CAP, DECODE completes; OUT[0..|v|) is `v`, OUT_LEN is |v|, every other OUT byte and all else is
unchanged. With the empty tree and no bits it completes with OUT_LEN = 0 and OUT unchanged. -/
def Obligations.DecodeInvertsEncoding : Prop :=
  (∀ (s : State) (tree : HuffTree) (v : List Byte), s.tv = true → s.bv = true → storesTree s.nodes s.root (some tree) →
    (∀ sym ∈ v, sym ∈ tree.symbols) → storesBits s (tree.encoded v) → v.length ≤ s.cfg.outCap →
    ∃ m, exec .decode s = .next { s with
        outMem := m, outLen := BitVec.ofNat 64 v.length, done := true, pending := none } ∧
      wroteFromZero s.outMem m v) ∧
  (∀ s : State, s.tv = true → s.bv = true → storesTree s.nodes s.root none → storesBits s [] →
    exec .decode s = .next { s with outLen := 0, done := true, pending := none })

/-- 43_bitstream.md R98, R102, 60_exceptions.md R134: the errors of DECODE's walk; each loses OUT and changes nothing else
but the error's record. A stream that ends inside a code, after whole codes of `v`, is CORRUPT_CONTAINER with DETAIL 13 and
ERR_INFO = B. A code whose symbol does not fit OUT_CAP, after the codes of as many symbols as fit, is OUT_OVERFLOW with
ERR_INFO the index of the code's last bit, whatever follows. Bits with the empty tree (unreachable, 10_state.md R49 item 4)
are CORRUPT_CONTAINER with DETAIL 9 and ERR_INFO 0. -/
def Obligations.DecodeReportsPartialCode : Prop :=
  (∀ (s : State) (w : Word) (l r : HuffTree) (v : List Byte) (p : Bits) (sym : Byte), s.tv = true → s.bv = true →
    storesTree s.nodes s.root (some (.node w l r)) → (∀ x ∈ v, x ∈ (HuffTree.node w l r).symbols) →
    sym ∈ (HuffTree.node w l r).symbols → p ≠ [] → p <+: (HuffTree.node w l r).codeFor sym → p ≠ (HuffTree.node w l r).codeFor sym →
    storesBits s ((HuffTree.node w l r).encoded v ++ p) → v.length ≤ s.cfg.outCap →
    exec .decode s = .next { s with
      outLen := 0, outMem := [], err := true, errCode := .corruptContainer, detail := 13, errInfo := s.bitLen,
      pending := none }) ∧
  (∀ (s : State) (tree : HuffTree) (v : List Byte) (sym : Byte) (rest : Bits), s.tv = true → s.bv = true →
    storesTree s.nodes s.root (some tree) → (∀ x ∈ v, x ∈ tree.symbols) → sym ∈ tree.symbols → v.length = s.cfg.outCap →
    storesBits s (tree.encoded v ++ tree.codeFor sym ++ rest) →
    exec .decode s = .next { s with
      outLen := 0, outMem := [], err := true, errCode := .outOverflow, detail := 0,
      errInfo := BitVec.ofNat 64 ((tree.encoded v ++ tree.codeFor sym).length - 1), pending := none }) ∧
  (∀ s : State, s.tv = true → s.bv = true → storesTree s.nodes s.root none → s.bitLen ≠ 0 →
    exec .decode s = .next { s with
      outLen := 0, outMem := [], err := true, errCode := .corruptContainer, detail := 9, errInfo := 0,
      pending := none })

/-- 43_bitstream.md R101: under a Leaf root each 0 bit is one occurrence of the symbol, so B 0 bits decode to B copies of
it; the first 1 bit ends DECODE with CORRUPT_CONTAINER, DETAIL 14 and ERR_INFO its index. -/
def Obligations.DecodeUnderLeafRoot : Prop :=
  ∀ (s : State) (w : Word) (sym : Byte) (n : Nat), s.tv = true → s.bv = true →
    storesTree s.nodes s.root (some (.leaf w sym)) → n ≤ s.cfg.outCap →
    (storesBits s (List.replicate n false) →
      ∃ m, exec .decode s = .next { s with
          outMem := m, outLen := BitVec.ofNat 64 n, done := true, pending := none } ∧
        wroteFromZero s.outMem m (List.replicate n sym)) ∧
    (∀ rest, storesBits s (List.replicate n false ++ true :: rest) →
      exec .decode s = .next { s with
        outLen := 0, outMem := [], err := true, errCode := .corruptContainer, detail := 14,
        errInfo := BitVec.ofNat 64 n, pending := none })

/-! ## SERIALIZE and DESERIALIZE -/

/-- 44_container.md R104, 30_encoding.md R71, R72: with TV = BV = 1 and a container that fits OUT_CAP, SERIALIZE completes;
OUT[0..OUT_LEN) is the container of the stored tree and bits, every other OUT byte and all else is unchanged. -/
def Obligations.SerializeWritesContainer : Prop :=
  ∀ (s : State) (t : Option HuffTree) (bits : Bits), s.tv = true → s.bv = true → storesTree s.nodes s.root t →
    storesBits s bits → (containerOf t bits).length ≤ s.cfg.outCap →
    ∃ m, exec .serialize s = .next { s with
        outMem := m, outLen := BitVec.ofNat 64 (containerOf t bits).length, done := true, pending := none } ∧
      wroteFromZero s.outMem m (containerOf t bits)

/-- 44_container.md R104, 60_exceptions.md R134, R136: a container longer than OUT_CAP ends SERIALIZE with OUT_OVERFLOW and
ERR_INFO its length; OUT is lost, the products stand. -/
def Obligations.SerializeReportsOverflow : Prop :=
  ∀ (s : State) (t : Option HuffTree) (bits : Bits), s.tv = true → s.bv = true → storesTree s.nodes s.root t →
    storesBits s bits → s.cfg.outCap < (containerOf t bits).length →
    exec .serialize s = .next { s with
      outLen := 0, outMem := [], err := true, errCode := .outOverflow, detail := 0,
      errInfo := BitVec.ofNat 64 (containerOf t bits).length, pending := none }

/-- 30_encoding.md R73: the tree block of a stored tree with L leaves is 19·L − 9 bytes, at most 4855, and the store holds
2·L − 1 records; the empty tree has no tree byte. -/
def Obligations.TreeBlockSizeFromLeaves : Prop :=
  ∀ (nodes : List Node) (root : Option NodeIndex),
    (storesTree nodes root none → treeBlockSize nodes = 0) ∧
    (∀ tree, storesTree nodes root (some tree) →
      treeBlockSize nodes = 19 * tree.symbols.length - 9 ∧ tree.block.length = treeBlockSize nodes ∧
      nodes.length = 2 * tree.symbols.length - 1 ∧ treeBlockSize nodes ≤ 4855)

/-- 44_container.md R106 to R110: DESERIALIZE of the container of a tree with distinct symbols and a bit sequence (empty
for the empty tree) completes; the store holds an equal tree, its records numbered 0, 1, 2, ... in pre-order with the root at
index 0, BITBUF and BITLEN the bits, TV = BV = 1, the codes are cleared, and nothing else changes. -/
def Obligations.DeserializeRebuildsTreeAndBits : Prop :=
  ∀ (s : State) (t : Option HuffTree) (bits : Bits), s.cfg.valid = true → inputIs s (containerOf t bits) →
    (∀ tree, t = some tree → tree.symbols.Nodup) → (t = none → bits = []) → ceil8 bits.length ≤ s.cfg.bitbufCap →
    ∃ (nodes : List Node) (root : Option NodeIndex),
      exec .deserialize s = .next { s with
        nodes := nodes, root := root, tv := true, bv := true, cv := false, code := Vector.replicate 256 [],
        bitLen := BitVec.ofNat 64 bits.length, bitbuf := packBytes (ceil8 bits.length) bits,
        done := true, pending := none } ∧
      storesInPreorder nodes root t

/-- 44_container.md R111: what DESERIALIZE accepts, SERIALIZE writes back byte for byte. -/
def Obligations.AcceptedContainerIsReproduced : Prop :=
  ∀ (s s1 : State) (c : List Byte), s.cfg.valid = true → inputIs s c → c.length ≤ s.cfg.outCap → s.err = false →
    exec .deserialize s = .next s1 → s1.err = false →
    ∃ s2 : State, exec .serialize s1 = .next s2 ∧ s2.done = true ∧ s2.err = false ∧ outputIs s2 c

/-- 44_container.md R107 to R109, R112, 60_exceptions.md R132, R134, R136: every buffer that is no container is rejected by
DESERIALIZE and UNCOMPRESS with the detail and ERR_INFO of its first failing check. First R112: every proper prefix of a
container. Then each check: step 1 (SHORT_HEADER, SHORT_TREE); step 2 after records read without error, with slots pending
(TREE_OVERRUN, BAD_TAG, TREE_OVERRUN, NODE_LIMIT, DUP_SYMBOL) and with none (TREE_TRAILING); step 3 after a complete tree
block (SHORT_BITLEN, EMPTY_TREE_BITS, SHORT_BITS, TRAILING_BYTES, PAD_NONZERO, BITBUF_OVERFLOW). -/
def Obligations.TruncatedContainerIsRejected : Prop :=
  (∀ (s : State) (t : Option HuffTree) (bits : Bits) (m : Nat),
    (∀ tree, t = some tree → tree.symbols.Nodup) → (t = none → bits = []) → bits.length < 2 ^ 64 →
    m < (containerOf t bits).length → inputIs s ((containerOf t bits).take m) →
    containerRejected s .corruptContainer
      (if m < 8 then 1 else if m < 8 + (blockOf t).length then 2 else if m < 16 + (blockOf t).length then 8 else 10)
      (if m < 8 + (blockOf t).length then 0 else 8 + (blockOf t).length)) ∧
  (∀ (s : State) (bytes : List Byte), inputIs s bytes → bytes.length < 8 → containerRejected s .corruptContainer 1 0) ∧
  (∀ (s : State) (t : Word) (rest : List Byte), inputIs s (be64Bytes t ++ rest) → rest.length < t.toNat →
    containerRejected s .corruptContainer 2 0) ∧
  (∀ (s : State) (rs : List TreeRecord) (k : Nat) (tail rest : List Byte), readsRecords rs (k + 1) →
    inputIs s (withTreeBlock (rs.flatMap TreeRecord.bytes ++ tail) rest) →
    (tail = [] → rs ≠ [] → containerRejected s .corruptContainer 3 (posAfter rs)) ∧
    (∀ tag more, tail = tag :: more →
      (1 < tag.toNat → containerRejected s .corruptContainer 4 (posAfter rs)) ∧
      (tag.toNat ≤ 1 → tail.length < sizeOfTag tag → containerRejected s .corruptContainer 3 (posAfter rs)) ∧
      (tag.toNat ≤ 1 → sizeOfTag tag ≤ tail.length → rs.length = 511 →
        containerRejected s .corruptContainer 5 (posAfter rs))) ∧
    (∀ w sym more, tail = TreeRecord.bytes { weight := w, symbol := some sym } ++ more → rs.length < 511 →
      sym ∈ seenSymbols rs → containerRejected s .corruptContainer 6 (posAfter rs + 9))) ∧
  (∀ (s : State) (rs : List TreeRecord) (tail rest : List Byte), readsRecords rs 0 → tail ≠ [] →
    inputIs s (withTreeBlock (rs.flatMap TreeRecord.bytes ++ tail) rest) →
    containerRejected s .corruptContainer 7 (posAfter rs)) ∧
  (∀ (s : State) (t : Option HuffTree) (rest : List Byte), (∀ tree, t = some tree → tree.symbols.Nodup) →
    inputIs s (withTreeBlock (blockOf t) rest) →
    (rest.length < 8 → containerRejected s .corruptContainer 8 (8 + (blockOf t).length)) ∧
    ∀ (b : Word) (packed : List Byte), rest = be64Bytes b ++ packed →
      (t = none → b ≠ 0 → containerRejected s .corruptContainer 9 (8 + (blockOf t).length)) ∧
      ((t = none → b = 0) →
        (packed.length < ceil8 b.toNat → containerRejected s .corruptContainer 10 (8 + (blockOf t).length)) ∧
        (ceil8 b.toNat < packed.length →
          containerRejected s .corruptContainer 11 (16 + (blockOf t).length + ceil8 b.toNat)) ∧
        (∀ last, packed.length = ceil8 b.toNat → packed.getLast? = some last →
          last.toNat % 2 ^ (8 - b.toNat % 8) ≠ 0 → b.toNat % 8 ≠ 0 →
          containerRejected s .corruptContainer 12 (15 + (blockOf t).length + ceil8 b.toNat)) ∧
        (∀ bits, b.toNat = bits.length → packed = packBytes (ceil8 bits.length) bits →
          s.cfg.bitbufCap < ceil8 bits.length →
          containerRejected s .bitbufOverflow 0 (ceil8 bits.length))))

/-! ## COMPRESS and UNCOMPRESS -/

/-- 45_orchestration.md R115: COMPRESS of the empty input gives the empty tree, no codes, no bits and 16 zero bytes in OUT;
every other OUT byte and all else is unchanged. -/
def Obligations.CompressOfEmptyInput : Prop :=
  ∀ s : State, s.inLen = 0 → 16 ≤ s.cfg.outCap →
    ∃ m, exec .compress s = .next { s with
        freq := Vector.replicate 256 0, nodes := [], root := none, code := Vector.replicate 256 [],
        bitLen := 0, bitbuf := [], tv := true, cv := true, bv := true, outMem := m, outLen := 16, done := true,
        pending := none } ∧
      wroteFromZero s.outMem m (List.replicate 16 0)

/-- 45_orchestration.md R114, 60_exceptions.md R134, R136: COMPRESS of a non-empty input, in every valid configuration. FREQ
counts the input; the store is the one BUILD makes of that FREQ ("body of BUILD"), so that equal inputs give equal containers
on every core (R119), and holds a tree with exactly the input's symbols; CODE holds its codes, of at most 255 bits a byte
(42_code_table.md R92). Where the packed bits fit BITBUF_CAP and the container OUT_CAP, COMPRESS completes with BITBUF the
encoding, OUT the container, TV = CV = BV = 1. Where the packed bits do not fit, it ends with BITBUF_OVERFLOW, the tree and
the codes standing and the bits cleared; where only the container does not fit, with OUT_OVERFLOW, the three products
standing; OUT is lost in both. Nothing else changes. -/
def Obligations.CompressWritesContainer : Prop :=
  ∀ (s : State) (v : List Byte), s.cfg.valid = true → inputIs s v → v ≠ [] →
    ∃ (f : Vector Word 256) (nodes : List Node) (root : Option NodeIndex) (c : Vector Bits 256) (tree : HuffTree),
      exec .build { s with freq := f } = .next { s with
        freq := f, nodes := nodes, root := root, tv := true, cv := false, code := Vector.replicate 256 [], bv := false,
        bitLen := 0, bitbuf := [], done := true, pending := none } ∧
      storesTree nodes root (some tree) ∧ (∀ sym, sym ∈ tree.symbols ↔ sym ∈ v) ∧
      (∀ sym, (freqOf f sym).toNat = v.count sym) ∧ (∀ sym, codeOf c sym = tree.codeFor sym) ∧
      (tree.encoded v).length ≤ 255 * v.length ∧
      (ceil8 (tree.encoded v).length ≤ s.cfg.bitbufCap →
        (containerOf (some tree) (tree.encoded v)).length ≤ s.cfg.outCap →
        ∃ m : Memory,
          exec .compress s = .next { s with
            freq := f, nodes := nodes, root := root, code := c,
            bitLen := BitVec.ofNat 64 (tree.encoded v).length,
            bitbuf := packBytes (ceil8 (tree.encoded v).length) (tree.encoded v),
            tv := true, cv := true, bv := true, outMem := m,
            outLen := BitVec.ofNat 64 (containerOf (some tree) (tree.encoded v)).length, done := true, pending := none } ∧
          wroteFromZero s.outMem m (containerOf (some tree) (tree.encoded v))) ∧
      (s.cfg.bitbufCap < ceil8 (tree.encoded v).length →
        exec .compress s = .next { s with
          freq := f, nodes := nodes, root := root, code := c, bitLen := 0, bitbuf := [],
          tv := true, cv := true, bv := false, outMem := [], outLen := 0, err := true, errCode := .bitbufOverflow,
          detail := 0, errInfo := BitVec.ofNat 64 (ceil8 (tree.encoded v).length), pending := none }) ∧
      (ceil8 (tree.encoded v).length ≤ s.cfg.bitbufCap →
        s.cfg.outCap < (containerOf (some tree) (tree.encoded v)).length →
        exec .compress s = .next { s with
          freq := f, nodes := nodes, root := root, code := c,
          bitLen := BitVec.ofNat 64 (tree.encoded v).length,
          bitbuf := packBytes (ceil8 (tree.encoded v).length) (tree.encoded v),
          tv := true, cv := true, bv := true, outMem := [], outLen := 0, err := true, errCode := .outOverflow,
          detail := 0, errInfo := BitVec.ofNat 64 (containerOf (some tree) (tree.encoded v)).length,
          pending := none })

/-- 45_orchestration.md R114, 60_exceptions.md R135: in a conforming configuration COMPRESS never fails on an input that
fits IN_CAP, and the container is at most IN_LEN + 4871 bytes (00_scope.md R10: the packed stream is at most IN_LEN
bytes). -/
def Obligations.CompressNeverFailsWhenConforming : Prop :=
  ∀ (s : State) (v : List Byte), s.cfg.conforming = true → inputIs s v → s.err = false →
    ∃ t : State, exec .compress s = .next t ∧ t.done = true ∧ t.err = false ∧ t.outLen.toNat ≤ v.length + 4871

/-- 45_orchestration.md R118: two COMPRESS commands on equal inputs in one configuration leave equal OUT_LEN,
OUT[0..OUT_LEN), FREQ, tree, codes, bits and validity flags, whatever the states held before. -/
def Obligations.CompressIsFunctionOfInput : Prop :=
  ∀ (s1 s2 t1 t2 : State) (v : List Byte), s1.cfg = s2.cfg → inputIs s1 v → inputIs s2 v →
    exec .compress s1 = .next t1 → exec .compress s2 = .next t2 →
    t1.outLen = t2.outLen ∧ (∀ a, a < t1.outLen.toNat → readByte t1.outMem a = readByte t2.outMem a) ∧
    t1.freq = t2.freq ∧ t1.nodes = t2.nodes ∧ t1.root = t2.root ∧ t1.code = t2.code ∧ t1.bitLen = t2.bitLen ∧
    t1.bitbuf = t2.bitbuf ∧ t1.tv = t2.tv ∧ t1.cv = t2.cv ∧ t1.bv = t2.bv

/-- 45_orchestration.md R116, R119: UNCOMPRESS of the container of any tree with distinct symbols and the encoding of `v`
with its codes completes and leaves `v` in OUT, whatever its weights; of the 16-byte container of the empty tree it leaves
OUT_LEN = 0. TV = BV = 1 and CV = 0. Where the container is well formed but its DECODE fails (43_bitstream.md R98, R101, R102,
60_exceptions.md R134, R136), the error is DECODE's, OUT is lost, and the tree and the bits stand with TV = BV = 1 and
CV = 0: PARTIAL_CODE where the bits end inside a code, LEAF_ROOT_ONE at the first 1 bit under a Leaf root, OUT_OVERFLOW at
the code of a symbol beyond OUT_CAP. -/
def Obligations.UncompressRecoversInput : Prop :=
  ∀ (s : State), s.cfg.valid = true →
    (∀ (tree : HuffTree) (v : List Byte), tree.symbols.Nodup → (∀ sym ∈ v, sym ∈ tree.symbols) →
      inputIs s (containerOf (some tree) (tree.encoded v)) →
      ceil8 (tree.encoded v).length ≤ s.cfg.bitbufCap → v.length ≤ s.cfg.outCap →
      ∃ (nodes : List Node) (root : Option NodeIndex) (m : Memory),
        exec .uncompress s = .next { s with
          nodes := nodes, root := root, tv := true, bv := true, cv := false, code := Vector.replicate 256 [],
          bitLen := BitVec.ofNat 64 (tree.encoded v).length,
          bitbuf := packBytes (ceil8 (tree.encoded v).length) (tree.encoded v),
          outMem := m, outLen := BitVec.ofNat 64 v.length, done := true, pending := none } ∧
        storesInPreorder nodes root (some tree) ∧ wroteFromZero s.outMem m v) ∧
    (inputIs s (containerOf none []) →
      exec .uncompress s = .next { s with
        nodes := [], root := none, tv := true, bv := true, cv := false, code := Vector.replicate 256 [], bitLen := 0,
        bitbuf := [], outLen := 0, done := true, pending := none }) ∧
    (∀ (tree : HuffTree) (bits : Bits), tree.symbols.Nodup → inputIs s (containerOf (some tree) bits) →
      ceil8 bits.length ≤ s.cfg.bitbufCap →
      (∀ (w : Word) (l r : HuffTree) (v : List Byte) (p : Bits) (sym : Byte), tree = .node w l r →
        (∀ x ∈ v, x ∈ tree.symbols) → sym ∈ tree.symbols → p ≠ [] → p <+: tree.codeFor sym → p ≠ tree.codeFor sym →
        bits = tree.encoded v ++ p → v.length ≤ s.cfg.outCap →
        uncompressFails s tree bits .corruptContainer 13 bits.length) ∧
      (∀ (w : Word) (sym : Byte) (n : Nat) (rest : Bits), tree = .leaf w sym → n ≤ s.cfg.outCap →
        bits = List.replicate n false ++ true :: rest →
        uncompressFails s tree bits .corruptContainer 14 n) ∧
      (∀ (v : List Byte) (sym : Byte) (rest : Bits), (∀ x ∈ v, x ∈ tree.symbols) → sym ∈ tree.symbols →
        v.length = s.cfg.outCap → bits = tree.encoded v ++ tree.codeFor sym ++ rest →
        uncompressFails s tree bits .outOverflow 0 ((tree.encoded v ++ tree.codeFor sym).length - 1)))

/-- 45_orchestration.md R117: uncompress(compress(v)) = v, for the empty input, a one-symbol input and every other, where
the capacities hold what the two commands must. -/
def Obligations.UncompressAfterCompressIsIdentity : Prop :=
  ∀ (s t : State) (v c : List Byte), s.cfg.valid = true → inputIs s v → s.err = false →
    exec .compress s = .next t → t.err = false → outputIs t c →
    ∀ u : State, u.cfg = s.cfg → inputIs u c → v.length ≤ u.cfg.outCap →
      ∃ u' : State, exec .uncompress u = .next u' ∧ u'.done = true ∧ outputIs u' v

/-! ## Invariants -/

/-- 10_state.md R50, R49: the invariant holds after reset, in every valid configuration and in the reset state. -/
def Obligations.ResetMeetsInvariant : Prop :=
  (∀ c : Config, c.valid = true → inv (State.resetWith c)) ∧ inv State.reset

/-- 10_state.md R49 items 1 to 5, with the consistency of STATUS and of both memories: every step keeps the invariant, from
every state that meets it. -/
def Obligations.EveryStepKeepsInvariant : Prop :=
  ∀ s t : State, inv s → step s = .next t → inv t

/-- Every step keeps both memories in canonical form, addresses strictly rising, from every state in which they are. The
form is the model's own: a memory is the list of the bytes that hold a value (log entries 4, 5 and 19), where 20_memory.md
R51 and 70_reset_and_hazards.md R153 give only the bytes and their marks. -/
def Obligations.StepKeepsMemoriesCanonical : Prop :=
  ∀ s t : State, memoriesCanonical s = true → step s = .next t → memoriesCanonical t = true

/-- 10_state.md R49 item 6: in every state that meets the invariant the codes form a prefix code of lengths at most
255. -/
def Obligations.InvariantCodesFormPrefixCode : Prop :=
  ∀ s : State, inv s →
    (∀ a b : Byte, a ≠ b → codeOf s.code a ≠ [] → ¬ codeOf s.code a <+: codeOf s.code b) ∧
    (∀ a : Byte, (codeOf s.code a).length ≤ 255)

/-- 60_exceptions.md R125: "no input, command word or state makes the core stop accepting commands". In every state that
meets the invariant, every command completes, when the input it reads has been written since reset. -/
def Obligations.NoCommandStopsTheCore : Prop :=
  ∀ (s : State) (i : Instr), inv s → (i.readsIn = true → s.inLen.toNat ≤ s.cfg.inCap → inputWritten s) →
    ∃ t : State, exec i s = .next t

/-! ## Reset and the HOST's accesses -/

/-- 10_state.md R23, R50: what every register reads after reset, in every configuration; FREQ[0..255] is 0 and
no symbol has a code. -/
def Obligations.ResetRegisterValues : Prop :=
  ∀ c : Config,
    regValue (State.resetWith c) .id = 0x4855464600000001#64 ∧ regValue (State.resetWith c) .cmd = 0 ∧
    regValue (State.resetWith c) .status = 0 ∧ regValue (State.resetWith c) .errInfo = 0 ∧
    regValue (State.resetWith c) .inLen = 0 ∧ regValue (State.resetWith c) .outLen = 0 ∧
    regValue (State.resetWith c) .bitLen = 0 ∧ regValue (State.resetWith c) .root = 0x8000000000000000#64 ∧
    regValue (State.resetWith c) .nodeCount = 0 ∧ regValue (State.resetWith c) .winIndex = 0 ∧
    regValue (State.resetWith c) .freqWin = 0 ∧ regValue (State.resetWith c) .codeLenWin = 0 ∧
    regValue (State.resetWith c) .codeBitsWin = 0 ∧ regValue (State.resetWith c) .nodeWin = 0 ∧
    regValue (State.resetWith c) .nodeWeightWin = 0 ∧ regValue (State.resetWith c) .inCap = BitVec.ofNat 64 c.inCap ∧
    regValue (State.resetWith c) .outCap = BitVec.ofNat 64 c.outCap ∧
    regValue (State.resetWith c) .bitbufCap = BitVec.ofNat 64 c.bitbufCap ∧
    (∀ sym : Byte, freqOf (State.resetWith c).freq sym = 0 ∧ codeOf (State.resetWith c).code sym = []) ∧
    (State.resetWith c).pending = none ∧ (∀ a, readByte (State.resetWith c).inMem a = none) ∧
    (∀ a, readByte (State.resetWith c).outMem a = none)

/-- 70_reset_and_hazards.md R148, R149: Reset gives the core its reset state, pending command or not; the configuration
stays. That the HOST's own side (the model's fields hostProgram, hostLog, schedule and draws) stays too is the model's choice
(log entry 13, DESIGN CHOICE). -/
def Obligations.ResetTransactionResetsCore : Prop :=
  ∀ s : State, hostTxn .reset s = .next { State.resetWith s.cfg with
    hostProgram := s.hostProgram, hostLog := s.hostLog, schedule := s.schedule, draws := s.draws }

/-- 10_state.md R27: the fields of STATUS while the core is not BUSY; and 60_exceptions.md R131: the ten values of
ERRCODE. -/
def Obligations.StatusFieldLayout : Prop :=
  (∀ s : State, s.busy = false →
    (regValue s .status).getLsbD 0 = false ∧ (regValue s .status).getLsbD 1 = s.done ∧
    (regValue s .status).getLsbD 2 = s.err ∧ (regValue s .status).getLsbD 3 = s.overrun ∧
    (regValue s .status).getLsbD 4 = s.tv ∧ (regValue s .status).getLsbD 5 = s.cv ∧
    (regValue s .status).getLsbD 6 = s.bv ∧ (regValue s .status).getLsbD 7 = false ∧
    (regValue s .status).extractLsb' 8 8 = s.errCode.number ∧ (regValue s .status).extractLsb' 16 8 = s.detail ∧
    (regValue s .status).extractLsb' 24 8 = s.lastOp ∧ (regValue s .status).extractLsb' 32 32 = 0#32) ∧
  ErrCode.number .none = 0 ∧ ErrCode.number .corruptContainer = 1 ∧ ErrCode.number .emptyAlphabet = 2 ∧
  ErrCode.number .illegalCommand = 3 ∧ ErrCode.number .notReady = 4 ∧ ErrCode.number .inLength = 5 ∧
  ErrCode.number .outOverflow = 6 ∧ ErrCode.number .bitbufOverflow = 7 ∧ ErrCode.number .noCode = 8 ∧
  ErrCode.number .weightOverflow = 9

/-- 10_state.md R34 to R37: what the writable registers take and the windows over FREQ and CODE show, while not BUSY.
WIN_INDEX keeps IDX and WSEL alone; a FREQ_WIN write sets the one entry IDX[7:0] names and changes nothing else; bit
63 − j of CODE_BITS_WIN is bit 64·WSEL + j of the code, 0 past its end. -/
def Obligations.WindowsShowTables : Prop :=
  ∀ (s : State) (v : Word), s.busy = false →
    (∃ t : State, hostTxn (.regWrite 0x48 v) s = .next t ∧ regValue t .winIndex = v &&& 0x301FF#64 ∧
      t = { s with winIdx := t.winIdx, winSel := t.winSel }) ∧
    (∃ f, hostTxn (.regWrite 0x50 v) s = .next { s with freq := f } ∧ freqOf f (s.winIdx.setWidth 8) = v ∧
      ∀ sym : Byte, sym ≠ s.winIdx.setWidth 8 → freqOf f sym = freqOf s.freq sym) ∧
    hostTxn (.regWrite 0x20 v) s = .next { s with inLen := v } ∧
    regValue s .freqWin = freqOf s.freq (s.winIdx.setWidth 8) ∧
    ((codeOf s.code (s.winIdx.setWidth 8)).length < 512 →
      (regValue s .codeLenWin).toNat = (codeOf s.code (s.winIdx.setWidth 8)).length) ∧
    ∀ j, j < 64 → (regValue s .codeBitsWin).getLsbD (63 - j) =
      (codeOf s.code (s.winIdx.setWidth 8)).getD (64 * s.winSel.toNat + j) false

/-- 10_state.md R32, R33, R38, R39: the views of the tree store, while not BUSY. -/
def Obligations.TreeRegistersShowArena : Prop :=
  ∀ s : State,
    (s.root = none → regValue s .root = 0x8000000000000000#64) ∧
    (∀ r, s.root = some r → (regValue s .root).toNat = r.toNat) ∧
    (s.nodes.length ≤ 511 → (regValue s .nodeCount).toNat = s.nodes.length) ∧
    (s.nodes.length ≤ s.winIdx.toNat → regValue s .nodeWin = 0 ∧ regValue s .nodeWeightWin = 0) ∧
    (∀ w sym, s.nodes[s.winIdx.toNat]? = some (.leaf w sym) →
      regValue s .nodeWin = BitVec.ofNat 64 (2 ^ 63 + sym.toNat * 2 ^ 32) ∧ regValue s .nodeWeightWin = w) ∧
    (∀ w l r, s.nodes[s.winIdx.toNat]? = some (.internal w l r) →
      regValue s .nodeWin = BitVec.ofNat 64 (2 ^ 63 + 2 ^ 48 + r.toNat * 2 ^ 16 + l.toNat) ∧
      regValue s .nodeWeightWin = w)

/-- 10_state.md R23, R24, 20_memory.md R59: the register map, offset by offset. While not BUSY a legal register read shows
the HOST the value of the register at that offset and changes nothing of the core; a reserved offset and CMD read 0; a write
to a read-only register or a reserved offset is ignored. The values of ID, ERR_INFO, IN_LEN, OUT_LEN, BITLEN and the
capacities are given here, those of STATUS, WIN_INDEX, the windows and the tree registers by StatusFieldLayout,
WindowsShowTables and TreeRegistersShowArena. -/
def Obligations.LegalRegisterAccess : Prop :=
  (∀ (s : State) (off : Nat) (v : Word), s.busy = false → off < 0x100 → off % 8 = 0 →
    hostTxn (.regRead off) s = .next { s with hostLog := .reg off (regValue s (regAt off)) :: s.hostLog } ∧
    (0x90 ≤ off ∨ off = 0x08 → regValue s (regAt off) = 0) ∧
    (off ≠ 0x08 → off ≠ 0x20 → off ≠ 0x48 → off ≠ 0x50 → hostTxn (.regWrite off v) s = .next s)) ∧
  (regAt 0x00 = .id ∧ regAt 0x08 = .cmd ∧ regAt 0x10 = .status ∧ regAt 0x18 = .errInfo ∧ regAt 0x20 = .inLen ∧
    regAt 0x28 = .outLen ∧ regAt 0x30 = .bitLen ∧ regAt 0x38 = .root ∧ regAt 0x40 = .nodeCount ∧
    regAt 0x48 = .winIndex ∧ regAt 0x50 = .freqWin ∧ regAt 0x58 = .codeLenWin ∧ regAt 0x60 = .codeBitsWin ∧
    regAt 0x68 = .nodeWin ∧ regAt 0x70 = .nodeWeightWin ∧ regAt 0x78 = .inCap ∧ regAt 0x80 = .outCap ∧
    regAt 0x88 = .bitbufCap ∧ ∀ off, 0x90 ≤ off → regAt off = .reserved) ∧
  (∀ s : State,
    regValue s (regAt 0x00) = 0x4855464600000001#64 ∧ regValue s (regAt 0x18) = s.errInfo ∧
    regValue s (regAt 0x20) = s.inLen ∧ regValue s (regAt 0x28) = s.outLen ∧ regValue s (regAt 0x30) = s.bitLen ∧
    regValue s (regAt 0x78) = BitVec.ofNat 64 s.cfg.inCap ∧ regValue s (regAt 0x80) = BitVec.ofNat 64 s.cfg.outCap ∧
    regValue s (regAt 0x88) = BitVec.ofNat 64 s.cfg.bitbufCap)

/-- 70_reset_and_hazards.md R151: what a legal HOST access does while BUSY. Writes other than CMD are ignored. A STATUS read
has BUSY = 1, DONE = ERR = 0, ERRCODE = DETAIL = 0 and OVERRUN and LAST_OP their values (TV, CV, BV are free). ID, IN_LEN,
WIN_INDEX, the capacities, CMD and the reserved offsets read their values. Any other register, and any OUT byte, reads as a
free value: the value shown is `Config.freeWord` or `Config.freeByte` of the draw counter, of which nothing is known. -/
def Obligations.AccessesWhileBusy : Prop :=
  ∀ (s : State) (off a : Nat) (v : Word), s.busy = true → off < 0x100 → off % 8 = 0 → a < s.cfg.outCap →
    (off ≠ 0x08 → hostTxn (.regWrite off v) s = .next s) ∧
    (off = 0x10 → ∃ x : Word,
      hostTxn (.regRead off) s = .next { s with hostLog := .reg off x :: s.hostLog, draws := s.draws + 1 } ∧
      x.extractLsb' 0 4 = (if s.overrun then 9#4 else 1#4) ∧ x.getLsbD 7 = false ∧ x.extractLsb' 8 16 = 0#16 ∧
      x.extractLsb' 24 8 = s.lastOp ∧ x.extractLsb' 32 32 = 0#32) ∧
    (off ∈ [0x00, 0x08, 0x20, 0x48, 0x78, 0x80, 0x88] ∨ 0x90 ≤ off →
      hostTxn (.regRead off) s = .next { s with hostLog := .reg off (regValue s (regAt off)) :: s.hostLog }) ∧
    (off ∈ [0x18, 0x28, 0x30, 0x38, 0x40, 0x50, 0x58, 0x60, 0x68, 0x70] →
      hostTxn (.regRead off) s = .next { s with
        hostLog := .reg off (Config.freeWord s.draws) :: s.hostLog, draws := s.draws + 1 }) ∧
    hostTxn (.outRead a) s = .next { s with
      hostLog := .outByte a (Config.freeByte s.draws) :: s.hostLog, draws := s.draws + 1 }

/-- 20_memory.md R57, R53, 70_reset_and_hazards.md R152: exactly the forbidden HOST operations stop the model with a fault;
every other completes. -/
def Obligations.ForbiddenAccessesAreFaults : Prop :=
  ∀ (s : State) (op : HostOp),
    (forbidden op s = true → ∃ f, hostStep op s = .fault f) ∧
    (forbidden op s = false → ∃ t, hostStep op s = .next t)

/-- 20_memory.md R51, R59, 70_reset_and_hazards.md R153, 10_state.md R50: an InWrite while not BUSY sets that byte and its
mark and leaves every other IN byte and all else; InRead of a written byte returns it, BUSY or not, and OutRead of a
specified byte, while not BUSY, returns it; neither changes the core. An InRead of a byte not written since reset, BUSY or
not, and an OutRead of an unspecified byte while not BUSY return a free value, `Config.freeByte` of the draw counter, of which
nothing is known (log entry 3, DESIGN CHOICE), and change nothing of the core either. -/
def Obligations.HostMemoryAccess : Prop :=
  ∀ (s : State) (a : Nat) (b : Byte),
    (s.busy = false → a < s.cfg.inCap → ∃ m, hostTxn (.inWrite a b) s = .next { s with inMem := m } ∧
      readByte m a = some b ∧ ∀ x, x ≠ a → readByte m x = readByte s.inMem x) ∧
    (a < s.cfg.inCap → readByte s.inMem a = some b →
      hostTxn (.inRead a) s = .next { s with hostLog := .inByte a b :: s.hostLog }) ∧
    (s.busy = false → a < s.cfg.outCap → readByte s.outMem a = some b →
      hostTxn (.outRead a) s = .next { s with hostLog := .outByte a b :: s.hostLog }) ∧
    (a < s.cfg.inCap → readByte s.inMem a = none →
      hostTxn (.inRead a) s = .next { s with
        hostLog := .inByte a (Config.freeByte s.draws) :: s.hostLog, draws := s.draws + 1 }) ∧
    (s.busy = false → a < s.cfg.outCap → readByte s.outMem a = none →
      hostTxn (.outRead a) s = .next { s with
        hostLog := .outByte a (Config.freeByte s.draws) :: s.hostLog, draws := s.draws + 1 })
end

