-- ==== Sys2Proof/Laws/Memory.lean ====
section
/-! SUPPORT. The laws of the byte memories: read after write, and that every memory operation keeps the canonical form;
what the ENGINE's reads answer. -/

namespace Sys2Proof.Machine

open Sys2Proof

@[simp] theorem readByte_nil (x : Nat) : readByte [] x = none := rfl

/-- A read after a write to the same address gives the byte written. -/
@[simp] theorem readByte_writeByte_same (m : Memory) (x : Nat) (v : Byte) :
    readByte (writeByte m x v) x = some v := by
  induction m with
  | nil => simp [writeByte, readByte]
  | cons c m ih =>
    obtain ⟨a, b⟩ := c
    simp only [writeByte]
    split
    · simp [readByte]
    · split
      · simp [readByte]
      · next h => simp [readByte, h, ih]

/-- A write leaves every other address as it was. -/
theorem readByte_writeByte_other (m : Memory) {x y : Nat} (v : Byte) (h : y ≠ x) :
    readByte (writeByte m x v) y = readByte m y := by
  induction m with
  | nil => simp [writeByte, readByte, h]
  | cons c m ih =>
    obtain ⟨a, b⟩ := c
    simp only [writeByte]
    split
    · simp [readByte, h]
    · split
      · next _ h2 => subst h2; simp [readByte, h]
      · simp [readByte, ih]

/-- What every address reads as after a run of consecutive writes. -/
theorem readByte_writeBytes (bytes : List Byte) : ∀ (m : Memory) (x y : Nat),
    readByte (writeBytes m x bytes) y =
      if x ≤ y ∧ y < x + bytes.length then bytes[y - x]? else readByte m y := by
  induction bytes with
  | nil => intro m x y; simp [writeBytes]
  | cons b bs ih =>
    intro m x y
    rw [writeBytes, ih]
    by_cases hxy : y = x
    · subst hxy
      simp
    · rw [readByte_writeByte_other _ _ hxy]
      by_cases h : x + 1 ≤ y ∧ y < x + 1 + bs.length
      · have hy : y - x = (y - (x + 1)) + 1 := by omega
        rw [if_pos h, if_pos (by simp; omega), hy, List.getElem?_cons_succ]
      · rw [if_neg h, if_neg (by simp; omega)]

/-- Every address listed in a canonical memory after its first cell is larger than that cell's. -/
theorem Memory.wf_tail {c : Host.Cell} {m : Memory} (h : Memory.wf (c :: m) = true) : Memory.wf m = true := by
  cases m with
  | nil => rfl
  | cons d m => simp only [Memory.wf, Bool.and_eq_true] at h; exact h.2

/-- Putting a cell before a canonical memory whose first address is larger keeps the form. -/
theorem Memory.wf_cons {a : Nat} {b : Byte} {m : Memory} (hm : Memory.wf m = true)
    (h : ∀ c ∈ m.head?, a < c.1) : Memory.wf ((a, b) :: m) = true := by
  cases m with
  | nil => rfl
  | cons d m =>
    obtain ⟨a', b'⟩ := d
    simp only [Memory.wf, Bool.and_eq_true, decide_eq_true_eq]
    exact ⟨h _ rfl, hm⟩

/-- The first address after a write is the written one or the first one before. -/
theorem head_writeByte (m : Memory) (x : Nat) (v : Byte) :
    ∀ c ∈ (writeByte m x v).head?, c.1 = x ∨ ∃ d ∈ m.head?, c.1 = d.1 := by
  cases m with
  | nil => simp [writeByte]
  | cons d m =>
    obtain ⟨a, b⟩ := d
    simp only [writeByte]
    split
    · simp
    · split <;> simp

/-- A write keeps the canonical form. -/
theorem writeByte_wf (m : Memory) (x : Nat) (v : Byte) (h : Memory.wf m = true) :
    Memory.wf (writeByte m x v) = true := by
  induction m with
  | nil => rfl
  | cons c m ih =>
    obtain ⟨a, b⟩ := c
    simp only [writeByte]
    split
    · next hlt => exact Memory.wf_cons h (by simpa using hlt)
    · split
      · next _ he =>
        subst he
        refine Memory.wf_cons (Memory.wf_tail h) ?_
        intro c hc
        cases m with
        | nil => simp at hc
        | cons d m =>
          simp only [List.head?_cons, Option.mem_def, Option.some.injEq] at hc
          subst hc
          simp only [Memory.wf, Bool.and_eq_true, decide_eq_true_eq] at h
          exact h.1
      · next hlt hne =>
        refine Memory.wf_cons (ih (Memory.wf_tail h)) ?_
        intro c hc
        rcases head_writeByte m x v c hc with rfl | ⟨d, hd, hcd⟩
        · omega
        · cases m with
          | nil => simp at hd
          | cons e m =>
            simp only [List.head?_cons, Option.mem_def, Option.some.injEq] at hd
            subst hd
            simp only [Memory.wf, Bool.and_eq_true, decide_eq_true_eq] at h
            rw [hcd]
            exact h.1

/-- A run of writes keeps the canonical form. -/
theorem writeBytes_wf (bytes : List Byte) : ∀ (m : Memory) (x : Nat), Memory.wf m = true →
    Memory.wf (writeBytes m x bytes) = true := by
  induction bytes with
  | nil => intro m x h; exact h
  | cons b bs ih => intro m x h; exact ih _ _ (writeByte_wf m x b h)

/-- The memories of the reset state are canonical. -/
theorem reset_memories_wf (c : Config) :
    Memory.wf (State.resetWith c).inMem = true ∧ Memory.wf (State.resetWith c).outMem = true := ⟨rfl, rfl⟩

/-- `memRead` answers the listed byte, and the fault of 70_reset_and_hazards.md R153 exactly where none is listed. -/
theorem memRead_eq (m : Memory) (a : Nat) :
    memRead m a = match readByte m a with
      | some b => .ok b
      | none => .error (.fault (.inUnwritten a)) := rfl

/-- Consecutive reads answer the bytes listed, when all of them are. -/
theorem memReadBytes_ok (m : Memory) : ∀ (bytes : List Byte) (a : Nat),
    (∀ i, i < bytes.length → readByte m (a + i) = bytes[i]?) → memReadBytes m a bytes.length = .ok bytes := by
  intro bytes
  induction bytes with
  | nil => intro a _; rfl
  | cons b bs ih =>
    intro a h
    have h0 : readByte m a = some b := by simpa using h 0 (by simp)
    have hs : memReadBytes m (a + 1) bs.length = .ok bs := by
      refine ih (a + 1) fun i hi => ?_
      have := h (i + 1) (by simpa using hi)
      rw [show a + 1 + i = a + (i + 1) by omega]
      simpa using this
    simp [memReadBytes, memRead, h0, hs]

/-- What consecutive reads answered is what the memory lists. -/
theorem readByte_of_memReadBytes (m : Memory) : ∀ (n a : Nat) (bytes : List Byte),
    memReadBytes m a n = .ok bytes → bytes.length = n ∧ ∀ i, i < n → readByte m (a + i) = bytes[i]? := by
  intro n
  induction n with
  | zero =>
    intro a bytes h
    simp only [memReadBytes, Except.ok.injEq] at h
    subst h
    simp
  | succ n ih =>
    intro a bytes h
    simp only [memReadBytes, memRead] at h
    cases hb : readByte m a with
    | none => simp [hb] at h
    | some b =>
      cases hr : memReadBytes m (a + 1) n with
      | error e => simp [hb, hr] at h
      | ok rest =>
        simp only [hb, hr, Except.ok.injEq] at h
        subst h
        obtain ⟨hl, hi⟩ := ih _ _ hr
        refine ⟨by simp [hl], fun i hlt => ?_⟩
        cases i with
        | zero => simpa using hb
        | succ i =>
          have := hi i (by omega)
          rw [show a + (i + 1) = a + 1 + i by omega]
          simpa using this

/-- The only way consecutive reads stop is the fault at the first byte that is not listed. -/
theorem memReadBytes_error (m : Memory) : ∀ (n a : Nat) (e : Stop), memReadBytes m a n = .error e →
    ∃ i, i < n ∧ e = .fault (.inUnwritten (a + i)) ∧ readByte m (a + i) = none ∧
      ∀ j, j < i → readByte m (a + j) ≠ none := by
  intro n
  induction n with
  | zero => intro a e h; simp [memReadBytes] at h
  | succ n ih =>
    intro a e h
    simp only [memReadBytes, memRead] at h
    cases hb : readByte m a with
    | none =>
      simp only [hb, Except.error.injEq] at h
      exact ⟨0, by omega, by simpa using h.symm, by simpa using hb, by omega⟩
    | some b =>
      cases hr : memReadBytes m (a + 1) n with
      | ok rest => simp [hb, hr] at h
      | error e' =>
        simp only [hb, hr, Except.error.injEq] at h
        subst h
        obtain ⟨i, hi, he, hn, hall⟩ := ih _ _ hr
        refine ⟨i + 1, by omega, ?_, ?_, ?_⟩
        · rw [he]; congr 2; omega
        · rw [show a + (i + 1) = a + 1 + i by omega]; exact hn
        · intro j hj
          cases j with
          | zero => simp [hb]
          | succ j =>
            have := hall j (by omega)
            rw [show a + (j + 1) = a + 1 + j by omega]; exact this

end Sys2Proof.Machine
end

