-- ==== Sys2Proof/Laws/State.lean ====
section
/-! SUPPORT. Every field after every named update of State, true by definition: no later proof unfolds a record update. -/

namespace Sys2Proof.Machine

open Sys2Proof

/-! ### Fields after `invalidate(TREE)` (10_state.md R47) -/

@[simp] theorem invalidateTree_cfg (s : State) : (invalidateTree s).cfg = s.cfg := rfl
@[simp] theorem invalidateTree_pending (s : State) : (invalidateTree s).pending = s.pending := rfl
@[simp] theorem invalidateTree_done (s : State) : (invalidateTree s).done = s.done := rfl
@[simp] theorem invalidateTree_err (s : State) : (invalidateTree s).err = s.err := rfl
@[simp] theorem invalidateTree_overrun (s : State) : (invalidateTree s).overrun = s.overrun := rfl
@[simp] theorem invalidateTree_tv (s : State) : (invalidateTree s).tv = false := rfl
@[simp] theorem invalidateTree_cv (s : State) : (invalidateTree s).cv = s.cv := rfl
@[simp] theorem invalidateTree_bv (s : State) : (invalidateTree s).bv = s.bv := rfl
@[simp] theorem invalidateTree_errCode (s : State) : (invalidateTree s).errCode = s.errCode := rfl
@[simp] theorem invalidateTree_detail (s : State) : (invalidateTree s).detail = s.detail := rfl
@[simp] theorem invalidateTree_lastOp (s : State) : (invalidateTree s).lastOp = s.lastOp := rfl
@[simp] theorem invalidateTree_errInfo (s : State) : (invalidateTree s).errInfo = s.errInfo := rfl
@[simp] theorem invalidateTree_inLen (s : State) : (invalidateTree s).inLen = s.inLen := rfl
@[simp] theorem invalidateTree_outLen (s : State) : (invalidateTree s).outLen = s.outLen := rfl
@[simp] theorem invalidateTree_bitLen (s : State) : (invalidateTree s).bitLen = s.bitLen := rfl
@[simp] theorem invalidateTree_root (s : State) : (invalidateTree s).root = none := rfl
@[simp] theorem invalidateTree_winIdx (s : State) : (invalidateTree s).winIdx = s.winIdx := rfl
@[simp] theorem invalidateTree_winSel (s : State) : (invalidateTree s).winSel = s.winSel := rfl
@[simp] theorem invalidateTree_freq (s : State) : (invalidateTree s).freq = s.freq := rfl
@[simp] theorem invalidateTree_nodes (s : State) : (invalidateTree s).nodes = [] := rfl
@[simp] theorem invalidateTree_code (s : State) : (invalidateTree s).code = s.code := rfl
@[simp] theorem invalidateTree_bitbuf (s : State) : (invalidateTree s).bitbuf = s.bitbuf := rfl
@[simp] theorem invalidateTree_inMem (s : State) : (invalidateTree s).inMem = s.inMem := rfl
@[simp] theorem invalidateTree_outMem (s : State) : (invalidateTree s).outMem = s.outMem := rfl
@[simp] theorem invalidateTree_hostProgram (s : State) :
    (invalidateTree s).hostProgram = s.hostProgram := rfl
@[simp] theorem invalidateTree_hostLog (s : State) : (invalidateTree s).hostLog = s.hostLog := rfl
@[simp] theorem invalidateTree_schedule (s : State) : (invalidateTree s).schedule = s.schedule := rfl
@[simp] theorem invalidateTree_draws (s : State) : (invalidateTree s).draws = s.draws := rfl

/-! ### Fields after `invalidate(CODES)` (10_state.md R47) -/

@[simp] theorem invalidateCodes_cfg (s : State) : (invalidateCodes s).cfg = s.cfg := rfl
@[simp] theorem invalidateCodes_pending (s : State) : (invalidateCodes s).pending = s.pending := rfl
@[simp] theorem invalidateCodes_done (s : State) : (invalidateCodes s).done = s.done := rfl
@[simp] theorem invalidateCodes_err (s : State) : (invalidateCodes s).err = s.err := rfl
@[simp] theorem invalidateCodes_overrun (s : State) : (invalidateCodes s).overrun = s.overrun := rfl
@[simp] theorem invalidateCodes_tv (s : State) : (invalidateCodes s).tv = s.tv := rfl
@[simp] theorem invalidateCodes_cv (s : State) : (invalidateCodes s).cv = false := rfl
@[simp] theorem invalidateCodes_bv (s : State) : (invalidateCodes s).bv = s.bv := rfl
@[simp] theorem invalidateCodes_errCode (s : State) : (invalidateCodes s).errCode = s.errCode := rfl
@[simp] theorem invalidateCodes_detail (s : State) : (invalidateCodes s).detail = s.detail := rfl
@[simp] theorem invalidateCodes_lastOp (s : State) : (invalidateCodes s).lastOp = s.lastOp := rfl
@[simp] theorem invalidateCodes_errInfo (s : State) : (invalidateCodes s).errInfo = s.errInfo := rfl
@[simp] theorem invalidateCodes_inLen (s : State) : (invalidateCodes s).inLen = s.inLen := rfl
@[simp] theorem invalidateCodes_outLen (s : State) : (invalidateCodes s).outLen = s.outLen := rfl
@[simp] theorem invalidateCodes_bitLen (s : State) : (invalidateCodes s).bitLen = s.bitLen := rfl
@[simp] theorem invalidateCodes_root (s : State) : (invalidateCodes s).root = s.root := rfl
@[simp] theorem invalidateCodes_winIdx (s : State) : (invalidateCodes s).winIdx = s.winIdx := rfl
@[simp] theorem invalidateCodes_winSel (s : State) : (invalidateCodes s).winSel = s.winSel := rfl
@[simp] theorem invalidateCodes_freq (s : State) : (invalidateCodes s).freq = s.freq := rfl
@[simp] theorem invalidateCodes_nodes (s : State) : (invalidateCodes s).nodes = s.nodes := rfl
@[simp] theorem invalidateCodes_code (s : State) :
    (invalidateCodes s).code = Vector.replicate 256 [] := rfl
@[simp] theorem invalidateCodes_bitbuf (s : State) : (invalidateCodes s).bitbuf = s.bitbuf := rfl
@[simp] theorem invalidateCodes_inMem (s : State) : (invalidateCodes s).inMem = s.inMem := rfl
@[simp] theorem invalidateCodes_outMem (s : State) : (invalidateCodes s).outMem = s.outMem := rfl
@[simp] theorem invalidateCodes_hostProgram (s : State) :
    (invalidateCodes s).hostProgram = s.hostProgram := rfl
@[simp] theorem invalidateCodes_hostLog (s : State) : (invalidateCodes s).hostLog = s.hostLog := rfl
@[simp] theorem invalidateCodes_schedule (s : State) : (invalidateCodes s).schedule = s.schedule := rfl
@[simp] theorem invalidateCodes_draws (s : State) : (invalidateCodes s).draws = s.draws := rfl

/-! ### Fields after `invalidate(BITS)` (10_state.md R47) -/

@[simp] theorem invalidateBits_cfg (s : State) : (invalidateBits s).cfg = s.cfg := rfl
@[simp] theorem invalidateBits_pending (s : State) : (invalidateBits s).pending = s.pending := rfl
@[simp] theorem invalidateBits_done (s : State) : (invalidateBits s).done = s.done := rfl
@[simp] theorem invalidateBits_err (s : State) : (invalidateBits s).err = s.err := rfl
@[simp] theorem invalidateBits_overrun (s : State) : (invalidateBits s).overrun = s.overrun := rfl
@[simp] theorem invalidateBits_tv (s : State) : (invalidateBits s).tv = s.tv := rfl
@[simp] theorem invalidateBits_cv (s : State) : (invalidateBits s).cv = s.cv := rfl
@[simp] theorem invalidateBits_bv (s : State) : (invalidateBits s).bv = false := rfl
@[simp] theorem invalidateBits_errCode (s : State) : (invalidateBits s).errCode = s.errCode := rfl
@[simp] theorem invalidateBits_detail (s : State) : (invalidateBits s).detail = s.detail := rfl
@[simp] theorem invalidateBits_lastOp (s : State) : (invalidateBits s).lastOp = s.lastOp := rfl
@[simp] theorem invalidateBits_errInfo (s : State) : (invalidateBits s).errInfo = s.errInfo := rfl
@[simp] theorem invalidateBits_inLen (s : State) : (invalidateBits s).inLen = s.inLen := rfl
@[simp] theorem invalidateBits_outLen (s : State) : (invalidateBits s).outLen = s.outLen := rfl
@[simp] theorem invalidateBits_bitLen (s : State) : (invalidateBits s).bitLen = 0 := rfl
@[simp] theorem invalidateBits_root (s : State) : (invalidateBits s).root = s.root := rfl
@[simp] theorem invalidateBits_winIdx (s : State) : (invalidateBits s).winIdx = s.winIdx := rfl
@[simp] theorem invalidateBits_winSel (s : State) : (invalidateBits s).winSel = s.winSel := rfl
@[simp] theorem invalidateBits_freq (s : State) : (invalidateBits s).freq = s.freq := rfl
@[simp] theorem invalidateBits_nodes (s : State) : (invalidateBits s).nodes = s.nodes := rfl
@[simp] theorem invalidateBits_code (s : State) : (invalidateBits s).code = s.code := rfl
@[simp] theorem invalidateBits_bitbuf (s : State) : (invalidateBits s).bitbuf = [] := rfl
@[simp] theorem invalidateBits_inMem (s : State) : (invalidateBits s).inMem = s.inMem := rfl
@[simp] theorem invalidateBits_outMem (s : State) : (invalidateBits s).outMem = s.outMem := rfl
@[simp] theorem invalidateBits_hostProgram (s : State) :
    (invalidateBits s).hostProgram = s.hostProgram := rfl
@[simp] theorem invalidateBits_hostLog (s : State) : (invalidateBits s).hostLog = s.hostLog := rfl
@[simp] theorem invalidateBits_schedule (s : State) : (invalidateBits s).schedule = s.schedule := rfl
@[simp] theorem invalidateBits_draws (s : State) : (invalidateBits s).draws = s.draws := rfl

/-! ### Fields after all three clears (10_state.md R47) -/

@[simp] theorem invalidateAll_cfg (s : State) : (invalidateAll s).cfg = s.cfg := rfl
@[simp] theorem invalidateAll_pending (s : State) : (invalidateAll s).pending = s.pending := rfl
@[simp] theorem invalidateAll_done (s : State) : (invalidateAll s).done = s.done := rfl
@[simp] theorem invalidateAll_err (s : State) : (invalidateAll s).err = s.err := rfl
@[simp] theorem invalidateAll_overrun (s : State) : (invalidateAll s).overrun = s.overrun := rfl
@[simp] theorem invalidateAll_tv (s : State) : (invalidateAll s).tv = false := rfl
@[simp] theorem invalidateAll_cv (s : State) : (invalidateAll s).cv = false := rfl
@[simp] theorem invalidateAll_bv (s : State) : (invalidateAll s).bv = false := rfl
@[simp] theorem invalidateAll_errCode (s : State) : (invalidateAll s).errCode = s.errCode := rfl
@[simp] theorem invalidateAll_detail (s : State) : (invalidateAll s).detail = s.detail := rfl
@[simp] theorem invalidateAll_lastOp (s : State) : (invalidateAll s).lastOp = s.lastOp := rfl
@[simp] theorem invalidateAll_errInfo (s : State) : (invalidateAll s).errInfo = s.errInfo := rfl
@[simp] theorem invalidateAll_inLen (s : State) : (invalidateAll s).inLen = s.inLen := rfl
@[simp] theorem invalidateAll_outLen (s : State) : (invalidateAll s).outLen = s.outLen := rfl
@[simp] theorem invalidateAll_bitLen (s : State) : (invalidateAll s).bitLen = 0 := rfl
@[simp] theorem invalidateAll_root (s : State) : (invalidateAll s).root = none := rfl
@[simp] theorem invalidateAll_winIdx (s : State) : (invalidateAll s).winIdx = s.winIdx := rfl
@[simp] theorem invalidateAll_winSel (s : State) : (invalidateAll s).winSel = s.winSel := rfl
@[simp] theorem invalidateAll_freq (s : State) : (invalidateAll s).freq = s.freq := rfl
@[simp] theorem invalidateAll_nodes (s : State) : (invalidateAll s).nodes = [] := rfl
@[simp] theorem invalidateAll_code (s : State) :
    (invalidateAll s).code = Vector.replicate 256 [] := rfl
@[simp] theorem invalidateAll_bitbuf (s : State) : (invalidateAll s).bitbuf = [] := rfl
@[simp] theorem invalidateAll_inMem (s : State) : (invalidateAll s).inMem = s.inMem := rfl
@[simp] theorem invalidateAll_outMem (s : State) : (invalidateAll s).outMem = s.outMem := rfl
@[simp] theorem invalidateAll_hostProgram (s : State) :
    (invalidateAll s).hostProgram = s.hostProgram := rfl
@[simp] theorem invalidateAll_hostLog (s : State) : (invalidateAll s).hostLog = s.hostLog := rfl
@[simp] theorem invalidateAll_schedule (s : State) : (invalidateAll s).schedule = s.schedule := rfl
@[simp] theorem invalidateAll_draws (s : State) : (invalidateAll s).draws = s.draws := rfl

/-! ### Fields after acceptance (60_exceptions.md R126) -/

@[simp] theorem acceptWord_cfg (w : Word) (s : State) : (acceptWord w s).cfg = s.cfg := rfl
@[simp] theorem acceptWord_pending (w : Word) (s : State) : (acceptWord w s).pending = some w := rfl
@[simp] theorem acceptWord_done (w : Word) (s : State) : (acceptWord w s).done = false := rfl
@[simp] theorem acceptWord_err (w : Word) (s : State) : (acceptWord w s).err = false := rfl
@[simp] theorem acceptWord_overrun (w : Word) (s : State) : (acceptWord w s).overrun = s.overrun := rfl
@[simp] theorem acceptWord_tv (w : Word) (s : State) : (acceptWord w s).tv = s.tv := rfl
@[simp] theorem acceptWord_cv (w : Word) (s : State) : (acceptWord w s).cv = s.cv := rfl
@[simp] theorem acceptWord_bv (w : Word) (s : State) : (acceptWord w s).bv = s.bv := rfl
@[simp] theorem acceptWord_errCode (w : Word) (s : State) : (acceptWord w s).errCode = .none := rfl
@[simp] theorem acceptWord_detail (w : Word) (s : State) : (acceptWord w s).detail = 0 := rfl
@[simp] theorem acceptWord_lastOp (w : Word) (s : State) :
    (acceptWord w s).lastOp = w.extractLsb' 0 8 := rfl
@[simp] theorem acceptWord_errInfo (w : Word) (s : State) : (acceptWord w s).errInfo = 0 := rfl
@[simp] theorem acceptWord_inLen (w : Word) (s : State) : (acceptWord w s).inLen = s.inLen := rfl
@[simp] theorem acceptWord_outLen (w : Word) (s : State) : (acceptWord w s).outLen = s.outLen := rfl
@[simp] theorem acceptWord_bitLen (w : Word) (s : State) : (acceptWord w s).bitLen = s.bitLen := rfl
@[simp] theorem acceptWord_root (w : Word) (s : State) : (acceptWord w s).root = s.root := rfl
@[simp] theorem acceptWord_winIdx (w : Word) (s : State) : (acceptWord w s).winIdx = s.winIdx := rfl
@[simp] theorem acceptWord_winSel (w : Word) (s : State) : (acceptWord w s).winSel = s.winSel := rfl
@[simp] theorem acceptWord_freq (w : Word) (s : State) : (acceptWord w s).freq = s.freq := rfl
@[simp] theorem acceptWord_nodes (w : Word) (s : State) : (acceptWord w s).nodes = s.nodes := rfl
@[simp] theorem acceptWord_code (w : Word) (s : State) : (acceptWord w s).code = s.code := rfl
@[simp] theorem acceptWord_bitbuf (w : Word) (s : State) : (acceptWord w s).bitbuf = s.bitbuf := rfl
@[simp] theorem acceptWord_inMem (w : Word) (s : State) : (acceptWord w s).inMem = s.inMem := rfl
@[simp] theorem acceptWord_outMem (w : Word) (s : State) : (acceptWord w s).outMem = s.outMem := rfl
@[simp] theorem acceptWord_hostProgram (w : Word) (s : State) :
    (acceptWord w s).hostProgram = s.hostProgram := rfl
@[simp] theorem acceptWord_hostLog (w : Word) (s : State) : (acceptWord w s).hostLog = s.hostLog := rfl
@[simp] theorem acceptWord_schedule (w : Word) (s : State) :
    (acceptWord w s).schedule = s.schedule := rfl
@[simp] theorem acceptWord_draws (w : Word) (s : State) : (acceptWord w s).draws = s.draws := rfl

/-! ### Fields after successful completion (60_exceptions.md R127) -/

@[simp] theorem completeOk_cfg (s : State) : (completeOk s).cfg = s.cfg := rfl
@[simp] theorem completeOk_pending (s : State) : (completeOk s).pending = none := rfl
@[simp] theorem completeOk_done (s : State) : (completeOk s).done = true := rfl
@[simp] theorem completeOk_err (s : State) : (completeOk s).err = s.err := rfl
@[simp] theorem completeOk_overrun (s : State) : (completeOk s).overrun = s.overrun := rfl
@[simp] theorem completeOk_tv (s : State) : (completeOk s).tv = s.tv := rfl
@[simp] theorem completeOk_cv (s : State) : (completeOk s).cv = s.cv := rfl
@[simp] theorem completeOk_bv (s : State) : (completeOk s).bv = s.bv := rfl
@[simp] theorem completeOk_errCode (s : State) : (completeOk s).errCode = s.errCode := rfl
@[simp] theorem completeOk_detail (s : State) : (completeOk s).detail = s.detail := rfl
@[simp] theorem completeOk_lastOp (s : State) : (completeOk s).lastOp = s.lastOp := rfl
@[simp] theorem completeOk_errInfo (s : State) : (completeOk s).errInfo = s.errInfo := rfl
@[simp] theorem completeOk_inLen (s : State) : (completeOk s).inLen = s.inLen := rfl
@[simp] theorem completeOk_outLen (s : State) : (completeOk s).outLen = s.outLen := rfl
@[simp] theorem completeOk_bitLen (s : State) : (completeOk s).bitLen = s.bitLen := rfl
@[simp] theorem completeOk_root (s : State) : (completeOk s).root = s.root := rfl
@[simp] theorem completeOk_winIdx (s : State) : (completeOk s).winIdx = s.winIdx := rfl
@[simp] theorem completeOk_winSel (s : State) : (completeOk s).winSel = s.winSel := rfl
@[simp] theorem completeOk_freq (s : State) : (completeOk s).freq = s.freq := rfl
@[simp] theorem completeOk_nodes (s : State) : (completeOk s).nodes = s.nodes := rfl
@[simp] theorem completeOk_code (s : State) : (completeOk s).code = s.code := rfl
@[simp] theorem completeOk_bitbuf (s : State) : (completeOk s).bitbuf = s.bitbuf := rfl
@[simp] theorem completeOk_inMem (s : State) : (completeOk s).inMem = s.inMem := rfl
@[simp] theorem completeOk_outMem (s : State) : (completeOk s).outMem = s.outMem := rfl
@[simp] theorem completeOk_hostProgram (s : State) : (completeOk s).hostProgram = s.hostProgram := rfl
@[simp] theorem completeOk_hostLog (s : State) : (completeOk s).hostLog = s.hostLog := rfl
@[simp] theorem completeOk_schedule (s : State) : (completeOk s).schedule = s.schedule := rfl
@[simp] theorem completeOk_draws (s : State) : (completeOk s).draws = s.draws := rfl

/-! ### Fields after error completion (60_exceptions.md R127) -/

@[simp] theorem completeError_cfg (e : CmdError) (s : State) :
    (completeError e s).cfg = s.cfg := rfl
@[simp] theorem completeError_pending (e : CmdError) (s : State) :
    (completeError e s).pending = none := rfl
@[simp] theorem completeError_done (e : CmdError) (s : State) :
    (completeError e s).done = s.done := rfl
@[simp] theorem completeError_err (e : CmdError) (s : State) :
    (completeError e s).err = true := rfl
@[simp] theorem completeError_overrun (e : CmdError) (s : State) :
    (completeError e s).overrun = s.overrun := rfl
@[simp] theorem completeError_tv (e : CmdError) (s : State) : (completeError e s).tv = s.tv := rfl
@[simp] theorem completeError_cv (e : CmdError) (s : State) : (completeError e s).cv = s.cv := rfl
@[simp] theorem completeError_bv (e : CmdError) (s : State) : (completeError e s).bv = s.bv := rfl
@[simp] theorem completeError_errCode (e : CmdError) (s : State) :
    (completeError e s).errCode = e.code := rfl
@[simp] theorem completeError_detail (e : CmdError) (s : State) :
    (completeError e s).detail = e.detail := rfl
@[simp] theorem completeError_lastOp (e : CmdError) (s : State) :
    (completeError e s).lastOp = s.lastOp := rfl
@[simp] theorem completeError_errInfo (e : CmdError) (s : State) :
    (completeError e s).errInfo = e.info := rfl
@[simp] theorem completeError_inLen (e : CmdError) (s : State) :
    (completeError e s).inLen = s.inLen := rfl
@[simp] theorem completeError_outLen (e : CmdError) (s : State) :
    (completeError e s).outLen = s.outLen := rfl
@[simp] theorem completeError_bitLen (e : CmdError) (s : State) :
    (completeError e s).bitLen = s.bitLen := rfl
@[simp] theorem completeError_root (e : CmdError) (s : State) :
    (completeError e s).root = s.root := rfl
@[simp] theorem completeError_winIdx (e : CmdError) (s : State) :
    (completeError e s).winIdx = s.winIdx := rfl
@[simp] theorem completeError_winSel (e : CmdError) (s : State) :
    (completeError e s).winSel = s.winSel := rfl
@[simp] theorem completeError_freq (e : CmdError) (s : State) :
    (completeError e s).freq = s.freq := rfl
@[simp] theorem completeError_nodes (e : CmdError) (s : State) :
    (completeError e s).nodes = s.nodes := rfl
@[simp] theorem completeError_code (e : CmdError) (s : State) :
    (completeError e s).code = s.code := rfl
@[simp] theorem completeError_bitbuf (e : CmdError) (s : State) :
    (completeError e s).bitbuf = s.bitbuf := rfl
@[simp] theorem completeError_inMem (e : CmdError) (s : State) :
    (completeError e s).inMem = s.inMem := rfl
@[simp] theorem completeError_outMem (e : CmdError) (s : State) :
    (completeError e s).outMem = s.outMem := rfl
@[simp] theorem completeError_hostProgram (e : CmdError) (s : State) :
    (completeError e s).hostProgram = s.hostProgram := rfl
@[simp] theorem completeError_hostLog (e : CmdError) (s : State) :
    (completeError e s).hostLog = s.hostLog := rfl
@[simp] theorem completeError_schedule (e : CmdError) (s : State) :
    (completeError e s).schedule = s.schedule := rfl
@[simp] theorem completeError_draws (e : CmdError) (s : State) :
    (completeError e s).draws = s.draws := rfl

/-! ### Fields after the loss of OUT (60_exceptions.md R136) -/

@[simp] theorem outLost_cfg (s : State) : (outLost s).cfg = s.cfg := rfl
@[simp] theorem outLost_pending (s : State) : (outLost s).pending = s.pending := rfl
@[simp] theorem outLost_done (s : State) : (outLost s).done = s.done := rfl
@[simp] theorem outLost_err (s : State) : (outLost s).err = s.err := rfl
@[simp] theorem outLost_overrun (s : State) : (outLost s).overrun = s.overrun := rfl
@[simp] theorem outLost_tv (s : State) : (outLost s).tv = s.tv := rfl
@[simp] theorem outLost_cv (s : State) : (outLost s).cv = s.cv := rfl
@[simp] theorem outLost_bv (s : State) : (outLost s).bv = s.bv := rfl
@[simp] theorem outLost_errCode (s : State) : (outLost s).errCode = s.errCode := rfl
@[simp] theorem outLost_detail (s : State) : (outLost s).detail = s.detail := rfl
@[simp] theorem outLost_lastOp (s : State) : (outLost s).lastOp = s.lastOp := rfl
@[simp] theorem outLost_errInfo (s : State) : (outLost s).errInfo = s.errInfo := rfl
@[simp] theorem outLost_inLen (s : State) : (outLost s).inLen = s.inLen := rfl
@[simp] theorem outLost_outLen (s : State) : (outLost s).outLen = 0 := rfl
@[simp] theorem outLost_bitLen (s : State) : (outLost s).bitLen = s.bitLen := rfl
@[simp] theorem outLost_root (s : State) : (outLost s).root = s.root := rfl
@[simp] theorem outLost_winIdx (s : State) : (outLost s).winIdx = s.winIdx := rfl
@[simp] theorem outLost_winSel (s : State) : (outLost s).winSel = s.winSel := rfl
@[simp] theorem outLost_freq (s : State) : (outLost s).freq = s.freq := rfl
@[simp] theorem outLost_nodes (s : State) : (outLost s).nodes = s.nodes := rfl
@[simp] theorem outLost_code (s : State) : (outLost s).code = s.code := rfl
@[simp] theorem outLost_bitbuf (s : State) : (outLost s).bitbuf = s.bitbuf := rfl
@[simp] theorem outLost_inMem (s : State) : (outLost s).inMem = s.inMem := rfl
@[simp] theorem outLost_outMem (s : State) : (outLost s).outMem = [] := rfl
@[simp] theorem outLost_hostProgram (s : State) : (outLost s).hostProgram = s.hostProgram := rfl
@[simp] theorem outLost_hostLog (s : State) : (outLost s).hostLog = s.hostLog := rfl
@[simp] theorem outLost_schedule (s : State) : (outLost s).schedule = s.schedule := rfl
@[simp] theorem outLost_draws (s : State) : (outLost s).draws = s.draws := rfl

/-! ### Fields after the writing of OUT -/

@[simp] theorem writeOut_cfg (bytes : List Byte) (len : Nat) (s : State) :
    (writeOut bytes len s).cfg = s.cfg := rfl
@[simp] theorem writeOut_pending (bytes : List Byte) (len : Nat) (s : State) :
    (writeOut bytes len s).pending = s.pending := rfl
@[simp] theorem writeOut_done (bytes : List Byte) (len : Nat) (s : State) :
    (writeOut bytes len s).done = s.done := rfl
@[simp] theorem writeOut_err (bytes : List Byte) (len : Nat) (s : State) :
    (writeOut bytes len s).err = s.err := rfl
@[simp] theorem writeOut_overrun (bytes : List Byte) (len : Nat) (s : State) :
    (writeOut bytes len s).overrun = s.overrun := rfl
@[simp] theorem writeOut_tv (bytes : List Byte) (len : Nat) (s : State) :
    (writeOut bytes len s).tv = s.tv := rfl
@[simp] theorem writeOut_cv (bytes : List Byte) (len : Nat) (s : State) :
    (writeOut bytes len s).cv = s.cv := rfl
@[simp] theorem writeOut_bv (bytes : List Byte) (len : Nat) (s : State) :
    (writeOut bytes len s).bv = s.bv := rfl
@[simp] theorem writeOut_errCode (bytes : List Byte) (len : Nat) (s : State) :
    (writeOut bytes len s).errCode = s.errCode := rfl
@[simp] theorem writeOut_detail (bytes : List Byte) (len : Nat) (s : State) :
    (writeOut bytes len s).detail = s.detail := rfl
@[simp] theorem writeOut_lastOp (bytes : List Byte) (len : Nat) (s : State) :
    (writeOut bytes len s).lastOp = s.lastOp := rfl
@[simp] theorem writeOut_errInfo (bytes : List Byte) (len : Nat) (s : State) :
    (writeOut bytes len s).errInfo = s.errInfo := rfl
@[simp] theorem writeOut_inLen (bytes : List Byte) (len : Nat) (s : State) :
    (writeOut bytes len s).inLen = s.inLen := rfl
@[simp] theorem writeOut_outLen (bytes : List Byte) (len : Nat) (s : State) :
    (writeOut bytes len s).outLen = BitVec.ofNat 64 len := rfl
@[simp] theorem writeOut_bitLen (bytes : List Byte) (len : Nat) (s : State) :
    (writeOut bytes len s).bitLen = s.bitLen := rfl
@[simp] theorem writeOut_root (bytes : List Byte) (len : Nat) (s : State) :
    (writeOut bytes len s).root = s.root := rfl
@[simp] theorem writeOut_winIdx (bytes : List Byte) (len : Nat) (s : State) :
    (writeOut bytes len s).winIdx = s.winIdx := rfl
@[simp] theorem writeOut_winSel (bytes : List Byte) (len : Nat) (s : State) :
    (writeOut bytes len s).winSel = s.winSel := rfl
@[simp] theorem writeOut_freq (bytes : List Byte) (len : Nat) (s : State) :
    (writeOut bytes len s).freq = s.freq := rfl
@[simp] theorem writeOut_nodes (bytes : List Byte) (len : Nat) (s : State) :
    (writeOut bytes len s).nodes = s.nodes := rfl
@[simp] theorem writeOut_code (bytes : List Byte) (len : Nat) (s : State) :
    (writeOut bytes len s).code = s.code := rfl
@[simp] theorem writeOut_bitbuf (bytes : List Byte) (len : Nat) (s : State) :
    (writeOut bytes len s).bitbuf = s.bitbuf := rfl
@[simp] theorem writeOut_inMem (bytes : List Byte) (len : Nat) (s : State) :
    (writeOut bytes len s).inMem = s.inMem := rfl
@[simp] theorem writeOut_outMem (bytes : List Byte) (len : Nat) (s : State) :
    (writeOut bytes len s).outMem = writeBytes s.outMem 0 bytes := rfl
@[simp] theorem writeOut_hostProgram (bytes : List Byte) (len : Nat) (s : State) :
    (writeOut bytes len s).hostProgram = s.hostProgram := rfl
@[simp] theorem writeOut_hostLog (bytes : List Byte) (len : Nat) (s : State) :
    (writeOut bytes len s).hostLog = s.hostLog := rfl
@[simp] theorem writeOut_schedule (bytes : List Byte) (len : Nat) (s : State) :
    (writeOut bytes len s).schedule = s.schedule := rfl
@[simp] theorem writeOut_draws (bytes : List Byte) (len : Nat) (s : State) :
    (writeOut bytes len s).draws = s.draws := rfl

/-! ### Fields after an observed value -/

@[simp] theorem observe_cfg (o : Observation) (s : State) : (observe o s).cfg = s.cfg := rfl
@[simp] theorem observe_pending (o : Observation) (s : State) :
    (observe o s).pending = s.pending := rfl
@[simp] theorem observe_done (o : Observation) (s : State) : (observe o s).done = s.done := rfl
@[simp] theorem observe_err (o : Observation) (s : State) : (observe o s).err = s.err := rfl
@[simp] theorem observe_overrun (o : Observation) (s : State) :
    (observe o s).overrun = s.overrun := rfl
@[simp] theorem observe_tv (o : Observation) (s : State) : (observe o s).tv = s.tv := rfl
@[simp] theorem observe_cv (o : Observation) (s : State) : (observe o s).cv = s.cv := rfl
@[simp] theorem observe_bv (o : Observation) (s : State) : (observe o s).bv = s.bv := rfl
@[simp] theorem observe_errCode (o : Observation) (s : State) :
    (observe o s).errCode = s.errCode := rfl
@[simp] theorem observe_detail (o : Observation) (s : State) : (observe o s).detail = s.detail := rfl
@[simp] theorem observe_lastOp (o : Observation) (s : State) : (observe o s).lastOp = s.lastOp := rfl
@[simp] theorem observe_errInfo (o : Observation) (s : State) :
    (observe o s).errInfo = s.errInfo := rfl
@[simp] theorem observe_inLen (o : Observation) (s : State) : (observe o s).inLen = s.inLen := rfl
@[simp] theorem observe_outLen (o : Observation) (s : State) : (observe o s).outLen = s.outLen := rfl
@[simp] theorem observe_bitLen (o : Observation) (s : State) : (observe o s).bitLen = s.bitLen := rfl
@[simp] theorem observe_root (o : Observation) (s : State) : (observe o s).root = s.root := rfl
@[simp] theorem observe_winIdx (o : Observation) (s : State) : (observe o s).winIdx = s.winIdx := rfl
@[simp] theorem observe_winSel (o : Observation) (s : State) : (observe o s).winSel = s.winSel := rfl
@[simp] theorem observe_freq (o : Observation) (s : State) : (observe o s).freq = s.freq := rfl
@[simp] theorem observe_nodes (o : Observation) (s : State) : (observe o s).nodes = s.nodes := rfl
@[simp] theorem observe_code (o : Observation) (s : State) : (observe o s).code = s.code := rfl
@[simp] theorem observe_bitbuf (o : Observation) (s : State) : (observe o s).bitbuf = s.bitbuf := rfl
@[simp] theorem observe_inMem (o : Observation) (s : State) : (observe o s).inMem = s.inMem := rfl
@[simp] theorem observe_outMem (o : Observation) (s : State) : (observe o s).outMem = s.outMem := rfl
@[simp] theorem observe_hostProgram (o : Observation) (s : State) :
    (observe o s).hostProgram = s.hostProgram := rfl
@[simp] theorem observe_hostLog (o : Observation) (s : State) :
    (observe o s).hostLog = o :: s.hostLog := rfl
@[simp] theorem observe_schedule (o : Observation) (s : State) :
    (observe o s).schedule = s.schedule := rfl
@[simp] theorem observe_draws (o : Observation) (s : State) : (observe o s).draws = s.draws := rfl

/-! ### Fields after an observed draw (70_reset_and_hazards.md R151) -/

@[simp] theorem observeDraw_cfg (o : Observation) (s : State) :
    (observeDraw o s).cfg = s.cfg := rfl
@[simp] theorem observeDraw_pending (o : Observation) (s : State) :
    (observeDraw o s).pending = s.pending := rfl
@[simp] theorem observeDraw_done (o : Observation) (s : State) :
    (observeDraw o s).done = s.done := rfl
@[simp] theorem observeDraw_err (o : Observation) (s : State) :
    (observeDraw o s).err = s.err := rfl
@[simp] theorem observeDraw_overrun (o : Observation) (s : State) :
    (observeDraw o s).overrun = s.overrun := rfl
@[simp] theorem observeDraw_tv (o : Observation) (s : State) : (observeDraw o s).tv = s.tv := rfl
@[simp] theorem observeDraw_cv (o : Observation) (s : State) : (observeDraw o s).cv = s.cv := rfl
@[simp] theorem observeDraw_bv (o : Observation) (s : State) : (observeDraw o s).bv = s.bv := rfl
@[simp] theorem observeDraw_errCode (o : Observation) (s : State) :
    (observeDraw o s).errCode = s.errCode := rfl
@[simp] theorem observeDraw_detail (o : Observation) (s : State) :
    (observeDraw o s).detail = s.detail := rfl
@[simp] theorem observeDraw_lastOp (o : Observation) (s : State) :
    (observeDraw o s).lastOp = s.lastOp := rfl
@[simp] theorem observeDraw_errInfo (o : Observation) (s : State) :
    (observeDraw o s).errInfo = s.errInfo := rfl
@[simp] theorem observeDraw_inLen (o : Observation) (s : State) :
    (observeDraw o s).inLen = s.inLen := rfl
@[simp] theorem observeDraw_outLen (o : Observation) (s : State) :
    (observeDraw o s).outLen = s.outLen := rfl
@[simp] theorem observeDraw_bitLen (o : Observation) (s : State) :
    (observeDraw o s).bitLen = s.bitLen := rfl
@[simp] theorem observeDraw_root (o : Observation) (s : State) :
    (observeDraw o s).root = s.root := rfl
@[simp] theorem observeDraw_winIdx (o : Observation) (s : State) :
    (observeDraw o s).winIdx = s.winIdx := rfl
@[simp] theorem observeDraw_winSel (o : Observation) (s : State) :
    (observeDraw o s).winSel = s.winSel := rfl
@[simp] theorem observeDraw_freq (o : Observation) (s : State) :
    (observeDraw o s).freq = s.freq := rfl
@[simp] theorem observeDraw_nodes (o : Observation) (s : State) :
    (observeDraw o s).nodes = s.nodes := rfl
@[simp] theorem observeDraw_code (o : Observation) (s : State) :
    (observeDraw o s).code = s.code := rfl
@[simp] theorem observeDraw_bitbuf (o : Observation) (s : State) :
    (observeDraw o s).bitbuf = s.bitbuf := rfl
@[simp] theorem observeDraw_inMem (o : Observation) (s : State) :
    (observeDraw o s).inMem = s.inMem := rfl
@[simp] theorem observeDraw_outMem (o : Observation) (s : State) :
    (observeDraw o s).outMem = s.outMem := rfl
@[simp] theorem observeDraw_hostProgram (o : Observation) (s : State) :
    (observeDraw o s).hostProgram = s.hostProgram := rfl
@[simp] theorem observeDraw_hostLog (o : Observation) (s : State) :
    (observeDraw o s).hostLog = o :: s.hostLog := rfl
@[simp] theorem observeDraw_schedule (o : Observation) (s : State) :
    (observeDraw o s).schedule = s.schedule := rfl
@[simp] theorem observeDraw_draws (o : Observation) (s : State) :
    (observeDraw o s).draws = s.draws + 1 := rfl

/-! ### Fields after the Reset transaction (70_reset_and_hazards.md R148) -/

@[simp] theorem resetCore_cfg (s : State) : (resetCore s).cfg = s.cfg := rfl
@[simp] theorem resetCore_pending (s : State) : (resetCore s).pending = none := rfl
@[simp] theorem resetCore_done (s : State) : (resetCore s).done = false := rfl
@[simp] theorem resetCore_err (s : State) : (resetCore s).err = false := rfl
@[simp] theorem resetCore_overrun (s : State) : (resetCore s).overrun = false := rfl
@[simp] theorem resetCore_tv (s : State) : (resetCore s).tv = false := rfl
@[simp] theorem resetCore_cv (s : State) : (resetCore s).cv = false := rfl
@[simp] theorem resetCore_bv (s : State) : (resetCore s).bv = false := rfl
@[simp] theorem resetCore_errCode (s : State) : (resetCore s).errCode = .none := rfl
@[simp] theorem resetCore_detail (s : State) : (resetCore s).detail = 0 := rfl
@[simp] theorem resetCore_lastOp (s : State) : (resetCore s).lastOp = 0 := rfl
@[simp] theorem resetCore_errInfo (s : State) : (resetCore s).errInfo = 0 := rfl
@[simp] theorem resetCore_inLen (s : State) : (resetCore s).inLen = 0 := rfl
@[simp] theorem resetCore_outLen (s : State) : (resetCore s).outLen = 0 := rfl
@[simp] theorem resetCore_bitLen (s : State) : (resetCore s).bitLen = 0 := rfl
@[simp] theorem resetCore_root (s : State) : (resetCore s).root = none := rfl
@[simp] theorem resetCore_winIdx (s : State) : (resetCore s).winIdx = 0 := rfl
@[simp] theorem resetCore_winSel (s : State) : (resetCore s).winSel = 0 := rfl
@[simp] theorem resetCore_freq (s : State) : (resetCore s).freq = Vector.replicate 256 0 := rfl
@[simp] theorem resetCore_nodes (s : State) : (resetCore s).nodes = [] := rfl
@[simp] theorem resetCore_code (s : State) : (resetCore s).code = Vector.replicate 256 [] := rfl
@[simp] theorem resetCore_bitbuf (s : State) : (resetCore s).bitbuf = [] := rfl
@[simp] theorem resetCore_inMem (s : State) : (resetCore s).inMem = [] := rfl
@[simp] theorem resetCore_outMem (s : State) : (resetCore s).outMem = [] := rfl
@[simp] theorem resetCore_hostProgram (s : State) : (resetCore s).hostProgram = s.hostProgram := rfl
@[simp] theorem resetCore_hostLog (s : State) : (resetCore s).hostLog = s.hostLog := rfl
@[simp] theorem resetCore_schedule (s : State) : (resetCore s).schedule = s.schedule := rfl
@[simp] theorem resetCore_draws (s : State) : (resetCore s).draws = s.draws := rfl

end Sys2Proof.Machine
end

