-- ==== Sys2Proof/Laws/Ops.lean ====
section
/-! SUPPORT. The shared operations: everything a command, a body and a tree walk can do. -/

namespace Sys2Proof.Machine

open Sys2Proof

/-! ## Commands and bodies -/

/-- No command answers with a refusal. -/
theorem finish_not_refused (b : Body) (r : Refusal) : finish b ≠ .refused r := by
  cases b <;> simp [finish]

/-- If a command answers a next state, then its pre-check failed and only the error is recorded, or its body ended, or its
body raised an error (60_exceptions.md R127, R129). -/
theorem runCommand_next {n : Need} {r : Bool} {body : State → Body} {s t : State}
    (h : runCommand n r body s = .next t) :
    (∃ e, precheck n r s = some e ∧ t = completeError e s) ∨
    (precheck n r s = none ∧ ∃ s', body s = .done s' ∧ t = completeOk s') ∨
    (precheck n r s = none ∧ ∃ e s', body s = .raised e s' ∧ t = completeError e s') := by
  unfold runCommand at h
  split at h
  · next e he => exact .inl ⟨e, he, by simpa using h.symm⟩
  · next he =>
    cases hb : body s with
    | done s' => exact .inr (.inl ⟨he, s', rfl, by simpa [hb, finish] using h.symm⟩)
    | raised e s' => exact .inr (.inr ⟨he, e, s', rfl, by simpa [hb, finish] using h.symm⟩)
    | faulted f => simp [hb, finish] at h

/-- If a command stops with a fault, then its body did. -/
theorem runCommand_fault {n : Need} {r : Bool} {body : State → Body} {s : State} {f : Fault}
    (h : runCommand n r body s = .fault f) : precheck n r s = none ∧ body s = .faulted f := by
  unfold runCommand at h
  split at h
  · simp at h
  · next he =>
    cases hb : body s with
    | done s' => simp [hb, finish] at h
    | raised e s' => simp [hb, finish] at h
    | faulted g => exact ⟨he, by simpa [hb, finish] using h⟩

/-- No command is refused. -/
theorem runCommand_not_refused (n : Need) (r : Bool) (body : State → Body) (s : State) (x : Refusal) :
    runCommand n r body s ≠ .refused x := by
  unfold runCommand
  split
  · simp
  · exact finish_not_refused _ _

/-- A command whose pre-checks pass and whose body ends completes without error. -/
theorem runCommand_of_done {n : Need} {r : Bool} {body : State → Body} {s t : State}
    (hp : precheck n r s = none) (hb : body s = .done t) : runCommand n r body s = .next (completeOk t) := by
  simp [runCommand, hp, hb, finish]

/-- A command whose pre-checks pass and whose body raises completes with that error. -/
theorem runCommand_of_raised {n : Need} {r : Bool} {body : State → Body} {s t : State} {e : CmdError}
    (hp : precheck n r s = none) (hb : body s = .raised e t) :
    runCommand n r body s = .next (completeError e t) := by
  simp [runCommand, hp, hb, finish]

/-- The pre-checks pass exactly when no required flag is 0 and, for a command that reads IN, IN_LEN is at most IN_CAP
(60_exceptions.md R129). -/
theorem precheck_none_iff (n : Need) (r : Bool) (s : State) :
    precheck n r s = none ↔ missingMask n s = 0 ∧ (r = true → s.inLen.toNat ≤ s.cfg.inCap) := by
  unfold precheck
  by_cases hm : missingMask n s = 0
  · rw [if_neg (by simpa using hm)]
    cases r
    · simp [hm]
    · simp only [Bool.true_and, hm, true_and, forall_const]
      by_cases hc : s.cfg.inCap < s.inLen.toNat
      · simp [hc]
      · simpa [hc] using Nat.le_of_not_lt hc
  · rw [if_pos (by simpa using hm)]
    simpa using fun h => absurd h hm

/-- No flag is missing exactly when every required one is set. -/
theorem missingMask_eq_zero_iff (n : Need) (s : State) :
    missingMask n s = 0 ↔ (n.tv = true → s.tv = true) ∧ (n.cv = true → s.cv = true) ∧ (n.bv = true → s.bv = true) := by
  unfold missingMask
  cases n.tv <;> cases n.cv <;> cases n.bv <;> cases s.tv <;> cases s.cv <;> cases s.bv <;> simp

/-- If a sequence of two bodies ends, the first ended and the second ended from there. -/
theorem Body.andThen_done {b : Body} {k : State → Body} {t : State} (h : b.andThen k = .done t) :
    ∃ s, b = .done s ∧ k s = .done t := by
  cases b with
  | done s => exact ⟨s, rfl, h⟩
  | raised e s => simp [Body.andThen] at h
  | faulted f => simp [Body.andThen] at h

/-- If a sequence of two bodies raises, the first raised, or it ended and the second raised from there. -/
theorem Body.andThen_raised {b : Body} {k : State → Body} {e : CmdError} {t : State}
    (h : b.andThen k = .raised e t) : b = .raised e t ∨ ∃ s, b = .done s ∧ k s = .raised e t := by
  cases b with
  | done s => exact .inr ⟨s, rfl, h⟩
  | raised e' s => exact .inl (by simpa [Body.andThen] using h)
  | faulted f => simp [Body.andThen] at h

/-- Losing OUT changes no ending body. -/
theorem Body.losingOut_done {b : Body} {t : State} (h : b.losingOut = .done t) : b = .done t := by
  cases b <;> simp_all [Body.losingOut]

/-- A body that raises with OUT lost raised the same error. -/
theorem Body.losingOut_raised {b : Body} {e : CmdError} {t : State} (h : b.losingOut = .raised e t) :
    ∃ s, b = .raised e s ∧ t = outLost s := by
  cases b with
  | done s => simp [Body.losingOut] at h
  | raised e' s =>
    simp only [Body.losingOut, Body.raised.injEq] at h
    exact ⟨s, by rw [h.1], h.2.symm⟩
  | faulted f => simp [Body.losingOut] at h

@[simp] theorem Body.ofExcept_ok {α : Type} (a : α) (s : State) (k : α → Body) :
    Body.ofExcept (.ok a) s k = k a := rfl

@[simp] theorem Body.ofExcept_error {α : Type} (e : CmdError) (s : State) (k : α → Body) :
    Body.ofExcept (.error (.error e)) s k = .raised e s := rfl

@[simp] theorem Body.ofExcept_fault {α : Type} (f : Fault) (s : State) (k : α → Body) :
    Body.ofExcept (.error (.fault f)) s k = .faulted f := rfl

/-! ## Bytes and bits -/

@[simp] theorem be64Bytes_length (v : Word) : (be64Bytes v).length = 8 := rfl

/-- `be64` inverts `be64_bytes` (00_scope.md R14). -/
@[simp] theorem be64_be64Bytes (v : Word) : be64 (be64Bytes v) = v := by
  apply BitVec.eq_of_toNat_eq
  have hv := v.isLt
  simp only [be64, be64Bytes, beNat, BitVec.toNat_ofNat, BitVec.extractLsb'_toNat, Nat.shiftRight_eq_div_pow]
  omega

/-- The bytes of a packed sequence are `p` (00_scope.md R15). -/
@[simp] theorem packBytes_length (p : Nat) : ∀ bits : Bits, (packBytes p bits).length = p := by
  induction p with
  | zero => intro bits; rfl
  | succ p ih => intro bits; simp [packBytes, ih]

/-- The number of the first `n` bits fits `n` digits. -/
theorem msbNat_lt (n : Nat) : ∀ bits : Bits, msbNat n bits < 2 ^ n := by
  induction n with
  | zero => intro bits; simp [msbNat]
  | succ n ih =>
    intro bits
    have h1 := ih bits.tail
    have h2 : (bits.headD false).toNat ≤ 1 := Bool.toNat_le _
    have h3 : (bits.headD false).toNat * 2 ^ n ≤ 1 * 2 ^ n := Nat.mul_le_mul_right _ h2
    rw [msbNat, Nat.pow_succ]
    omega

/-- `ceil8` rounds up to whole bytes (00_scope.md R15). -/
theorem ceil8_bounds (n : Nat) : n ≤ 8 * ceil8 n ∧ 8 * ceil8 n < n + 8 := by
  unfold ceil8
  split <;> omega

/-! ## The tree walk -/

/-- The walk answers at most as many records as it has fuel. -/
theorem traverse_length (nodes : List Node) : ∀ (fuel : Nat) (stack : List (Nat × Bits)) (vs : List (Node × Bits)),
    traverse nodes fuel stack = .ok vs → vs.length ≤ fuel := by
  intro fuel
  induction fuel with
  | zero =>
    intro stack vs h
    cases stack with
    | nil => simp only [traverse, Except.ok.injEq] at h; subst h; simp
    | cons a st => simp [traverse] at h
  | succ fuel ih =>
    intro stack vs h
    cases stack with
    | nil => simp only [traverse, Except.ok.injEq] at h; subst h; simp
    | cons a st =>
      obtain ⟨n, p⟩ := a
      simp only [traverse] at h
      split at h
      · simp at h
      · split at h
        · simp at h
        · next hr => simp only [Except.ok.injEq] at h; subst h; simpa using ih _ _ hr
      · split at h
        · simp at h
        · next hr => simp only [Except.ok.injEq] at h; subst h; simpa using ih _ _ hr

/-- The walk raises no command error: it answers, or stops at `treeBroken` (log entry 7). -/
theorem traverse_error (nodes : List Node) : ∀ (fuel : Nat) (stack : List (Nat × Bits)) (e : Stop),
    traverse nodes fuel stack = .error e → e = .fault .treeBroken := by
  intro fuel
  induction fuel with
  | zero =>
    intro stack e h
    cases stack with
    | nil => simp [traverse] at h
    | cons a st => simpa [traverse] using h.symm
  | succ fuel ih =>
    intro stack e h
    cases stack with
    | nil => simp [traverse] at h
    | cons a st =>
      obtain ⟨n, p⟩ := a
      simp only [traverse] at h
      split at h
      · simpa using h.symm
      · split at h
        · next hr => simp only [Except.error.injEq] at h; subst h; exact ih _ _ hr
        · simp at h
      · split at h
        · next hr => simp only [Except.error.injEq] at h; subst h; exact ih _ _ hr
        · simp at h

end Sys2Proof.Machine
end

