-- ==== Sys2Proof/Laws/PerInstr.lean ====
section
/-! SUPPORT. Statements for all commands, one lemma per constructor: each command's word is legal and has its fields where
30_encoding.md R66 puts them. -/

namespace Sys2Proof.Laws.Encoding

open Sys2Proof

/-- The word of a command meets the legality check of 60_exceptions.md R129 item 1, its RSVD field is 0 and the word is its
OPCODE field alone (30_encoding.md R66); and the command is well formed. -/
def Statement (i : Instr) : Prop :=
  legalWord (encode i) = true ∧ rsvdField (encode i) = 0 ∧ (opcodeField (encode i)).setWidth 64 = encode i ∧
    i.wellFormed = true

theorem nop : Statement .nop := by unfold Statement; decide
theorem count : Statement .count := by unfold Statement; decide
theorem build : Statement .build := by unfold Statement; decide
theorem gencodes : Statement .gencodes := by unfold Statement; decide
theorem encode : Statement .encode := by unfold Statement; decide
theorem serialize : Statement .serialize := by unfold Statement; decide
theorem deserialize : Statement .deserialize := by unfold Statement; decide
theorem decode : Statement .decode := by unfold Statement; decide
theorem compress : Statement .compress := by unfold Statement; decide
theorem uncompress : Statement .uncompress := by unfold Statement; decide
theorem clear : Statement .clear := by unfold Statement; decide

end Sys2Proof.Laws.Encoding
end

