-- ==== Sys2Proof/Laws/Tree.lean ====
section
/-! SUPPORT. The walk of a stored tree: on a full tree `traverse` answers its records in pre-order with their paths, which
give the tree block and the leaf paths; and when a malformed container is rejected. -/

namespace Sys2Proof.Machine

open Sys2Proof

/-- The number of records of a tree. -/
def HuffTree.size : HuffTree → Nat
  | .leaf _ _ => 1
  | .node _ l r => HuffTree.size l + HuffTree.size r + 1

/-- The records of the tree held at index `i`, in pre-order, each with its path after `p`. -/
def visitsOf (nodes : List Node) : Nat → HuffTree → Bits → List (Node × Bits)
  | _, .leaf w sym, p => [(.leaf w sym, p)]
  | i, .node _ l r, p =>
    match nodes[i]? with
    | some (.internal w a b) =>
      (.internal w a b, p) :: (visitsOf nodes a.toNat l (p ++ [false]) ++ visitsOf nodes b.toNat r (p ++ [true]))
    | _ => []

/-- The walk visits a held tree before the rest of its stack, one unit of fuel per record. -/
theorem traverse_holdsAt (nodes : List Node) (t : HuffTree) : ∀ (i : Nat) (p : Bits) (fuel : Nat)
    (stack : List (Nat × Bits)), holdsAt nodes i t →
    traverse nodes (HuffTree.size t + fuel) ((i, p) :: stack) =
      (traverse nodes fuel stack).map (visitsOf nodes i t p ++ ·) := by
  induction t with
  | leaf w sym =>
    intro i p fuel stack h
    simp only [holdsAt] at h
    rw [show HuffTree.size (.leaf w sym) + fuel = fuel + 1 by simp only [HuffTree.size]; omega]
    simp only [traverse, h, visitsOf]
    cases traverse nodes fuel stack <;> rfl
  | node w l r ihl ihr =>
    intro i p fuel stack h
    obtain ⟨a, b, hi, hl, hr⟩ := h
    rw [show HuffTree.size (.node w l r) + fuel = (HuffTree.size l + (HuffTree.size r + fuel)) + 1 by
      simp only [HuffTree.size]; omega]
    simp only [traverse, hi, visitsOf]
    rw [ihl _ _ _ _ hl, ihr _ _ _ _ hr]
    cases traverse nodes fuel stack with
    | error e => rfl
    | ok vs => simp [Except.map]

/-- A held tree has as many indices as records. -/
theorem indicesOf_length (nodes : List Node) (t : HuffTree) : ∀ i, holdsAt nodes i t →
    (indicesOf nodes i t).length = HuffTree.size t := by
  induction t with
  | leaf w sym => intro i _; rfl
  | node w l r ihl ihr =>
    intro i h
    obtain ⟨a, b, hi, hl, hr⟩ := h
    simp only [indicesOf, hi, HuffTree.size, List.length_cons, List.length_append, ihl _ hl, ihr _ hr]

/-- A store that holds a full tree has exactly its records. -/
theorem size_of_fullTree {nodes : List Node} {i : Nat} {t : HuffTree} (h : fullTree nodes i t) :
    nodes.length = HuffTree.size t := by
  have hp := h.2.1.length_eq
  rw [indicesOf_length nodes t i h.1, List.length_range] at hp
  exact hp.symm

/-- On a full tree the walk of GENCODES and SERIALIZE answers all its records. -/
theorem traverse_fullTree {nodes : List Node} {i : Nat} {t : HuffTree} (h : fullTree nodes i t) (p : Bits) :
    traverse nodes nodes.length [(i, p)] = .ok (visitsOf nodes i t p) := by
  have ht := traverse_holdsAt nodes t i p 0 [] h.1
  rw [Nat.add_zero, ← size_of_fullTree h] at ht
  rw [ht]
  simp [traverse, Except.map]

/-- The bytes of the records of a held tree are its tree block (30_encoding.md R72). -/
theorem recordBytes_visitsOf (nodes : List Node) (t : HuffTree) : ∀ (i : Nat) (p : Bits), holdsAt nodes i t →
    (visitsOf nodes i t p).flatMap (fun v => recordBytes v.1) = t.block := by
  induction t with
  | leaf w sym => intro i p _; simp [visitsOf, recordBytes, HuffTree.block]
  | node w l r ihl ihr =>
    intro i p h
    obtain ⟨a, b, hi, hl, hr⟩ := h
    simp only [visitsOf, hi]
    rw [List.flatMap_cons, List.flatMap_append, ihl _ _ hl, ihr _ _ hr]
    simp [recordBytes, HuffTree.block]

/-- The leaf and its path of a visit, if the record is a leaf. -/
def leafVisit (v : Node × Bits) : Option (Byte × Bits) :=
  match v.1 with
  | .leaf _ sym => some (sym, v.2)
  | .internal _ _ _ => none

/-- The leaves visited are the tree's symbols with their paths (42_code_table.md R89). -/
theorem leaves_visitsOf (nodes : List Node) (t : HuffTree) : ∀ (i : Nat) (p : Bits), holdsAt nodes i t →
    (visitsOf nodes i t p).filterMap leafVisit = t.paths p := by
  induction t with
  | leaf w sym => intro i p _; simp [visitsOf, leafVisit, HuffTree.paths]
  | node w l r ihl ihr =>
    intro i p h
    obtain ⟨a, b, hi, hl, hr⟩ := h
    simp only [visitsOf, hi]
    rw [List.filterMap_cons_none (by rfl), List.filterMap_append, ihl _ _ hl, ihr _ _ hr, HuffTree.paths]

/-- GENCODES' fold over all visits is the fold over the leaves alone. -/
theorem foldl_setCode (vs : List (Node × Bits)) : ∀ code : Vector Bits 256,
    vs.foldl setCode code =
      (vs.filterMap leafVisit).foldl (fun c (x : Byte × Bits) => c.set x.1.toNat x.2 x.1.isLt) code := by
  induction vs with
  | nil => intro code; rfl
  | cons v vs ih =>
    intro code
    obtain ⟨n, p⟩ := v
    cases n with
    | leaf w sym =>
      rw [List.filterMap_cons_some (b := (sym, p)) (by rfl)]
      exact ih _
    | internal w l r =>
      rw [List.filterMap_cons_none (by rfl)]
      exact ih _

/-! ## Malformed containers -/

@[simp] theorem TreeRecord.bytes_length (r : TreeRecord) :
    r.bytes.length = if r.symbol.isSome then 10 else 9 := by
  obtain ⟨w, sym⟩ := r
  cases sym <;> rfl

@[simp] theorem posAfter_nil : posAfter [] = 8 := rfl

@[simp] theorem seenSymbols_nil : seenSymbols [] = [] := rfl

/-- When the parser raises an error on an input that fits IN_CAP, DESERIALIZE and UNCOMPRESS reject the container with it
(44_container.md R106, 45_orchestration.md R116, 60_exceptions.md R136). -/
theorem containerRejected_of_parse {s : State} {code : ErrCode} {detail : Byte} {info : Nat}
    (hin : s.inLen.toNat ≤ s.cfg.inCap)
    (hp : parseContainer s.inMem s.inLen.toNat s.cfg.bitbufCap =
      .error (.error { code := code, detail := detail, info := BitVec.ofNat 64 info })) :
    containerRejected s code detail info := by
  have hpre : precheck Need.nothing true s = none := (precheck_none_iff _ _ _).2 ⟨rfl, fun _ => hin⟩
  have hb : deserializeBody s =
      .raised { code := code, detail := detail, info := BitVec.ofNat 64 info } (invalidateAll s) := by
    rw [deserializeBody, hp, Body.ofExcept_error]
  have hu : (uncompressBody s).losingOut =
      .raised { code := code, detail := detail, info := BitVec.ofNat 64 info } (outLost (invalidateAll s)) := by
    rw [uncompressBody, hb]
    rfl
  exact ⟨runCommand_of_raised hpre hb, runCommand_of_raised (body := fun s => (uncompressBody s).losingOut) hpre hu⟩

end Sys2Proof.Machine
end

