-- ==== Sys2Proof/Tests/Slice0.lean ====
section
/-! SUPPORT. Tests of the model: ill-formed terms, decodings, one-step checks with results from the spec's vectors
(95_test_vectors.md) and rules, and for every statement with hypotheses a state that meets them. -/

-- One theorem at a time: hundreds of threads of large stacks do not fit a bounded memory.
set_option Elab.async false

namespace Sys2Proof.Tests

open Sys2Proof Sys2Proof.Machine

/-! ## Helpers -/

/-- Bytes as memory cells from address `a` on. -/
def cells : Nat → List Byte → Memory
  | _, [] => []
  | a, b :: bs => (a, b) :: cells (a + 1) bs

/-- The reset state with an input loaded (30_encoding.md R77 LOADIN). -/
def loaded (bytes : List Byte) : State :=
  { State.reset with inMem := cells 0 bytes, inLen := BitVec.ofNat 64 bytes.length }

/-- What a projection shows of a next state. -/
def see {α : Type} (f : State → α) (o : Host.Outcome State Fault Refusal) : Option α :=
  match o with
  | .next s => some (f s)
  | .fault _ => none
  | .refused _ => none

/-- The fault an outcome stops with. -/
def faultOf (o : Host.Outcome State Fault Refusal) : Option Fault :=
  match o with
  | .next _ => none
  | .fault f => some f
  | .refused _ => none

theorem next_of_see {o : Host.Outcome State Fault Refusal} {p : State → Bool} (h : see p o = some true) :
    ∃ t, o = .next t ∧ p t = true := by
  cases o with
  | next s => exact ⟨s, rfl, by simpa [see] using h⟩
  | fault f => simp [see] at h
  | refused r => simp [see] at h

/-- "abbccc" (95_test_vectors.md P1). -/
def abbccc : List Byte := [0x61, 0x62, 0x62, 0x63, 0x63, 0x63]

/-- The frequency table a:1, b:2, c:3 (95_test_vectors.md V-SRC-1). -/
def abcFreq : Vector Word 256 := ((Vector.replicate 256 0).set 0x61 1).set 0x62 2 |>.set 0x63 3

/-- The code table c:0, a:10, b:11 (95_test_vectors.md V-SRC-1). -/
def abcCode : Vector Bits 256 :=
  ((Vector.replicate 256 []).set 0x61 [true, false]).set 0x62 [true, true] |>.set 0x63 [false]

/-- The arena of 95_test_vectors.md V-SRC-1. -/
def abcNodes : List Node :=
  [.leaf 1 0x61, .leaf 2 0x62, .leaf 3 0x63, .internal 3 0 1, .internal 6 2 3]

/-- The tree of 95_test_vectors.md V-SRC-1. -/
def abcTree : HuffTree := .node 6 (.leaf 3 0x63) (.node 3 (.leaf 1 0x61) (.leaf 2 0x62))

/-- A core that holds the tree, codes and bits of "abbccc", with "abbccc" in IN (95_test_vectors.md V-ENC-1). -/
def abc : State :=
  { loaded abbccc with
    freq := abcFreq, nodes := abcNodes, root := some 4, code := abcCode, bitLen := 9, bitbuf := [0xBC, 0x00],
    tv := true, cv := true, bv := true }

/-- The 66-byte container of "abbccc" (30_encoding.md R75). -/
def abcContainer : List Byte :=
  [0, 0, 0, 0, 0, 0, 0, 0x30, 1, 0, 0, 0, 0, 0, 0, 0, 6, 0, 0, 0, 0, 0, 0, 0, 0, 3, 0x63,
   1, 0, 0, 0, 0, 0, 0, 0, 3, 0, 0, 0, 0, 0, 0, 0, 0, 1, 0x61, 0, 0, 0, 0, 0, 0, 0, 0, 2, 0x62] ++
  [0, 0, 0, 0, 0, 0, 0, 9, 0xBC, 0x00]

/-- The arena of a one-symbol tree of 'A' (95_test_vectors.md V-BLD-2), with `bits` in the bit buffer. -/
def onlyA (bits : Bits) : State :=
  { State.reset with
    nodes := [.leaf 3 0x41], root := some 0, tv := true, bv := true, bitLen := BitVec.ofNat 64 bits.length,
    bitbuf := packBytes (ceil8 bits.length) bits }

/-! ## Ill-formed terms: each check refuses one -/

theorem test_reserved_opcode_is_illegal : legalWord 0x0B = false ∧ legalWord 0xFF = false := by decide
theorem test_rsvd_bit_is_illegal : legalWord 0x100 = false ∧ legalWord 0x8000000000000008 = false := by decide
theorem test_last_opcode_is_legal : legalWord 0x0A = true := by decide
theorem test_small_in_cap_is_invalid : Config.valid { Config.cfg0 with inCap := 15 } = false := by decide
theorem test_large_in_cap_is_invalid : Config.valid { Config.cfg0 with inCap := 2 ^ 48 + 1 } = false := by decide
theorem test_small_out_cap_is_invalid : Config.valid { Config.cfg0 with outCap := 15 } = false := by decide
theorem test_large_out_cap_is_invalid : Config.valid { Config.cfg0 with outCap := 2 ^ 56 + 1 } = false := by decide
theorem test_no_bit_buffer_is_invalid : Config.valid { Config.cfg0 with bitbufCap := 0 } = false := by decide
theorem test_large_bit_buffer_is_invalid : Config.valid { Config.cfg0 with bitbufCap := 2 ^ 56 + 1 } = false := by decide
theorem test_cfg0_is_conforming : Config.cfg0.conforming = true := by decide
theorem test_short_out_cap_is_not_conforming : Config.conforming { Config.cfg0 with outCap := 70406 } = false := by decide
theorem test_short_bit_buffer_is_not_conforming : Config.conforming { Config.cfg0 with bitbufCap := 65535 } = false := by
  decide
theorem test_unsorted_memory_is_not_canonical : Memory.wf [(1, 0), (1, 0)] = false ∧ Memory.wf [(2, 0), (1, 0)] = false := by
  decide
theorem test_wrong_status_is_inconsistent : statusInv { State.reset with done := true, err := true } = false := by decide
theorem test_narrow_access_is_forbidden :
    forbidden (.txn (.partRegAccess 0)) State.reset = true ∧ forbidden (.txn (.wideMemAccess 0)) State.reset = true ∧
    forbidden (.txn (.outWrite 0 0)) State.reset = true ∧ forbidden (.txn (.regRead 0x100)) State.reset = true ∧
    forbidden (.txn (.regRead 0x14)) State.reset = true := by decide

/-! ## Decoding: the OPCODE values of 30_encoding.md R68, RSVD = 0, written out as 64 bits -/

theorem test_decode_nop :
    decode 0b0000000000000000000000000000000000000000000000000000000000000000#64 = .ok .nop := by rfl
theorem test_decode_count :
    decode 0b0000000000000000000000000000000000000000000000000000000000000001#64 = .ok .count := by rfl
theorem test_decode_build :
    decode 0b0000000000000000000000000000000000000000000000000000000000000010#64 = .ok .build := by rfl
theorem test_decode_gencodes :
    decode 0b0000000000000000000000000000000000000000000000000000000000000011#64 = .ok .gencodes := by rfl
theorem test_decode_encode :
    decode 0b0000000000000000000000000000000000000000000000000000000000000100#64 = .ok .encode := by rfl
theorem test_decode_serialize :
    decode 0b0000000000000000000000000000000000000000000000000000000000000101#64 = .ok .serialize := by rfl
theorem test_decode_deserialize :
    decode 0b0000000000000000000000000000000000000000000000000000000000000110#64 = .ok .deserialize := by rfl
theorem test_decode_decode :
    decode 0b0000000000000000000000000000000000000000000000000000000000000111#64 = .ok .decode := by rfl
theorem test_decode_compress :
    decode 0b0000000000000000000000000000000000000000000000000000000000001000#64 = .ok .compress := by rfl
theorem test_decode_uncompress :
    decode 0b0000000000000000000000000000000000000000000000000000000000001001#64 = .ok .uncompress := by rfl
theorem test_decode_clear :
    decode 0b0000000000000000000000000000000000000000000000000000000000001010#64 = .ok .clear := by rfl
theorem test_decode_reserved :
    decode 0b0000000000000000000000000000000000000000000000000000000000001011#64 = .error .reservedOpcode := by rfl
theorem test_decode_rsvd :
    decode 0b0000000000000000000000000000000000000000000000000000000100000000#64 = .error .rsvdNonzero := by rfl

/-! ## One step each -/

/-- 95_test_vectors.md V-CTL-1. -/
theorem test_nop_status : see statusIdle (step (State.reset.withFetchWord 64 0)) = some 0x2 := by decide +kernel

/-- 95_test_vectors.md V-CTL-2: a NOP after an error acknowledges it. -/
theorem test_nop_acknowledges_error :
    see (fun s => (statusIdle s, s.errInfo))
      (step ({ abc with bv := false, err := true, errCode := .noCode, errInfo := 2 }.withFetchWord 64 0)) =
      some (0x32, 0) := by decide +kernel

/-- 95_test_vectors.md V-CNT-1. -/
theorem test_count_abbccc :
    see (fun s => (s.freq, statusIdle s)) (step ((loaded abbccc).withFetchWord 64 1)) = some (abcFreq, 0x01000002) := by
  decide +kernel

/-- 95_test_vectors.md V-CNT-4: FREQ is replaced. -/
theorem test_count_replaces :
    see (fun s => (freqOf s.freq 0x41, freqOf s.freq 0x62))
      (exec .count { loaded [0x62] with freq := (Vector.replicate 256 0).set 0x41 9 }) = some (0, 1) := by decide +kernel

/-- 95_test_vectors.md V-BLD-1. -/
theorem test_build_abc :
    see (fun s => (s.nodes, s.root, statusIdle s)) (step ({ State.reset with freq := abcFreq }.withFetchWord 64 2)) =
      some (abcNodes, some 4, 0x02000012) := by decide +kernel

/-- 95_test_vectors.md V-BLD-10: weights are ordered unsigned. -/
theorem test_build_unsigned_order :
    see (fun s => s.nodes)
      (exec .build { State.reset with
        freq := ((Vector.replicate 256 0).set 3 0x8000000000000000).set 7 0x7FFFFFFFFFFFFFFF }) =
      some [.leaf 0x8000000000000000 3, .leaf 0x7FFFFFFFFFFFFFFF 7, .internal 0xFFFFFFFFFFFFFFFF 1 0] := by
  decide +kernel

/-- 95_test_vectors.md V-GEN-2. -/
theorem test_gencodes_abc :
    see (fun s => (s.code, s.cv))
      (exec .gencodes { abc with code := Vector.replicate 256 [], cv := false }) = some (abcCode, true) := by decide +kernel

/-- 95_test_vectors.md V-GEN-4. -/
theorem test_gencodes_single_leaf :
    see (fun s => (codeOf s.code 0x41, codeOf s.code 0x42)) (exec .gencodes (onlyA [])) = some ([false], []) := by
  decide +kernel

/-- 95_test_vectors.md V-ENC-1. -/
theorem test_encode_abbccc :
    see (fun s => (s.bitLen, s.bitbuf, statusIdle s))
      (step ({ abc with bv := false, bitLen := 0, bitbuf := [] }.withFetchWord 64 4)) =
      some (9, [0xBC, 0x00], 0x04000072) := by decide +kernel

/-- 95_test_vectors.md V-ENC-4: IN = "abd". -/
theorem test_encode_no_code :
    see (fun s => (statusIdle s, s.errInfo, s.bitLen))
      (step ({ abc with inMem := cells 0 [0x61, 0x62, 0x64], inLen := 3 }.withFetchWord 64 4)) =
      some (0x04000834, 2, 0) := by decide +kernel

/-- 95_test_vectors.md V-SER-1. -/
theorem test_serialize_abc :
    see (fun s => (s.outMem, s.outLen)) (exec .serialize abc) = some (cells 0 abcContainer, 66) := by decide +kernel

/-- 95_test_vectors.md V-SER-5: OUT_CAP = 64. -/
theorem test_serialize_overflow :
    see (fun s => (statusIdle s, s.errInfo, s.outLen))
      (step ({ abc with cfg := { Config.cfg0 with outCap := 64 }, outLen := 5 }.withFetchWord 64 5)) =
      some (0x05000674, 66, 0) := by decide +kernel

/-- 95_test_vectors.md V-DES-1. -/
theorem test_deserialize_container :
    see (fun s => (s.nodes, s.root, s.bitLen, s.bitbuf, statusIdle s))
      (step ((loaded abcContainer).withFetchWord 64 6)) =
      some ([.internal 6 1 2, .leaf 3 0x63, .internal 3 3 4, .leaf 1 0x61, .leaf 2 0x62], some 0, 9, [0xBC, 0x00],
        0x06000052) := by decide +kernel

/-- 95_test_vectors.md V-DES-6: an Internal record whose children do not fit. -/
theorem test_deserialize_tree_overrun :
    see (fun s => (statusIdle s, s.errInfo))
      (step ((loaded (be64Bytes 9 ++ 1 :: be64Bytes 5 ++ be64Bytes 0)).withFetchWord 64 6)) =
      some (0x06030104, 17) := by decide +kernel

/-- 95_test_vectors.md V-DEC-1. -/
theorem test_decode_abbccc :
    see (fun s => (s.outMem, s.outLen)) (exec .decode abc) = some (cells 0 abbccc, 6) := by decide +kernel

/-- 95_test_vectors.md V-DEC-5: a Leaf root, bits 0 1 0. -/
theorem test_decode_leaf_root_one :
    see (fun s => (statusIdle s, s.errInfo)) (step ((onlyA [false, true, false]).withFetchWord 64 7)) =
      some (0x070E0154, 1) := by decide +kernel

/-- 95_test_vectors.md V-CMP-2. -/
theorem test_compress_abbccc :
    see (fun s => (s.outMem, s.nodes, s.root, statusIdle s)) (step ((loaded abbccc).withFetchWord 64 8)) =
      some (cells 0 abcContainer, abcNodes, some 4, 0x08000072) := by decide +kernel

/-- 95_test_vectors.md V-CMP-6: BITBUF_CAP = 1. -/
theorem test_compress_bit_buffer_overflow :
    see (fun s => (statusIdle s, s.errInfo, s.outLen))
      (step ({ loaded abbccc with cfg := { Config.cfg0 with bitbufCap := 1 } }.withFetchWord 64 8)) =
      some (0x08000734, 2, 0) := by decide +kernel

/-- 95_test_vectors.md V-UNC-1. -/
theorem test_uncompress_container :
    see (fun s => (s.outMem, s.outLen, statusIdle s)) (step ((loaded abcContainer).withFetchWord 64 9)) =
      some (cells 0 abbccc, 6, 0x09000052) := by decide +kernel

/-- 95_test_vectors.md V-DEC-3: the stream "1" ends inside a code. -/
theorem test_uncompress_partial_code :
    see (fun s => (statusIdle s, s.errInfo, s.outLen))
      (step ((loaded (abcContainer.take 56 ++ be64Bytes 1 ++ [0x80])).withFetchWord 64 9)) =
      some (0x090D0154, 1, 0) := by decide +kernel

/-- 95_test_vectors.md V-CTL-3. -/
theorem test_clear_after_work :
    see (fun s => (statusIdle s, s.root, s.nodes, s.bitLen, s.outLen))
      (step ({ abc with overrun := true, outLen := 66 }.withFetchWord 64 10)) =
      some (0x0A000002, none, [], 0, 0) := by decide +kernel

/-- 46_control.md R122 "Kept": IN and IN_LEN. -/
theorem test_clear_keeps_input :
    see (fun s => (s.inMem, s.inLen, s.freq)) (exec .clear abc) =
      some (cells 0 abbccc, 6, Vector.replicate 256 0) := by decide +kernel

/-- 95_test_vectors.md V-CTL-6: OPCODE 0 with RSVD set. -/
theorem test_illegal_word :
    see (fun s => (statusIdle s, s.errInfo)) (step (State.reset.withFetchWord 64 0x100)) = some (0x304, 0x100) := by
  decide +kernel

/-- 95_test_vectors.md V-CNT-7: an unwritten byte below IN_LEN. -/
theorem test_count_unwritten_byte :
    faultOf (exec .count { loaded [1, 2] with inLen := 3 }) = some (.inUnwritten 2) := by decide +kernel

/-- 95_test_vectors.md V-REG-6: WIN_INDEX stores only IDX and WSEL. -/
theorem test_win_index_mask :
    see (fun s => regValue s .winIndex) (hostTxn (.regWrite 0x48 0xFFFFFFFFFFFFFFFF) State.reset) = some 0x301FF := by
  decide +kernel

/-- 95_test_vectors.md V-SRC-1: NODE_WIN of record 4 and CODE_BITS_WIN of 'b'. -/
theorem test_windows :
    regValue { abc with winIdx := 4 } .nodeWin = 0x8001000000030002 ∧
    regValue { abc with winIdx := 0x62 } .codeBitsWin = 0xC000000000000000 := by decide +kernel

/-- 95_test_vectors.md P6, run b: with the HOST moving first, the second CMD write is dropped. -/
theorem test_overrun_when_host_moves_first :
    see (fun s => (s.pending, s.overrun))
      (step { State.reset with
        pending := some 1, hostProgram := [.txn (.regWrite 0x08 2)], schedule := [.host] }) = some (some 1, true) := by
  decide +kernel

/-- 95_test_vectors.md P6, run a: with no schedule entry the ENGINE moves first. -/
theorem test_engine_moves_first_by_default :
    see (fun s => (s.pending, statusIdle s, s.hostProgram))
      (step { State.reset with pending := some 1, lastOp := 1, hostProgram := [.txn (.regWrite 0x08 2)] }) =
      some (none, 0x01000002, [.txn (.regWrite 0x08 2)]) := by decide +kernel

/-- 30_encoding.md R77: what `CMD COMPRESS` and `SETFREQ` expand to. -/
theorem test_host_lines :
    (HostLine.cmd .compress).expand = [.txn (.regWrite 0x08 8)] ∧
    (HostLine.setfreq 0x63 32).expand = [.txn (.regWrite 0x48 0x63), .txn (.regWrite 0x50 32)] := by decide +kernel

/-! ## Witnesses: for every statement with hypotheses, a state and operands that meet all of them together -/

/-- The store of `abc` holds `abcTree`. -/
theorem abc_stores_tree : storesTree abc.nodes abc.root (some abcTree) :=
  ⟨4, rfl, ⟨2, 3, rfl, rfl, 0, 1, rfl, rfl, rfl⟩, by decide, by decide⟩

/-- The store of `onlyA` holds the one-leaf tree. -/
theorem onlyA_stores_tree (bits : Bits) : storesTree (onlyA bits).nodes (onlyA bits).root (some (.leaf 3 0x41)) :=
  ⟨0, rfl, rfl, by simp [indicesOf, onlyA], by decide⟩

/-- The bits of "abbccc". -/
theorem abc_stores_bits : storesBits abc (abcTree.encoded abbccc) := by unfold storesBits; decide +kernel

theorem reset_config_valid : State.reset.cfg.valid = true := by decide

theorem abc_input : inputIs abc abbccc := by unfold inputIs; decide +kernel

/-- A loaded byte reads back. -/
theorem read_cells (bytes : List Byte) : ∀ a i, i < bytes.length → readByte (cells a bytes) (a + i) = bytes[i]? := by
  induction bytes with
  | nil => intro a i h; simp at h
  | cons b bs ih =>
    intro a i h
    cases i with
    | zero => simp [cells, readByte]
    | succ i =>
      have hi : i < bs.length := by simpa using h
      have hr := ih (a + 1) i hi
      rw [show a + 1 + i = a + (i + 1) by omega] at hr
      simpa [cells, readByte] using hr

/-- A core loaded with bytes that fit IN_CAP has them as its input. -/
theorem loaded_input (bytes : List Byte) (h : bytes.length ≤ 65536) : inputIs (loaded bytes) bytes := by
  refine ⟨?_, h, fun a ha => by
    have hr := read_cells bytes 0 a ha
    rwa [Nat.zero_add] at hr⟩
  simp only [loaded, BitVec.toNat_ofNat]
  omega

/-- A core loaded with bytes, with the least OUT_CAP. -/
def loadedSmall (bytes : List Byte) : State := { loaded bytes with cfg := { Config.cfg0 with outCap := 16 } }

theorem loadedSmall_input (bytes : List Byte) (h : bytes.length ≤ 65536) : inputIs (loadedSmall bytes) bytes :=
  loaded_input bytes h

theorem container_is_of_tree : containerOf (some abcTree) (abcTree.encoded abbccc) = abcContainer := by decide +kernel

theorem witness_StepRunsPendingCommand : ∃ (s : State) (w : Word) (i : Instr),
    nextAgent s = some .engine ∧ s.pending = some w ∧ decode w = .ok i :=
  ⟨{ State.reset with pending := some 0x0A }, 0x0A, .clear, rfl, rfl, rfl⟩

theorem witness_StepRunsHostOperation :
    (∃ (s : State) (op : HostOp) (rest : List HostOp), nextAgent s = some .host ∧ s.hostProgram = op :: rest) ∧
    (∃ s : State, nextAgent s = none) ∧ (∃ s : State, s.busy = false) ∧ (∃ s : State, s.busy = true) :=
  ⟨⟨{ State.reset with hostProgram := [.wait] }, .wait, [], rfl, rfl⟩, ⟨State.reset, rfl⟩, ⟨State.reset, rfl⟩,
    ⟨{ State.reset with pending := some 0 }, rfl⟩⟩

theorem witness_PlacedWordRunsNext : ∃ (nbits w : Nat) (i : Instr), decodeTableWord nbits w = some i :=
  ⟨64, 0x0A, .clear, rfl⟩

/-- The two boundary words of legality: the first reserved opcode, and the lowest RSVD bit. -/
theorem witness_IllegalWordIsReported : ∀ w ∈ [0x0B#64, 0x100#64],
    (0x0A < (w.setWidth 8 : Byte).toNat ∨ w.extractLsb' 8 56 ≠ 0) ∧ (∃ s : State, s.pending = none) ∧
    ∃ s : State, nextAgent s = some .engine ∧ s.pending = some w := by
  intro w hw
  refine ⟨?_, ⟨State.reset, rfl⟩, ⟨{ State.reset with pending := some w }, rfl, rfl⟩⟩
  simp only [List.mem_cons, List.not_mem_nil, or_false] at hw
  rcases hw with rfl | rfl <;> decide

theorem witness_CommandWordAcceptance :
    (∃ s : State, s.pending = none) ∧ (∃ (s : State) (p : Word), s.pending = some p) ∧
    (∃ (s : State) (w : Word), legalWord w = false ∧ s.pending = some w ∧ nextAgent s = some .engine) :=
  ⟨⟨State.reset, rfl⟩, ⟨{ State.reset with pending := some 0 }, 0, rfl⟩,
    ⟨{ State.reset with pending := some 0x0B }, 0x0B, by decide, rfl, rfl⟩⟩

theorem witness_PendingCommandEnds : ∃ s : State, s.pending ≠ none :=
  ⟨{ State.reset with pending := some 0, hostProgram := [.wait], schedule := [.host] }, by decide⟩

/-- CLEAR and Reset each clear OVERRUN. -/
theorem witness_OverrunClearedOnlyByClearOrReset :
    (∃ s t : State, s.pending = some (encode .clear) ∧ s.overrun = true ∧ step s = .next t ∧ t.overrun = false) ∧
    (∃ s t : State, s.hostProgram = [.txn .reset] ∧ s.overrun = true ∧ step s = .next t ∧ t.overrun = false) :=
  ⟨⟨{ State.reset with pending := some 0x0A, overrun := true }, _, rfl, rfl, rfl, rfl⟩,
    ⟨{ State.reset with hostProgram := [.txn .reset], overrun := true }, _, rfl, rfl, rfl, rfl⟩⟩

theorem witness_ConfigurationNeverChanges : ∃ s t : State, step s = .next t :=
  ⟨{ State.reset with pending := some 0x00 }, _, rfl⟩

theorem witness_CommandsLeaveInputAlone : ∃ (i : Instr) (s t : State), exec i s = .next t :=
  ⟨.clear, State.reset, _, rfl⟩

theorem witness_OnlyOutCommandsChangeOut :
    (∃ (i : Instr) (s t : State), exec i s = .next t ∧ i.writesOut = false ∧ i ≠ .clear) ∧
    (∃ (i : Instr) (s t : State), exec i s = .next t ∧ i.writesOut = false ∧ i = .clear) :=
  ⟨⟨.nop, State.reset, _, rfl, rfl, by decide⟩, ⟨.clear, State.reset, _, rfl, rfl, rfl⟩⟩

/-- A missing flag, and an input one byte longer than IN_CAP. -/
theorem witness_PrecheckFailureChangesNothingElse :
    (∃ (i : Instr) (s : State), missingMask i.need s ≠ 0) ∧
    (∃ (i : Instr) (s : State), missingMask i.need s = 0 ∧ i.readsIn = true ∧ s.cfg.inCap < s.inLen.toNat) :=
  ⟨⟨.decode, State.reset, by decide⟩, ⟨.count, { State.reset with inLen := 65537 }, by decide, rfl, by decide⟩⟩

theorem witness_FailedOutCommandLosesOut : ∃ (i : Instr) (s t : State), i.writesOut = true ∧
    precheck i.need i.readsIn s = none ∧ s.err = false ∧ exec i s = .next t ∧ t.err = true := by
  obtain ⟨t, ht, he⟩ : ∃ t, exec .serialize { abc with cfg := { Config.cfg0 with outCap := 65 } } = .next t ∧
      t.err = true := next_of_see (p := State.err) (by decide +kernel)
  exact ⟨.serialize, _, t, rfl, by decide +kernel, rfl, ht, he⟩

theorem witness_CountCountsOccurrences : ∃ (s : State) (bytes : List Byte), inputIs s bytes := ⟨abc, abbccc, abc_input⟩

/-- The byte after two written ones; 'c' of "abc" with the codes of 'a' and 'b' before it; a container whose first byte, and
whose last, is not written. -/
theorem witness_UnwrittenInputIsFault :
    (∃ (s : State) (a : Nat), s.inLen.toNat ≤ s.cfg.inCap ∧ a < s.inLen.toNat ∧ readByte s.inMem a = none ∧
      ∀ b, b < a → readByte s.inMem b ≠ none) ∧
    (∃ (s : State) (a : Nat), s.inLen.toNat ≤ s.cfg.inCap ∧ a < s.inLen.toNat ∧ readByte s.inMem a = none ∧
      (∀ b, b < a → readByte s.inMem b ≠ none) ∧ s.cv = true ∧
      ∀ b sym, b < a → readByte s.inMem b = some sym → codeOf s.code sym ≠ []) ∧
    (∀ a ∈ [0, 65], ∃ (s : State) (t : Option HuffTree) (bits : Bits), s.inLen.toNat = (containerOf t bits).length ∧
      (containerOf t bits).length ≤ s.cfg.inCap ∧ ceil8 bits.length ≤ s.cfg.bitbufCap ∧
      (∀ tree, t = some tree → tree.symbols.Nodup) ∧ (t = none → bits = []) ∧ bits.length < 2 ^ 64 ∧
      a < (containerOf t bits).length ∧ readByte s.inMem a = none ∧
      ∀ b, b < (containerOf t bits).length → b ≠ a → readByte s.inMem b = (containerOf t bits)[b]?) := by
  refine ⟨⟨{ loaded [1, 2] with inLen := 3 }, 2, by decide, by decide, by decide, by decide⟩,
    ⟨{ abc with inMem := cells 0 [0x61, 0x62], inLen := 3 }, 2, by decide, by decide, by decide, by decide, rfl, ?_⟩, ?_⟩
  · intro b sym hb hr
    have h : ∀ b < 2, ∀ x ∈ readByte (cells 0 [0x61, 0x62]) b, codeOf abcCode x ≠ [] := by decide +kernel
    exact h b hb sym hr
  · intro a ha
    refine ⟨{ loaded abcContainer with inMem := (cells 0 abcContainer).filter fun c => c.1 ≠ a }, some abcTree,
      abcTree.encoded abbccc, ?_, ?_, ?_, ?_, by simp, by decide +kernel, ?_, ?_, ?_⟩
    · rw [container_is_of_tree]; revert a; decide +kernel
    · rw [container_is_of_tree]; revert a; decide +kernel
    · revert a; decide +kernel
    · intro tree h; cases h; decide
    · rw [container_is_of_tree]; revert a; decide +kernel
    · revert a; decide +kernel
    · rw [container_is_of_tree]; revert a; decide +kernel

/-- The hypotheses of BuildMakesFullTree, BuildMergesTwoLeastKeys and BuildKeepsWeightInvariant, at the largest total. -/
theorem witness_BuildMakesFullTree : ∃ s : State, presentLeaves s.freq ≠ [] ∧ freqSum s.freq < 2 ^ 64 :=
  ⟨{ State.reset with freq := (Vector.replicate 256 0).set 0 0xFFFFFFFFFFFFFFFF }, by decide +kernel, by decide +kernel⟩

theorem witness_BuildMergesTwoLeastKeys : ∃ s : State, presentLeaves s.freq ≠ [] ∧ freqSum s.freq < 2 ^ 64 :=
  ⟨abc, by decide +kernel, by decide +kernel⟩

theorem witness_BuildKeepsWeightInvariant : ∃ s : State, presentLeaves s.freq ≠ [] ∧ freqSum s.freq < 2 ^ 64 :=
  ⟨abc, by decide +kernel, by decide +kernel⟩

theorem witness_BuildOfEmptyTableFails : ∃ s : State, ∀ sym : Byte, freqOf s.freq sym = 0 :=
  ⟨State.reset, fun sym => by simp [freqOf, State.reset, State.resetWith]⟩

/-- 95_test_vectors.md V-BLD-4: the sum is first too large at symbol 1. -/
theorem witness_BuildReportsWeightOverflow : ∃ (s : State) (sym : Nat), sym < 256 ∧
    2 ^ 64 ≤ freqSumThrough s.freq sym ∧ ∀ j, j < sym → freqSumThrough s.freq j < 2 ^ 64 :=
  ⟨{ State.reset with freq := ((Vector.replicate 256 0).set 0 0xFFFFFFFFFFFFFFFF).set 1 1 }, 1, by decide,
    by decide +kernel, by decide +kernel⟩

/-- A tree, and the empty tree. -/
theorem witness_GencodesDerivesTreePaths :
    (∃ (s : State) (tree : HuffTree), s.tv = true ∧ storesTree s.nodes s.root (some tree)) ∧
    (∃ s : State, s.tv = true ∧ storesTree s.nodes s.root none) :=
  ⟨⟨abc, abcTree, rfl, abc_stores_tree⟩, ⟨{ State.reset with tv := true }, rfl, rfl, rfl⟩⟩

theorem witness_GeneratedCodesArePrefixCode : ∃ (s : State) (tree : HuffTree),
    s.tv = true ∧ storesTree s.nodes s.root (some tree) := ⟨abc, abcTree, rfl, abc_stores_tree⟩

/-- The packed stream fits BITBUF_CAP exactly. -/
theorem witness_EncodeConcatenatesCodes : ∃ (s : State) (bytes : List Byte), s.cv = true ∧ inputIs s bytes ∧
    (∀ sym ∈ bytes, codeOf s.code sym ≠ []) ∧ ceil8 (bytes.flatMap (codeOf s.code)).length ≤ s.cfg.bitbufCap :=
  ⟨{ abc with cfg := { Config.cfg0 with bitbufCap := 2 } }, abbccc, rfl, by unfold inputIs; decide +kernel,
    by decide +kernel, by decide +kernel⟩

/-- 95_test_vectors.md V-ENC-4: 'd' at offset 2; the byte after it is not written. -/
theorem witness_EncodeReportsFirstCodelessByte : ∃ (s : State) (bytes : List Byte) (sym : Byte), s.cv = true ∧
    s.inLen.toNat ≤ s.cfg.inCap ∧ bytes.length < s.inLen.toNat ∧
    (∀ a, a < bytes.length → readByte s.inMem a = bytes[a]?) ∧ readByte s.inMem bytes.length = some sym ∧
    (∀ x ∈ bytes, codeOf s.code x ≠ []) ∧ codeOf s.code sym = [] :=
  ⟨{ abc with inMem := cells 0 [0x61, 0x62, 0x64], inLen := 4 }, [0x61, 0x62], 0x64, rfl, by decide, by decide,
    by decide +kernel, by decide, by decide +kernel, by decide +kernel⟩

/-- 95_test_vectors.md V-ENC-7. -/
theorem witness_EncodeReportsBufferOverflow : ∃ (s : State) (bytes : List Byte), s.cv = true ∧ inputIs s bytes ∧
    (∀ sym ∈ bytes, codeOf s.code sym ≠ []) ∧ s.cfg.bitbufCap < ceil8 (bytes.flatMap (codeOf s.code)).length :=
  ⟨{ abc with cfg := { Config.cfg0 with bitbufCap := 1 } }, abbccc, rfl, by unfold inputIs; decide +kernel,
    by decide +kernel, by decide +kernel⟩

/-- OUT_CAP is met exactly; and the empty tree (95_test_vectors.md V-DEC-8). -/
theorem witness_DecodeInvertsEncoding :
    (∃ (s : State) (tree : HuffTree) (v : List Byte), s.tv = true ∧ s.bv = true ∧
      storesTree s.nodes s.root (some tree) ∧ (∀ sym ∈ v, sym ∈ tree.symbols) ∧ storesBits s (tree.encoded v) ∧
      v.length ≤ s.cfg.outCap) ∧
    (∃ s : State, s.tv = true ∧ s.bv = true ∧ storesTree s.nodes s.root none ∧ storesBits s []) :=
  ⟨⟨{ abc with cfg := { Config.cfg0 with outCap := 6 } }, abcTree, abbccc, rfl, rfl, abc_stores_tree, by decide,
    abc_stores_bits, by decide⟩, ⟨{ State.reset with tv := true, bv := true }, rfl, rfl, ⟨rfl, rfl⟩, rfl, rfl⟩⟩

/-- "c" then the first bit of a code of length 2; "abbccc" with room for 5 symbols; a bit with the empty tree. -/
theorem witness_DecodeReportsPartialCode :
    (∃ (s : State) (w : Word) (l r : HuffTree) (v : List Byte) (p : Bits) (sym : Byte), s.tv = true ∧ s.bv = true ∧
      storesTree s.nodes s.root (some (.node w l r)) ∧ (∀ x ∈ v, x ∈ (HuffTree.node w l r).symbols) ∧
      sym ∈ (HuffTree.node w l r).symbols ∧ p ≠ [] ∧ p <+: (HuffTree.node w l r).codeFor sym ∧
      p ≠ (HuffTree.node w l r).codeFor sym ∧ storesBits s ((HuffTree.node w l r).encoded v ++ p) ∧
      v.length ≤ s.cfg.outCap) ∧
    (∃ (s : State) (tree : HuffTree) (v : List Byte) (sym : Byte) (rest : Bits), s.tv = true ∧ s.bv = true ∧
      storesTree s.nodes s.root (some tree) ∧ (∀ x ∈ v, x ∈ tree.symbols) ∧ sym ∈ tree.symbols ∧
      v.length = s.cfg.outCap ∧ storesBits s (tree.encoded v ++ tree.codeFor sym ++ rest)) ∧
    (∃ s : State, s.tv = true ∧ s.bv = true ∧ storesTree s.nodes s.root none ∧ s.bitLen ≠ 0) :=
  ⟨⟨{ abc with bitLen := 2, bitbuf := [0x40] }, 6, .leaf 3 0x63, .node 3 (.leaf 1 0x61) (.leaf 2 0x62), [0x63], [true],
      0x62, rfl, rfl, abc_stores_tree, by decide, by decide, by decide, by decide +kernel, by decide +kernel,
      by unfold storesBits; decide +kernel, by decide⟩,
    ⟨{ abc with cfg := { Config.cfg0 with outCap := 5 } }, abcTree, [0x61, 0x62, 0x62, 0x63, 0x63], 0x63, [], rfl, rfl,
      abc_stores_tree, by decide, by decide, rfl, by unfold storesBits; decide +kernel⟩,
    ⟨{ State.reset with tv := true, bv := true, bitLen := 1, bitbuf := [0] }, rfl, rfl, ⟨rfl, rfl⟩, by decide⟩⟩

/-- Three 0 bits, and a 1 bit after two 0 bits (95_test_vectors.md V-DEC-6, P7's stream "010" has its 1 bit at 1). -/
theorem witness_DecodeUnderLeafRoot :
    (∃ (s : State) (w : Word) (sym : Byte) (n : Nat), s.tv = true ∧ s.bv = true ∧
      storesTree s.nodes s.root (some (.leaf w sym)) ∧ n ≤ s.cfg.outCap ∧ storesBits s (List.replicate n false)) ∧
    (∃ (s : State) (w : Word) (sym : Byte) (n : Nat) (rest : Bits), s.tv = true ∧ s.bv = true ∧
      storesTree s.nodes s.root (some (.leaf w sym)) ∧ n ≤ s.cfg.outCap ∧
      storesBits s (List.replicate n false ++ true :: rest)) :=
  ⟨⟨onlyA [false, false, false], 3, 0x41, 3, rfl, rfl, onlyA_stores_tree _, by decide, by unfold storesBits; decide⟩,
    ⟨onlyA [false, true, false], 3, 0x41, 1, [false], rfl, rfl, onlyA_stores_tree _, by decide,
      by unfold storesBits; decide⟩⟩

/-- OUT_CAP is met exactly. -/
theorem witness_SerializeWritesContainer : ∃ (s : State) (t : Option HuffTree) (bits : Bits), s.tv = true ∧
    s.bv = true ∧ storesTree s.nodes s.root t ∧ storesBits s bits ∧ (containerOf t bits).length ≤ s.cfg.outCap :=
  ⟨{ abc with cfg := { Config.cfg0 with outCap := 66 } }, some abcTree, abcTree.encoded abbccc, rfl, rfl,
    abc_stores_tree, abc_stores_bits, by decide +kernel⟩

/-- OUT_CAP is one byte short. -/
theorem witness_SerializeReportsOverflow : ∃ (s : State) (t : Option HuffTree) (bits : Bits), s.tv = true ∧
    s.bv = true ∧ storesTree s.nodes s.root t ∧ storesBits s bits ∧ s.cfg.outCap < (containerOf t bits).length :=
  ⟨{ abc with cfg := { Config.cfg0 with outCap := 65 } }, some abcTree, abcTree.encoded abbccc, rfl, rfl,
    abc_stores_tree, abc_stores_bits, by decide +kernel⟩

theorem witness_TreeBlockSizeFromLeaves :
    (∃ (nodes : List Node) (root : Option NodeIndex), storesTree nodes root none) ∧
    (∃ (nodes : List Node) (root : Option NodeIndex) (tree : HuffTree), storesTree nodes root (some tree)) :=
  ⟨⟨[], none, rfl, rfl⟩, ⟨abc.nodes, abc.root, abcTree, abc_stores_tree⟩⟩

/-- The container of a tree, and that of the empty tree. -/
theorem witness_DeserializeRebuildsTreeAndBits :
    (∃ (s : State) (t : Option HuffTree) (bits : Bits), t ≠ none ∧ s.cfg.valid = true ∧ inputIs s (containerOf t bits) ∧
      (∀ tree, t = some tree → tree.symbols.Nodup) ∧ (t = none → bits = []) ∧ ceil8 bits.length ≤ s.cfg.bitbufCap) ∧
    (∃ (s : State) (t : Option HuffTree) (bits : Bits), t = none ∧ s.cfg.valid = true ∧ inputIs s (containerOf t bits) ∧
      (∀ tree, t = some tree → tree.symbols.Nodup) ∧ (t = none → bits = []) ∧ ceil8 bits.length ≤ s.cfg.bitbufCap) := by
  refine ⟨⟨loaded abcContainer, some abcTree, abcTree.encoded abbccc, by decide, by decide, ?_, ?_, by simp,
    by decide +kernel⟩, ⟨loaded (List.replicate 16 0), none, [], rfl, by decide, ?_, by simp, by simp, by decide⟩⟩
  · rw [container_is_of_tree]; unfold inputIs; decide +kernel
  · intro tree h; cases h; decide
  · unfold inputIs; decide +kernel

theorem witness_AcceptedContainerIsReproduced : ∃ (s s1 : State) (c : List Byte), s.cfg.valid = true ∧ inputIs s c ∧
    c.length ≤ s.cfg.outCap ∧ s.err = false ∧ exec .deserialize s = .next s1 ∧ s1.err = false := by
  obtain ⟨t, ht, he⟩ : ∃ t, exec .deserialize (loaded abcContainer) = .next t ∧ (!t.err) = true :=
    next_of_see (p := fun s => !s.err) (by decide +kernel)
  exact ⟨loaded abcContainer, t, abcContainer, reset_config_valid, by unfold inputIs; decide +kernel, by decide, rfl, ht, by simpa using he⟩

/-- One prefix for each band, at its last length: 7, 55, 63 and 65 bytes of the 66 (95_test_vectors.md V-SRC-5). -/
theorem witness_TruncatedContainerIsRejected : ∀ m ∈ [7, 55, 63, 65], ∃ (s : State) (t : Option HuffTree) (bits : Bits),
    (∀ tree, t = some tree → tree.symbols.Nodup) ∧ (t = none → bits = []) ∧
    bits.length < 2 ^ 64 ∧ m < (containerOf t bits).length ∧ inputIs s ((containerOf t bits).take m) := by
  intro m hm
  refine ⟨loaded (abcContainer.take m), some abcTree, abcTree.encoded abbccc, ?_, by simp,
    by decide +kernel, ?_, ?_⟩
  · intro tree h; cases h; decide
  · rw [container_is_of_tree]; revert m; decide +kernel
  · rw [container_is_of_tree]; unfold inputIs; revert m; decide +kernel

/-- Step 1: 7 bytes, and a tree length one above what follows it. -/
theorem witness_TruncatedContainerIsRejected_header :
    (∃ (s : State) (bytes : List Byte), inputIs s bytes ∧ bytes.length < 8) ∧
    (∃ (s : State) (t : Word) (rest : List Byte), inputIs s (be64Bytes t ++ rest) ∧ rest.length < t.toNat) :=
  ⟨⟨loaded [0, 0, 0, 0, 0, 0, 0], _, loaded_input _ (by decide), by decide⟩,
    ⟨loaded (be64Bytes 2 ++ [0]), 2, [0], loaded_input _ (by decide), by decide⟩⟩

/-- Step 2 with slots pending, 511 internal records read: no byte left, a bad tag, one byte too few for each tag, a 512th
record. -/
theorem witness_TruncatedContainerIsRejected_records :
    ∀ tail ∈ [[], [2], 0 :: List.replicate 8 0, 1 :: List.replicate 7 0, 1 :: List.replicate 8 0],
    ∃ (s : State) (rs : List TreeRecord) (k : Nat) (rest : List Byte), readsRecords rs (k + 1) ∧ rs.length = 511 ∧
      inputIs s (withTreeBlock (rs.flatMap TreeRecord.bytes ++ tail) rest) := by
  intro tail ht
  refine ⟨loaded (withTreeBlock ((List.replicate 511 { weight := 0, symbol := none }).flatMap TreeRecord.bytes ++ tail) []),
    List.replicate 511 { weight := 0, symbol := none }, 511, [], ⟨?_, ?_, ?_⟩, ?_, loaded_input _ ?_⟩
  · decide +kernel
  · decide +kernel
  · decide +kernel
  · decide +kernel
  · revert tail; decide +kernel

/-- Step 2: the symbol 0 on both leaves, and a byte after a complete tree. -/
theorem witness_TruncatedContainerIsRejected_leaves :
    (∃ (s : State) (rs : List TreeRecord) (k : Nat) (tail rest : List Byte) (w : Word) (sym : Byte), readsRecords rs (k + 1) ∧
      inputIs s (withTreeBlock (rs.flatMap TreeRecord.bytes ++ tail) rest) ∧
      tail = TreeRecord.bytes { weight := w, symbol := some sym } ++ [] ∧ rs.length < 511 ∧ sym ∈ seenSymbols rs) ∧
    (∃ (s : State) (rs : List TreeRecord) (tail rest : List Byte), readsRecords rs 0 ∧ tail ≠ [] ∧
      inputIs s (withTreeBlock (rs.flatMap TreeRecord.bytes ++ tail) rest)) :=
  ⟨⟨loaded (withTreeBlock (([{ weight := 2, symbol := none }, { weight := 1, symbol := some 0 }] : List TreeRecord).flatMap
        TreeRecord.bytes ++ TreeRecord.bytes { weight := 1, symbol := some 0 }) []),
      [{ weight := 2, symbol := none }, { weight := 1, symbol := some 0 }], 0,
      TreeRecord.bytes { weight := 1, symbol := some 0 }, [], 1, 0, ⟨rfl, by decide, by decide⟩,
      loaded_input _ (by decide), by decide, by decide, by decide⟩,
    ⟨loaded (withTreeBlock (([{ weight := 1, symbol := some 0 }] : List TreeRecord).flatMap TreeRecord.bytes ++ [0]) []),
      [{ weight := 1, symbol := some 0 }], [0], [], ⟨rfl, by decide, by decide⟩, by decide, loaded_input _ (by decide)⟩⟩

/-- Step 3 on the tree of "abbccc" and on the empty tree: 7 bytes of the bit length; a bit with no tree; 9 bits with one byte,
with three, and with the last padding bit set; and a stream of 2 bytes where BITBUF_CAP is 1. -/
theorem witness_TruncatedContainerIsRejected_bits :
    (∀ rest ∈ [List.replicate 7 0, be64Bytes 9 ++ [0xBC], be64Bytes 9 ++ [0xBC, 0, 0], be64Bytes 9 ++ [0xBC, 1]],
      ∃ (s : State) (t : Option HuffTree), t ≠ none ∧ (∀ tree, t = some tree → tree.symbols.Nodup) ∧
        inputIs s (withTreeBlock (blockOf t) rest)) ∧
    (∃ s : State, inputIs s (withTreeBlock (blockOf none) (be64Bytes 1 ++ [0]))) ∧
    (∃ (s : State) (t : Option HuffTree) (bits : Bits), t ≠ none ∧ (∀ tree, t = some tree → tree.symbols.Nodup) ∧
      inputIs s (withTreeBlock (blockOf t) (be64Bytes 9 ++ packBytes (ceil8 bits.length) bits)) ∧ bits.length = 9 ∧
      s.cfg.bitbufCap < ceil8 bits.length) := by
  refine ⟨?_, ⟨loaded _, loaded_input _ (by decide)⟩, ?_⟩
  · intro rest hr
    refine ⟨loaded (withTreeBlock (blockOf (some abcTree)) rest), some abcTree, by decide, ?_, loaded_input _ ?_⟩
    · intro tree h; cases h; decide
    · revert rest; decide +kernel
  · refine ⟨{ loaded abcContainer with cfg := { Config.cfg0 with bitbufCap := 1 } }, some abcTree, abcTree.encoded abbccc,
      by decide, ?_, ?_, by decide +kernel, by decide +kernel⟩
    · intro tree h; cases h; decide
    · unfold inputIs; decide +kernel

theorem witness_CompressOfEmptyInput : ∃ s : State, s.inLen = 0 ∧ 16 ≤ s.cfg.outCap :=
  ⟨{ State.reset with cfg := { Config.cfg0 with outCap := 16 } }, rfl, by decide⟩

/-- The lengths of the packed bits and of the container of "abbccc" (95_test_vectors.md V-SRC-1). -/
theorem abc_encoding : ceil8 (abcTree.encoded abbccc).length = 2 ∧
    (containerOf (some abcTree) (abcTree.encoded abbccc)).length = 66 := by decide +kernel

/-- With the tree of "abbccc": both capacities met exactly, BITBUF_CAP one byte short, OUT_CAP one byte short. -/
theorem witness_CompressWritesContainer :
    (∃ (s : State) (v : List Byte), s.cfg.valid = true ∧ inputIs s v ∧ v ≠ [] ∧
      ceil8 (abcTree.encoded v).length ≤ s.cfg.bitbufCap ∧
      (containerOf (some abcTree) (abcTree.encoded v)).length ≤ s.cfg.outCap) ∧
    (∃ (s : State) (v : List Byte), s.cfg.valid = true ∧ inputIs s v ∧ v ≠ [] ∧
      s.cfg.bitbufCap < ceil8 (abcTree.encoded v).length) ∧
    (∃ (s : State) (v : List Byte), s.cfg.valid = true ∧ inputIs s v ∧ v ≠ [] ∧
      ceil8 (abcTree.encoded v).length ≤ s.cfg.bitbufCap ∧
      s.cfg.outCap < (containerOf (some abcTree) (abcTree.encoded v)).length) :=
  ⟨⟨{ loaded abbccc with cfg := { Config.cfg0 with bitbufCap := 2, outCap := 66 } }, abbccc, by decide,
      by unfold inputIs; decide +kernel, by decide, abc_encoding.1.le, abc_encoding.2.le⟩,
    ⟨{ loaded abbccc with cfg := { Config.cfg0 with bitbufCap := 1 } }, abbccc, by decide,
      by unfold inputIs; decide +kernel, by decide, by rw [abc_encoding.1]; decide⟩,
    ⟨{ loaded abbccc with cfg := { Config.cfg0 with outCap := 65 } }, abbccc, by decide,
      by unfold inputIs; decide +kernel, by decide, by rw [abc_encoding.1]; decide, by rw [abc_encoding.2]; decide⟩⟩

theorem witness_CompressNeverFailsWhenConforming : ∃ (s : State) (v : List Byte), s.cfg.conforming = true ∧
    inputIs s v ∧ s.err = false := ⟨loaded abbccc, abbccc, by decide, by unfold inputIs; decide +kernel, rfl⟩

/-- A fresh core, and one that holds products and a byte of OUT from before. -/
theorem witness_CompressIsFunctionOfInput : ∃ (s1 s2 t1 t2 : State) (v : List Byte), s1 ≠ s2 ∧ s1.cfg = s2.cfg ∧
    inputIs s1 v ∧ inputIs s2 v ∧ exec .compress s1 = .next t1 ∧ exec .compress s2 = .next t2 := by
  obtain ⟨t1, h1, _⟩ : ∃ t, exec .compress (loaded abbccc) = .next t ∧ t.done = true :=
    next_of_see (p := State.done) (by decide +kernel)
  obtain ⟨t2, h2, _⟩ : ∃ t, exec .compress { abc with outMem := [(0, 1)] } = .next t ∧ t.done = true :=
    next_of_see (p := State.done) (by decide +kernel)
  have hne : ∀ x y : State, x.bv = false → y.bv = true → x ≠ y := by
    intro x y hx hy h
    rw [h, hy] at hx
    exact Bool.noConfusion hx
  exact ⟨loaded abbccc, { abc with outMem := [(0, 1)] }, t1, t2, abbccc, hne _ _ rfl rfl, rfl, by unfold inputIs; decide +kernel,
    by unfold inputIs; decide +kernel, h1, h2⟩

/-- The container of "abbccc", and that of the empty tree. -/
theorem witness_UncompressRecoversInput :
    (∃ (s : State) (tree : HuffTree) (v : List Byte), s.cfg.valid = true ∧ tree.symbols.Nodup ∧
      (∀ sym ∈ v, sym ∈ tree.symbols) ∧ inputIs s (containerOf (some tree) (tree.encoded v)) ∧
      ceil8 (tree.encoded v).length ≤ s.cfg.bitbufCap ∧ v.length ≤ s.cfg.outCap) ∧
    (∃ s : State, s.cfg.valid = true ∧ inputIs s (containerOf none [])) := by
  refine ⟨⟨loaded abcContainer, abcTree, abbccc, reset_config_valid, by decide, by decide, ?_, by decide +kernel, by decide⟩,
    ⟨loaded (List.replicate 16 0), reset_config_valid, by unfold inputIs; decide +kernel⟩⟩
  rw [container_is_of_tree]; unfold inputIs; decide +kernel

/-- Containers whose DECODE fails: "c" and half a code with OUT_CAP at 16; under a Leaf root 16 symbols and then a 1 bit; 17
symbols of "abbccc"'s tree where 16 fit. -/
theorem witness_UncompressRecoversInput_failures :
    (∃ (s : State) (tree : HuffTree) (bits : Bits) (w : Word) (l r : HuffTree) (v : List Byte) (p : Bits) (sym : Byte),
      s.cfg.valid = true ∧ tree.symbols.Nodup ∧ inputIs s (containerOf (some tree) bits) ∧
      ceil8 bits.length ≤ s.cfg.bitbufCap ∧ tree = .node w l r ∧ (∀ x ∈ v, x ∈ tree.symbols) ∧ sym ∈ tree.symbols ∧
      p ≠ [] ∧ p <+: tree.codeFor sym ∧ p ≠ tree.codeFor sym ∧ bits = tree.encoded v ++ p ∧ v.length ≤ s.cfg.outCap) ∧
    (∃ (s : State) (tree : HuffTree) (bits : Bits) (w : Word) (sym : Byte) (n : Nat) (rest : Bits),
      s.cfg.valid = true ∧ tree.symbols.Nodup ∧ inputIs s (containerOf (some tree) bits) ∧
      ceil8 bits.length ≤ s.cfg.bitbufCap ∧ tree = .leaf w sym ∧ n ≤ s.cfg.outCap ∧
      bits = List.replicate n false ++ true :: rest) ∧
    (∃ (s : State) (tree : HuffTree) (bits : Bits) (v : List Byte) (sym : Byte) (rest : Bits),
      s.cfg.valid = true ∧ tree.symbols.Nodup ∧ inputIs s (containerOf (some tree) bits) ∧
      ceil8 bits.length ≤ s.cfg.bitbufCap ∧ (∀ x ∈ v, x ∈ tree.symbols) ∧ sym ∈ tree.symbols ∧
      v.length = s.cfg.outCap ∧ bits = tree.encoded v ++ tree.codeFor sym ++ rest) :=
  ⟨⟨loadedSmall _, abcTree, abcTree.encoded [0x63] ++ [true], 6, .leaf 3 0x63, .node 3 (.leaf 1 0x61) (.leaf 2 0x62), [0x63],
      [true], 0x62, by decide, by decide, loadedSmall_input _ (by decide +kernel), by decide +kernel, rfl, by decide,
      by decide, by decide, by decide +kernel, by decide +kernel, rfl, by decide⟩,
    ⟨loadedSmall _, .leaf 3 0x41, List.replicate 16 false ++ [true], 3, 0x41, 16, [], by decide, by decide,
      loadedSmall_input _ (by decide +kernel), by decide +kernel, rfl, by decide, rfl⟩,
    ⟨loadedSmall _, abcTree, abcTree.encoded (List.replicate 16 0x63) ++ abcTree.codeFor 0x61 ++ [],
      List.replicate 16 0x63, 0x61, [], by decide, by decide, loadedSmall_input _ (by decide +kernel),
      by decide +kernel, by decide, by decide, rfl, rfl⟩⟩

theorem witness_UncompressAfterCompressIsIdentity : ∃ (s t u : State) (v c : List Byte), s.cfg.valid = true ∧
    inputIs s v ∧ s.err = false ∧ exec .compress s = .next t ∧ t.err = false ∧ outputIs t c ∧ u.cfg = s.cfg ∧
    inputIs u c ∧ v.length ≤ u.cfg.outCap := by
  obtain ⟨t, ht, hp⟩ : ∃ t, exec .compress (loaded abbccc) = .next t ∧
      (!t.err && decide (t.outLen = 66) && decide (t.outMem = cells 0 abcContainer)) = true :=
    next_of_see (p := fun t => !t.err && decide (t.outLen = 66) && decide (t.outMem = cells 0 abcContainer))
      (by decide +kernel)
  simp only [Bool.and_eq_true, Bool.not_eq_true', decide_eq_true_eq] at hp
  obtain ⟨⟨he, hl⟩, hm⟩ := hp
  refine ⟨loaded abbccc, t, loaded abcContainer, abbccc, abcContainer, reset_config_valid, by unfold inputIs; decide +kernel, rfl, ht, he, ?_,
    rfl, by unfold inputIs; decide +kernel, by decide⟩
  unfold outputIs
  rw [hl, hm]
  decide +kernel

/-- The reset state meets the invariant, so the hypotheses of EveryStepKeepsInvariant, InvariantCodesFormPrefixCode and
NoCommandStopsTheCore can be met. -/
theorem reset_inv : inv State.reset where
  config := by decide
  status := by decide
  memory := ⟨rfl, fun _ _ => rfl, fun _ _ => rfl, fun a h => absurd h (Nat.not_lt_zero a)⟩
  tree := ⟨none, ⟨rfl, rfl⟩, fun _ => rfl⟩
  codes := ⟨fun _ => rfl, fun h => Bool.noConfusion h⟩
  bits := ⟨⟨[], ⟨rfl, rfl⟩, by decide, fun _ => rfl, fun _ => rfl⟩, fun h => Bool.noConfusion h⟩

/-- A core with work done and a command pending meets the invariant too. -/
theorem abc_inv : inv { abc with pending := some 0x05 } where
  config := by decide
  status := by decide
  memory := ⟨by decide +kernel, fun a h => by
    have h' : 65536 ≤ a := h
    simp only [abc, loaded, abbccc, cells, readByte]
    repeat rw [if_neg (by omega)], fun _ _ => rfl, fun a h => absurd h (Nat.not_lt_zero a)⟩
  tree := ⟨some abcTree, abc_stores_tree, fun h => Bool.noConfusion h⟩
  codes := ⟨fun h => Bool.noConfusion h, fun _ => ⟨rfl, by
    have h : (match codeTable abcNodes (some 4) with | .ok c => decide (c = abcCode) | .error _ => false) = true := by
      decide +kernel
    show codeTable abcNodes (some 4) = .ok abcCode
    revert h
    split
    · next c hc => intro h; rw [hc, of_decide_eq_true h]
    · intro h; exact Bool.noConfusion h⟩⟩
  bits := ⟨⟨abcTree.encoded abbccc, abc_stores_bits, by decide +kernel, fun h => Bool.noConfusion h,
    fun h => by cases h⟩, fun _ => rfl⟩

theorem witness_ResetMeetsInvariant : ∃ c : Config, c.valid = true := ⟨Config.cfg0, by decide⟩

theorem witness_EveryStepKeepsInvariant : ∃ s t : State, inv s ∧ step s = .next t := by
  obtain ⟨t, ht, _⟩ : ∃ t, step { abc with pending := some 0x05 } = .next t ∧ t.done = true :=
    next_of_see (p := State.done) (by decide +kernel)
  exact ⟨_, t, abc_inv, ht⟩

theorem witness_StepKeepsMemoriesCanonical : ∃ s t : State, memoriesCanonical s = true ∧ step s = .next t := by
  obtain ⟨t, ht, _⟩ : ∃ t, step { abc with pending := some 0x05 } = .next t ∧ t.done = true :=
    next_of_see (p := State.done) (by decide +kernel)
  exact ⟨_, t, by decide +kernel, ht⟩

theorem witness_InvariantCodesFormPrefixCode : ∃ (s : State) (a b : Byte), inv s ∧ a ≠ b ∧ codeOf s.code a ≠ [] :=
  ⟨{ abc with pending := some 0x05 }, 0x61, 0x62, abc_inv, by decide, by decide +kernel⟩

theorem witness_NoCommandStopsTheCore : ∃ (s : State) (i : Instr), i.readsIn = true ∧ s.inLen.toNat ≤ s.cfg.inCap ∧
    inv s ∧ inputWritten s :=
  ⟨{ abc with pending := some 0x05 }, .encode, rfl, by decide, abc_inv, by unfold inputWritten; decide +kernel⟩

theorem witness_StatusFieldLayout : ∃ s : State, s.busy = false := ⟨abc, rfl⟩

theorem witness_WindowsShowTables : ∃ s : State, s.busy = false ∧
    (codeOf s.code (s.winIdx.setWidth 8)).length < 512 := ⟨{ abc with winIdx := 0x161 }, rfl, by decide +kernel⟩

/-- Each clause: the empty tree, a root, an index at NODE_COUNT, a leaf, an internal record. -/
theorem witness_TreeRegistersShowArena :
    (∃ s : State, s.root = none) ∧ (∃ (s : State) (r : NodeIndex), s.root = some r) ∧
    (∃ s : State, s.nodes.length ≤ 511 ∧ s.nodes.length ≤ s.winIdx.toNat) ∧
    (∃ (s : State) (w : Word) (sym : Byte), s.nodes[s.winIdx.toNat]? = some (.leaf w sym)) ∧
    (∃ (s : State) (w : Word) (l r : NodeIndex), s.nodes[s.winIdx.toNat]? = some (.internal w l r)) :=
  ⟨⟨State.reset, rfl⟩, ⟨abc, 4, rfl⟩, ⟨{ abc with winIdx := 5 }, by decide, by decide⟩, ⟨abc, 1, 0x61, rfl⟩,
    ⟨{ abc with winIdx := 4 }, 6, 2, 3, rfl⟩⟩

/-- Each clause at its boundary: ID, CMD, the last defined and the first and last reserved offsets, CMD, a read-only register. -/
theorem witness_LegalRegisterAccess : ∀ off ∈ [0x00, 0x08, 0x88, 0x90, 0xF8], ∃ s : State,
    s.busy = false ∧ off < 0x100 ∧ off % 8 = 0 := by
  intro off h
  exact ⟨abc, rfl, by revert off; decide, by revert off; decide⟩

theorem witness_AccessesWhileBusy : ∀ off ∈ [0x00, 0x08, 0x10, 0x18, 0x20, 0x88, 0x90, 0xF8], ∃ (s : State) (a : Nat),
    s.busy = true ∧ off < 0x100 ∧ off % 8 = 0 ∧ a < s.cfg.outCap := by
  intro off h
  exact ⟨{ abc with pending := some 0x05 }, 70406, rfl, by revert off; decide, by revert off; decide, by decide⟩

theorem witness_ForbiddenAccessesAreFaults :
    (∃ (s : State) (op : HostOp), forbidden op s = true) ∧ (∃ (s : State) (op : HostOp), forbidden op s = false) :=
  ⟨⟨{ abc with pending := some 0x05 }, .txn (.inWrite 0 0), by decide⟩, ⟨abc, .txn (.inWrite 65535 0), by decide⟩⟩

/-- A byte that holds a value, and the last of each memory, which holds none. -/
theorem witness_HostMemoryAccess :
    (∃ (s : State) (a : Nat) (b : Byte), s.busy = false ∧ a < s.cfg.inCap ∧
      readByte s.inMem a = some b ∧ a < s.cfg.outCap ∧ readByte s.outMem a = some b) ∧
    (∃ (s : State) (a : Nat), a < s.cfg.inCap ∧ readByte s.inMem a = none) ∧
    (∃ (s : State) (a : Nat), s.busy = false ∧ a < s.cfg.outCap ∧ readByte s.outMem a = none) :=
  ⟨⟨{ abc with outMem := [(0, 0x61)] }, 0, 0x61, rfl, by decide, rfl, by decide, rfl⟩,
    ⟨State.reset, 65535, by decide, rfl⟩, ⟨State.reset, 70406, rfl, by decide, rfl⟩⟩

end Sys2Proof.Tests
end

/-! SUPPORT. Bit packing (00_scope.md R15): the bits of a packed byte, and the bits of a packed sequence as the sequence
followed by its zero padding. -/

namespace Sys2Proof.Machine

open Sys2Proof

/-- The digits of `msbNat n` are the first `n` bits, most significant first. -/
theorem msbNat_testBit (n : Nat) : ∀ (bits : Bits) (k : Nat), k < n →
    (msbNat n bits).testBit (n - 1 - k) = bits.getD k false := by
  induction n with
  | zero => intro _ _ hk; omega
  | succ n ih =>
    intro bits k hk
    rw [msbNat, Nat.mul_comm, Nat.testBit_two_pow_mul_add _ (msbNat_lt n bits.tail)]
    cases k with
    | zero => cases bits with
      | nil => simp
      | cons b bs => cases b <;> simp
    | succ k =>
      have hj : n + 1 - 1 - (k + 1) = n - 1 - k := by omega
      rw [hj, if_pos (by omega), ih bits.tail k (by omega)]
      cases bits <;> simp

/-- Bit `7 - k` of a packed byte is the `k`-th of its bits (00_scope.md R15). -/
theorem packedByte_getLsbD (bits : Bits) {k : Nat} (hk : k < 8) :
    (BitVec.ofNat 8 (msbNat 8 bits)).getLsbD (7 - k) = bits.getD k false := by
  rw [BitVec.getLsbD_ofNat, msbNat_testBit 8 bits k hk, decide_eq_true (by omega), Bool.true_and]

/-- Byte `q` of a packed sequence packs the bits from `8 * q` on. -/
theorem packBytes_getElem? (p : Nat) : ∀ (bits : Bits) (q : Nat), q < p →
    (packBytes p bits)[q]? = some (BitVec.ofNat 8 (msbNat 8 (bits.drop (8 * q)))) := by
  induction p with
  | zero => intro _ _ hq; omega
  | succ p ih =>
    intro bits q hq
    cases q with
    | zero => rfl
    | succ q => simp [packBytes, ih (bits.drop 8) q (by omega), Nat.mul_succ, Nat.add_comm]

/-- Bit `7 - k` of byte `q` of a packed sequence is bit `8 * q + k` of the sequence, 0 past its end (00_scope.md R15). -/
theorem packBytes_getLsbD {p : Nat} {bits : Bits} {q k : Nat} {b : Byte} (hb : (packBytes p bits)[q]? = some b)
    (hk : k < 8) : b.getLsbD (7 - k) = bits.getD (8 * q + k) false := by
  have hq : q < p := by simpa using (List.getElem?_eq_some_iff.mp hb).1
  rw [packBytes_getElem? p bits q hq, Option.some.injEq] at hb
  rw [← hb, packedByte_getLsbD _ hk]
  simp

/-- A packed byte read in stream order is the first eight bits of the sequence, 0 past its end. -/
theorem byteBits_packedByte (bits : Bits) :
    byteBits (BitVec.ofNat 8 (msbNat 8 bits)) = (List.range 8).map (bits.getD · false) := by
  calc byteBits (BitVec.ofNat 8 (msbNat 8 bits))
      = (List.range 8).map (fun k => (BitVec.ofNat 8 (msbNat 8 bits)).getLsbD (7 - k)) := rfl
    _ = (List.range 8).map (bits.getD · false) :=
        List.map_congr_left fun _ hk => packedByte_getLsbD bits (List.mem_range.mp hk)

/-- The packed bytes read in stream order are the first `8 * p` bits of the sequence, 0 past its end. -/
theorem flatMap_byteBits_packBytes (p : Nat) : ∀ bits : Bits,
    (packBytes p bits).flatMap byteBits = (List.range (8 * p)).map (bits.getD · false) := by
  induction p with
  | zero => intro bits; rfl
  | succ p ih =>
    intro bits
    rw [packBytes, List.flatMap_cons, byteBits_packedByte, ih, Nat.mul_succ, Nat.add_comm, List.range_add]
    simp

/-- A sequence packed in enough bytes reads as itself followed by the zero padding (00_scope.md R15). -/
theorem packBytes_bits {p : Nat} {bits : Bits} (h : bits.length ≤ 8 * p) :
    (packBytes p bits).flatMap byteBits = bits ++ List.replicate (8 * p - bits.length) false := by
  rw [flatMap_byteBits_packBytes]
  apply List.ext_getElem
  · simp [Nat.add_sub_of_le h]
  · intro i hi hi'
    by_cases hb : i < bits.length
    · simp [hb]
    · simp [List.getElem_append_right, Nat.le_of_not_lt hb]

/-- Reading back as many bits as were packed gives the sequence (00_scope.md R15). -/
theorem unpackBits_packBytes (bits : Bits) : unpackBits bits.length (packBytes (ceil8 bits.length) bits) = bits := by
  rw [unpackBits, packBytes_bits (ceil8_bounds bits.length).1, List.take_left]

/-- Settles O31: the count, the position of each bit with the padding, and the reading back, each by its own lemma. -/
theorem packingIsMsbFirst : Obligations.PackingIsMsbFirst := by
  intro bits
  exact ⟨packBytes_length _ bits, fun _ _ hb _ hk => packBytes_getLsbD hb hk, unpackBits_packBytes bits⟩

end Sys2Proof.Machine

/-! SUPPORT. The register file as the HOST sees it while not BUSY: what a legal write takes, and the bit fields of the
register words (10_state.md R23 to R39). -/

namespace Sys2Proof.Machine

open Sys2Proof

/-! ## Register writes -/

/-- While not BUSY a write at a legal offset other than CMD's is the register's store (20_memory.md R57). -/
theorem hostTxn_regWrite_idle {s : State} {off : Nat} (v : Word) (hbusy : s.busy = false)
    (hlt : off < 0x100 := by decide) (halign : off % 8 = 0 := by decide) (hcmd : regAt off ≠ .cmd := by decide) :
    hostTxn (.regWrite off v) s = .next (regStore (regAt off) v s) := by
  have hwrite : regWrite off v s = regStore (regAt off) v s := by
    unfold regWrite
    split
    · contradiction
    · rw [hbusy, if_neg Bool.false_ne_true]
  rw [hostTxn, regAccess, if_neg (by omega), if_neg (by omega), hwrite]

@[simp] theorem freqOf_set_same (freq : Vector Word 256) (sym : Byte) (v : Word) :
    freqOf (freq.set sym.toNat v sym.isLt) sym = v :=
  Vector.getElem_set_self sym.isLt

theorem freqOf_set_other (freq : Vector Word 256) {sym other : Byte} (v : Word) (h : other ≠ sym) :
    freqOf (freq.set sym.toNat v sym.isLt) other = freqOf freq other :=
  Vector.getElem_set_ne sym.isLt other.isLt fun he => h (BitVec.eq_of_toNat_eq he.symm)

/-! ## Bit fields -/

/-- A field of a word put back at its place is the word under the mask of the field. -/
theorem setWidth_extractLsb'_shiftLeft (v : Word) (start len : Nat) :
    (v.extractLsb' start len).setWidth 64 <<< start = v &&& ((BitVec.allOnes len).setWidth 64 <<< start) := by
  ext i hi
  by_cases hs : i < start
  · simp [hs]
  · have hsub : start + (i - start) = i := by omega
    simp [hs, hsub, BitVec.getLsbD_eq_getElem hi, Bool.and_comm]

/-- WIN_INDEX keeps the bits of IDX and WSEL of a write, all others read 0 (10_state.md R34). -/
theorem winIndexWord_regStore (v : Word) (s : State) :
    winIndexWord (regStore .winIndex v s) = v &&& 0x301FF#64 := by
  have hmask : 0x301FF#64 =
      (BitVec.allOnes 9).setWidth 64 <<< 0 ||| (BitVec.allOnes 2).setWidth 64 <<< 16 := by decide
  calc winIndexWord (regStore .winIndex v s)
      = (v.extractLsb' 0 9).setWidth 64 <<< 0 ||| (v.extractLsb' 16 2).setWidth 64 <<< 16 := by
        rw [BitVec.shiftLeft_zero]; rfl
    _ = v &&& 0x301FF#64 := by
        rw [setWidth_extractLsb'_shiftLeft, setWidth_extractLsb'_shiftLeft, hmask, BitVec.and_or_distrib_left]

/-- Bit `63 - j` of word `w` of a code is its bit `64 * w + j`, 0 past its end (10_state.md R37). -/
theorem codeBitsWord_getLsbD (c : Bits) (w : Nat) {j : Nat} (hj : j < 64) :
    (codeBitsWord c w).getLsbD (63 - j) = c.getD (64 * w + j) false := by
  rw [codeBitsWord, BitVec.getLsbD_ofNat, msbNat_testBit 64 _ j hj, decide_eq_true (by omega), Bool.true_and]
  simp

/-! ## The tree registers -/

/-- Fields that do not meet are joined by adding them: the upper one is a multiple of a power of 2 above the lower. -/
theorem or_eq_add_of_dvd_of_lt {x y : Word} (k : Nat) (hx : 2 ^ k ∣ x.toNat) (hy : y.toNat < 2 ^ k) :
    x ||| y = x + y := by
  obtain ⟨a, ha⟩ := hx
  have hor : (x ||| y).toNat = x.toNat + y.toNat := by
    rw [BitVec.toNat_or, ha, ← Nat.two_pow_add_eq_or_of_lt hy]
  apply BitVec.eq_of_toNat_eq
  rw [BitVec.toNat_add, ← hor, Nat.mod_eq_of_lt (x ||| y).isLt]

/-- NODE_WIN of a leaf: PRESENT and SYMBOL (10_state.md R38). -/
theorem nodeWord_leaf (w : Word) (sym : Byte) :
    nodeWord (.leaf w sym) = BitVec.ofNat 64 (2 ^ 63 + sym.toNat * 2 ^ 32) := by
  have hsym := sym.isLt
  have hfield : (sym.setWidth 64 <<< 32).toNat = sym.toNat * 2 ^ 32 := by
    rw [BitVec.toNat_shiftLeft, BitVec.toNat_setWidth, Nat.shiftLeft_eq]; omega
  rw [nodeWord, or_eq_add_of_dvd_of_lt 63 (by decide) (by omega)]
  apply BitVec.eq_of_toNat_eq
  simp only [BitVec.toNat_add, BitVec.toNat_ofNat, hfield]
  omega

/-- NODE_WIN of an internal node: PRESENT, KIND, RIGHT and LEFT (10_state.md R38). -/
theorem nodeWord_internal (w : Word) (l r : NodeIndex) :
    nodeWord (.internal w l r) = BitVec.ofNat 64 (2 ^ 63 + 2 ^ 48 + r.toNat * 2 ^ 16 + l.toNat) := by
  have hl := l.isLt
  have hr := r.isLt
  have hleft : (l.setWidth 64).toNat = l.toNat := by rw [BitVec.toNat_setWidth]; omega
  have hright : (r.setWidth 64 <<< 16).toNat = r.toNat * 2 ^ 16 := by
    rw [BitVec.toNat_shiftLeft, BitVec.toNat_setWidth, Nat.shiftLeft_eq]; omega
  have hupper : (0x8001000000000000#64 ||| r.setWidth 64 <<< 16).toNat = 2 ^ 63 + 2 ^ 48 + r.toNat * 2 ^ 16 := by
    rw [or_eq_add_of_dvd_of_lt 48 (by decide) (by omega), BitVec.toNat_add, hright, BitVec.toNat_ofNat]
    omega
  rw [nodeWord, or_eq_add_of_dvd_of_lt 16 (by omega) (by omega)]
  apply BitVec.eq_of_toNat_eq
  rw [BitVec.toNat_add, hupper, hleft, BitVec.toNat_ofNat]

/-- NODE_WIN and NODE_WEIGHT_WIN of the record that WIN_INDEX.IDX names (10_state.md R38, R39). -/
theorem regValue_node_of_some {s : State} {n : Node} (h : s.nodes[s.winIdx.toNat]? = some n) :
    regValue s .nodeWin = nodeWord n ∧ regValue s .nodeWeightWin = n.weight := by
  simp [regValue, h]

/-- NODE_WIN and NODE_WEIGHT_WIN read 0 where no record is held (10_state.md R38, R39). -/
theorem regValue_node_of_length_le {s : State} (h : s.nodes.length ≤ s.winIdx.toNat) :
    regValue s .nodeWin = 0 ∧ regValue s .nodeWeightWin = 0 := by
  simp [regValue, List.getElem?_eq_none h]

/-! ## The obligations -/

/-- Settles O55: the three writes are stores of the idle core, and each window is read by its own lemma. -/
theorem windowsShowTables : Obligations.WindowsShowTables := by
  intro s v hbusy
  have hwinIndex : hostTxn (.regWrite 0x48 v) s = .next (regStore .winIndex v s) := hostTxn_regWrite_idle v hbusy
  have hfreqWin : hostTxn (.regWrite 0x50 v) s = .next (regStore .freqWin v s) := hostTxn_regWrite_idle v hbusy
  have hinLen : hostTxn (.regWrite 0x20 v) s = .next (regStore .inLen v s) := hostTxn_regWrite_idle v hbusy
  have hcodeLen (hlen : (codeOf s.code (winSymbol s)).length < 512) :
      (regValue s .codeLenWin).toNat = (codeOf s.code (winSymbol s)).length :=
    Nat.mod_eq_of_lt (Nat.lt_trans hlen (by decide))
  exact ⟨⟨_, hwinIndex, winIndexWord_regStore v s, rfl⟩,
    ⟨_, hfreqWin, freqOf_set_same s.freq (winSymbol s) v, fun _ hne => freqOf_set_other s.freq v hne⟩,
    hinLen, rfl, hcodeLen, fun _ hj => codeBitsWord_getLsbD _ _ hj⟩

/-- Settles O56: ROOT and NODE_COUNT lose nothing when widened, and the record windows split by what IDX names. -/
theorem treeRegistersShowArena : Obligations.TreeRegistersShowArena := by
  intro s
  refine ⟨fun h => ?_, fun r h => ?_, fun h => ?_, regValue_node_of_length_le, fun w sym h => ?_, fun w l r h => ?_⟩
  · rw [regValue, h, rootWord]
  · rw [regValue, h, rootWord, BitVec.toNat_setWidth_of_le (by decide)]
  · exact Nat.mod_eq_of_lt (by omega)
  · obtain ⟨hwin, hweight⟩ := regValue_node_of_some h
    exact ⟨hwin.trans (nodeWord_leaf w sym), hweight⟩
  · obtain ⟨hwin, hweight⟩ := regValue_node_of_some h
    exact ⟨hwin.trans (nodeWord_internal w l r), hweight⟩

end Sys2Proof.Machine

/-! SUPPORT. The tree builder (41_frequency_tree.md R80 to R85): the present leaves as the model's list, the merge loop as an
induction over its rounds, and the forest of trees its pool stands for. -/

namespace Sys2Proof.Machine

open Sys2Proof

/-! ## The leaves -/

/-- The model's walk of the counts is the selection of the present symbols. -/
theorem leavesFrom_eq_filterMap {n : Nat} (counts : List Word) (sym : Nat) (h : counts.length = n) :
    leavesFrom counts sym = (List.finRange n).filterMap fun i : Fin n =>
      if counts[i.val] = 0 then none else some (.leaf counts[i.val] (BitVec.ofNat 8 (sym + i.val))) := by
  subst h
  induction counts generalizing sym with
  | nil => rfl
  | cons f fs ih =>
    rw [leavesFrom, ih (sym + 1)]
    by_cases hf : f = 0#64 <;>
      simp [List.finRange_succ, List.filterMap_map, hf, Nat.add_assoc, Nat.add_comm 1]

theorem leavesFrom_freq (freq : Vector Word 256) : leavesFrom freq.toList 0 = presentLeaves freq := by
  rw [leavesFrom_eq_filterMap freq.toList 0 freq.length_toList]
  simp [presentLeaves]

/-- The counts above 0 with their symbols, in ascending symbol order. -/
def presentCounts (freq : Vector Word 256) : List (Word × Byte) :=
  (List.finRange 256).filterMap fun i : Fin 256 =>
    if freq[i.val] = 0 then none else some (freq[i.val], BitVec.ofNat 8 i.val)

theorem presentLeaves_eq_map (freq : Vector Word 256) :
    presentLeaves freq = (presentCounts freq).map fun c => .leaf c.1 c.2 := by
  rw [presentCounts, List.map_filterMap, presentLeaves]
  congr 1
  funext i
  split <;> rfl

theorem presentCounts_symbols_nodup (freq : Vector Word 256) : ((presentCounts freq).map Prod.snd).Nodup := by
  rw [presentCounts, List.map_filterMap]
  refine List.Nodup.filterMap (fun i j sym hi hj => ?_) (List.nodup_finRange 256)
  have hsym : BitVec.ofNat 8 i.val = BitVec.ofNat 8 j.val := by
    simp only [Option.mem_def, Option.map_eq_some_iff, Option.ite_none_left_eq_some, Option.some.injEq] at hi hj
    obtain ⟨_, ⟨_, rfl⟩, rfl⟩ := hi
    obtain ⟨_, ⟨_, rfl⟩, hj⟩ := hj
    simpa using hj.symm
  have hval := congrArg BitVec.toNat hsym
  simp only [BitVec.toNat_ofNat] at hval
  omega

theorem presentLeaves_length_le (freq : Vector Word 256) : (presentLeaves freq).length ≤ 256 := by
  simpa [presentLeaves] using List.length_filterMap_le _ (List.finRange 256)

/-- No running sum overflows when the total does not. -/
theorem overflowSymbol_eq_none (counts : List Word) : ∀ (sym acc : Nat),
    acc + (counts.map BitVec.toNat).sum < 2 ^ 64 → overflowSymbol counts sym acc = none := by
  induction counts with
  | nil => intro _ _ _; rfl
  | cons f fs ih =>
    intro sym acc h
    rw [List.map_cons, List.sum_cons] at h
    rw [overflowSymbol, if_neg (by omega)]
    exact ih _ _ (by omega)

/-- BUILD on a table with a count above 0 and a total of 64 bits (41_frequency_tree.md R80). -/
theorem buildBody_done {s : State} (hne : presentLeaves s.freq ≠ []) (hsum : freqSum s.freq < 2 ^ 64) :
    buildBody s = .done { invalidateAll s with
      nodes := buildNodes (presentLeaves s.freq)
      root := some (BitVec.ofNat 9 ((buildNodes (presentLeaves s.freq)).length - 1))
      tv := true } := by
  have hover : overflowSymbol s.freq.toList 0 0 = none := overflowSymbol_eq_none _ _ _ (by rwa [Nat.zero_add])
  rw [buildBody, leavesFrom_freq, hover]
  cases hleaves : presentLeaves s.freq with
  | nil => exact absurd hleaves hne
  | cons leaf leaves => rfl

/-- Such a BUILD completes and changes only the tree, the three products and the status (41_frequency_tree.md R80). -/
theorem exec_build_next {s : State} (hne : presentLeaves s.freq ≠ []) (hsum : freqSum s.freq < 2 ^ 64) :
    exec .build s = .next { s with
      nodes := buildNodes (presentLeaves s.freq)
      root := some (BitVec.ofNat 9 ((buildNodes (presentLeaves s.freq)).length - 1))
      tv := true, cv := false, code := Vector.replicate 256 [], bv := false, bitLen := 0, bitbuf := []
      done := true, pending := none } :=
  runCommand_of_done (n := Need.nothing) (r := false) rfl (buildBody_done hne hsum)

/-! ## The pool and the merge loop -/

theorem insertKey_perm (k : Key) (pool : List Key) : (insertKey k pool).Perm (k :: pool) := by
  induction pool with
  | nil => rfl
  | cons a pool ih =>
    rw [insertKey]
    split
    · rfl
    · exact (ih.cons a).trans (.swap k a pool)

@[simp] theorem insertKey_length (k : Key) (pool : List Key) : (insertKey k pool).length = pool.length + 1 :=
  (insertKey_perm k pool).length_eq

/-- The first pool holds every record once. -/
theorem poolOf_indices_perm (nodes : List Node) : ∀ i,
    ((poolOf nodes i).map Key.index).Perm (List.range' i nodes.length) := by
  induction nodes with
  | nil => intro _; rfl
  | cons n ns ih => intro i; exact ((insertKey_perm _ _).map _).trans ((ih (i + 1)).cons i)

@[simp] theorem poolOf_length (nodes : List Node) (i : Nat) : (poolOf nodes i).length = nodes.length := by
  simpa using (poolOf_indices_perm nodes i).length_eq

/-- The induction over the merges: what every merge keeps holds of the arena the loop ends with, for a pool of at most one
key, when the fuel suffices. -/
theorem mergeLoop_invariant {P : List Key → List Node → Prop}
    (hmerge : ∀ a b pool nodes, P (a :: b :: pool) nodes →
      P (insertKey { weight := a.weight + b.weight, index := nodes.length } pool)
        (nodes ++ [.internal (a.weight + b.weight) (BitVec.ofNat 9 a.index) (BitVec.ofNat 9 b.index)])) :
    ∀ (fuel : Nat) (pool : List Key) (nodes : List Node), pool.length ≤ fuel + 1 → P pool nodes →
      ∃ last : List Key, last.length ≤ 1 ∧ P last (mergeLoop fuel pool nodes)
  | 0, pool, _, hfuel, h => ⟨pool, hfuel, h⟩
  | _ + 1, [], _, _, h => ⟨[], Nat.zero_le 1, h⟩
  | _ + 1, [a], _, _, h => ⟨[a], Nat.le_refl 1, h⟩
  | fuel + 1, a :: b :: pool, nodes, hfuel, h =>
    mergeLoop_invariant hmerge fuel _ _ (by simpa using hfuel) (hmerge a b pool nodes h)

/-! ## The forest of the pool -/

theorem holdsAt_lt_length {nodes : List Node} {i : Nat} {t : HuffTree} (h : holdsAt nodes i t) : i < nodes.length := by
  cases t with
  | leaf w sym => exact (List.getElem?_eq_some_iff.mp h).1
  | node w l r =>
    obtain ⟨_, _, hi, _⟩ := h
    exact (List.getElem?_eq_some_iff.mp hi).1

/-- New records leave the trees of the arena as they are. -/
theorem holdsAt_append {nodes : List Node} (made : List Node) {t : HuffTree} : ∀ {i : Nat}, holdsAt nodes i t →
    holdsAt (nodes ++ made) i t ∧ indicesOf (nodes ++ made) i t = indicesOf nodes i t := by
  induction t with
  | leaf w sym => exact fun h => ⟨(List.getElem?_append_left (holdsAt_lt_length h)).trans h, rfl⟩
  | node w l r ihl ihr =>
    intro i h
    have hget := List.getElem?_append_left (l₂ := made) (holdsAt_lt_length h)
    obtain ⟨a, b, hi, hl, hr⟩ := h
    rw [hi] at hget
    obtain ⟨hla, hil⟩ := ihl hl
    obtain ⟨hra, hir⟩ := ihr hr
    exact ⟨⟨a, b, hget, hla, hra⟩, by simp only [indicesOf, hget, hi, hil, hir]⟩

/-- The records at `roots` are the roots of disjoint trees that make up the arena, `tree i` the one at index `i`, and no
symbol comes twice: 10_state.md R49 item 5 for a forest. -/
structure Forest (nodes : List Node) (tree : Nat → HuffTree) (roots : List Nat) : Prop where
  holds : ∀ i ∈ roots, holdsAt nodes i (tree i)
  covers : (roots.flatMap fun i => indicesOf nodes i (tree i)).Perm (List.range nodes.length)
  distinct : (roots.flatMap fun i => (tree i).symbols).Nodup

theorem Forest.perm {nodes : List Node} {tree : Nat → HuffTree} {roots roots' : List Nat} (h : Forest nodes tree roots)
    (hp : roots'.Perm roots) : Forest nodes tree roots' where
  holds i hi := h.holds i (hp.subset hi)
  covers := (hp.flatMap_right _).trans h.covers
  distinct := (hp.flatMap_right _).nodup_iff.mpr h.distinct

/-- A forest of one tree is a full tree. -/
theorem Forest.fullTree_of_singleton {nodes : List Node} {tree : Nat → HuffTree} {i : Nat} (h : Forest nodes tree [i]) :
    fullTree nodes i (tree i) :=
  ⟨h.holds i (List.mem_singleton_self i), by simpa using h.covers, by simpa using h.distinct⟩

/-- The tree of a leaf record. -/
def leafTree (c : Word × Byte) : HuffTree := .leaf c.1 c.2

/-- Leaf records with distinct symbols are a forest of one-record trees. -/
theorem Forest.of_leaves {counts : List (Word × Byte)} (h : (counts.map Prod.snd).Nodup) :
    Forest (counts.map fun c => .leaf c.1 c.2) (fun i => leafTree (counts.getD i 0)) (List.range counts.length) where
  holds i hi := by simp [holdsAt, leafTree, List.mem_range.mp hi]
  covers := by simp [leafTree, indicesOf]
  distinct := by
    have hsym : (List.range counts.length).map (fun i => (counts.getD i 0).2) = counts.map Prod.snd :=
      List.ext_getElem (by simp) fun i _ hi => by
        rw [List.length_map] at hi
        simp [hi]
    simpa [leafTree, HuffTree.symbols, ← List.map_eq_flatMap] using hsym ▸ h

/-- A merge makes two trees of the forest the children of one new root (41_frequency_tree.md R80, R83, R84). -/
theorem Forest.merge {nodes : List Node} {tree : Nat → HuffTree} {l r : NodeIndex} {roots : List Nat} (w : Word)
    (h : Forest nodes tree (l.toNat :: r.toNat :: roots)) :
    Forest (nodes ++ [.internal w l r])
      (Function.update tree nodes.length (.node w (tree l.toNat) (tree r.toNat))) (nodes.length :: roots) := by
  obtain ⟨hholds, hcovers, hdistinct⟩ := h
  have hkeeps (i : Nat) (hi : i ∈ l.toNat :: r.toNat :: roots) := holdsAt_append [.internal w l r] (hholds i hi)
  have htree (i : Nat) (hi : i ∈ roots) :
      Function.update tree nodes.length (.node w (tree l.toNat) (tree r.toNat)) i = tree i :=
    Function.update_of_ne (holdsAt_lt_length (hholds i (by simp [hi]))).ne _ _
  have hnew : (nodes ++ [Node.internal w l r])[nodes.length]? = some (.internal w l r) := List.getElem?_concat_length
  obtain ⟨hl, hil⟩ := hkeeps l.toNat (by simp)
  obtain ⟨hr, hir⟩ := hkeeps r.toNat (by simp)
  refine ⟨fun i hi => ?_, ?_, ?_⟩
  · rcases List.mem_cons.mp hi with rfl | hi
    · rw [Function.update_self]
      exact ⟨l, r, hnew, hl, hr⟩
    · rw [htree i hi]
      exact (hkeeps i (by simp [hi])).1
  · have hrest : (roots.flatMap fun i => indicesOf (nodes ++ [.internal w l r]) i
        (Function.update tree nodes.length (.node w (tree l.toNat) (tree r.toNat)) i)) =
        roots.flatMap fun i => indicesOf nodes i (tree i) :=
      List.flatMap_congr fun i hi => by rw [htree i hi, (hkeeps i (by simp [hi])).2]
    rw [List.flatMap_cons, hrest, Function.update_self, List.length_append, List.length_singleton, List.range_succ]
    simp only [indicesOf, hnew, hil, hir]
    simpa using (hcovers.cons nodes.length).trans (List.perm_append_singleton ..).symm
  · rw [List.flatMap_cons, List.flatMap_congr fun i hi => by rw [htree i hi]]
    simpa [HuffTree.symbols] using hdistinct

/-- The state of BUILD's merge loop over the leaves: they stand at the front of the arena, each merge trades a key for a
record, the pool's keys name a forest, and the newest record is one of its roots (41_frequency_tree.md R80, R83). -/
structure MergeState (leaves : List Node) (pool : List Key) (nodes : List Node) : Prop where
  leavesFirst : leaves <+: nodes
  count : nodes.length + pool.length = 2 * leaves.length
  forest : ∃ tree, Forest nodes tree (pool.map Key.index)
  newest : nodes.length - 1 ∈ pool.map Key.index

theorem MergeState.start {freq : Vector Word 256} (h : presentLeaves freq ≠ []) :
    MergeState (presentLeaves freq) (poolOf (presentLeaves freq) 0) (presentLeaves freq) := by
  have hpool := poolOf_indices_perm (presentLeaves freq) 0
  rw [← List.range_eq_range'] at hpool
  refine ⟨List.prefix_rfl, ?_, ⟨fun i => leafTree ((presentCounts freq).getD i 0), ?_⟩, ?_⟩
  · rw [poolOf_length, Nat.two_mul]
  · have hleaves := Forest.of_leaves (presentCounts_symbols_nodup freq)
    rw [← presentLeaves_eq_map] at hleaves
    exact hleaves.perm (by simpa [presentLeaves_eq_map freq] using hpool)
  · rw [hpool.mem_iff, List.mem_range]
    exact Nat.sub_one_lt (List.length_pos_iff.mpr h).ne'

theorem MergeState.merge {leaves nodes : List Node} {a b : Key} {pool : List Key} (w : Word)
    (hlen : leaves.length ≤ 256) (h : MergeState leaves (a :: b :: pool) nodes) :
    MergeState leaves (insertKey { weight := w, index := nodes.length } pool)
      (nodes ++ [.internal w (BitVec.ofNat 9 a.index) (BitVec.ofNat 9 b.index)]) := by
  obtain ⟨hfirst, hcount, ⟨tree, hforest⟩, -⟩ := h
  rw [List.length_cons, List.length_cons] at hcount
  have hindex (k : Key) (hk : k ∈ a :: b :: pool) : (BitVec.ofNat 9 k.index).toNat = k.index :=
    have hlt := holdsAt_lt_length (hforest.holds k.index (List.mem_map_of_mem hk))
    Nat.mod_eq_of_lt (by omega)
  rw [List.map_cons, List.map_cons, ← hindex a (by simp), ← hindex b (by simp)] at hforest
  have hroots := (insertKey_perm { weight := w, index := nodes.length } pool).map Key.index
  refine ⟨hfirst.trans (List.prefix_append ..), ?_, ⟨_, (hforest.merge w).perm hroots⟩, ?_⟩
  · rw [insertKey_length, List.length_append, List.length_singleton]
    omega
  · simp [hroots.mem_iff]

/-- The arena BUILD ends with (41_frequency_tree.md R83, R85). -/
theorem buildNodes_spec {freq : Vector Word 256} (h : presentLeaves freq ≠ []) :
    presentLeaves freq <+: buildNodes (presentLeaves freq) ∧
    (buildNodes (presentLeaves freq)).length = 2 * (presentLeaves freq).length - 1 ∧
    ∃ t, fullTree (buildNodes (presentLeaves freq)) ((buildNodes (presentLeaves freq)).length - 1) t := by
  obtain ⟨last, hlast, hfirst, hcount, ⟨tree, hforest⟩, hnewest⟩ := mergeLoop_invariant
    (fun a b pool nodes => MergeState.merge (a.weight + b.weight) (presentLeaves_length_le freq))
    (presentLeaves freq).length _ _ (by simp) (MergeState.start h)
  obtain ⟨root, hroot⟩ : ∃ root, last = [root] := by
    refine List.length_eq_one_iff.mp (Nat.le_antisymm hlast ?_)
    exact List.length_map Key.index ▸ List.length_pos_of_mem hnewest
  subst hroot
  rw [List.map_singleton, List.mem_singleton] at hnewest
  rw [List.map_singleton, ← hnewest] at hforest
  exact ⟨hfirst, Nat.eq_sub_of_add_eq hcount, _, hforest.fullTree_of_singleton⟩

/-- Settles O21: the body completes, and the arena is that of `buildNodes_spec`; its last index fits 9 bits. -/
theorem buildMakesFullTree : Obligations.BuildMakesFullTree := by
  intro s hne hsum
  obtain ⟨hfirst, hlength, hfull⟩ := buildNodes_spec hne
  have hpos := List.length_pos_iff.mpr hne
  have hle := presentLeaves_length_le s.freq
  have hroot : (BitVec.ofNat 9 ((buildNodes (presentLeaves s.freq)).length - 1)).toNat =
      (buildNodes (presentLeaves s.freq)).length - 1 := Nat.mod_eq_of_lt (by omega)
  exact ⟨_, _, exec_build_next hne hsum, (List.prefix_iff_eq_take.mp hfirst).symm, hlength,
    by omega, by rwa [hroot]⟩

end Sys2Proof.Machine

/-! SUPPORT. The code table (42_code_table.md R89 to R93): the codes of a tree as a prefix code over its symbols, and the
table GENCODES makes of a stored tree as exactly those codes. -/

namespace Sys2Proof

/-! ## The codes of a tree -/

theorem HuffTree.symbols_length_pos (t : HuffTree) : 0 < t.symbols.length := by
  induction t with
  | leaf w sym => exact Nat.one_pos
  | node w l r ihl ihr => rw [HuffTree.symbols, List.length_append]; omega

/-- Distinct symbols are at most 256. -/
theorem HuffTree.symbols_length_le {t : HuffTree} (h : t.symbols.Nodup) : t.symbols.length ≤ 256 := by
  simpa using (h.map (f := BitVec.toFin) fun _ _ => BitVec.toFin_inj.mp).length_le_card

@[simp] theorem HuffTree.map_fst_paths (t : HuffTree) : ∀ p, (t.paths p).map Prod.fst = t.symbols := by
  induction t with
  | leaf w sym => intro p; rfl
  | node w l r ihl ihr => intro p; rw [HuffTree.paths, List.map_append, ihl, ihr, HuffTree.symbols]

@[simp] theorem HuffTree.map_fst_codes (t : HuffTree) : t.codes.map Prod.fst = t.symbols := by
  cases t with
  | leaf w sym => rfl
  | node w l r => exact HuffTree.map_fst_paths _ _

/-- The path to a leaf continues the path to the tree. -/
theorem HuffTree.prefix_of_mem_paths {t : HuffTree} : ∀ {p} {v : Byte × Machine.Bits}, v ∈ t.paths p → p <+: v.2 := by
  induction t with
  | leaf w sym =>
    intro p v hv
    rw [List.mem_singleton.mp hv]
  | node w l r ihl ihr =>
    intro p v hv
    rcases List.mem_append.mp hv with hv | hv
    · exact (List.prefix_append _ _).trans (ihl hv)
    · exact (List.prefix_append _ _).trans (ihr hv)

/-- A leaf is fewer steps below its tree's root than the tree has leaves. -/
theorem HuffTree.length_of_mem_paths {t : HuffTree} : ∀ {p} {v : Byte × Machine.Bits}, v ∈ t.paths p →
    v.2.length < p.length + t.symbols.length := by
  induction t with
  | leaf w sym =>
    intro p v hv
    rw [List.mem_singleton.mp hv]
    exact Nat.lt_succ_self _
  | node w l r ihl ihr =>
    intro p v hv
    have hl := l.symbols_length_pos
    have hr := r.symbols_length_pos
    rw [HuffTree.symbols, List.length_append]
    rcases List.mem_append.mp hv with hv | hv
    · have hlt := ihl hv
      rw [List.length_append, List.length_singleton] at hlt
      omega
    · have hlt := ihr hv
      rw [List.length_append, List.length_singleton] at hlt
      omega

/-- The two children's paths part at the step from their parent: no bit sequence continues both. -/
theorem not_prefix_of_other_bit {p x : Machine.Bits} {b : Bool} (h : p ++ [b] <+: x) : ¬ p ++ [!b] <+: x := by
  intro h'
  have heq := (List.prefix_of_prefix_length_le h h' (by simp)).eq_of_length (by simp)
  simp at heq

/-- No path to a leaf is a prefix of the path to another (42_code_table.md R93). -/
theorem HuffTree.eq_of_paths_prefix {t : HuffTree} : ∀ {p} {v w : Byte × Machine.Bits},
    v ∈ t.paths p → w ∈ t.paths p → v.2 <+: w.2 → v = w := by
  induction t with
  | leaf _ sym =>
    intro p v w hv hw _
    rw [List.mem_singleton.mp hv, List.mem_singleton.mp hw]
  | node _ l r ihl ihr =>
    intro p v w hv hw hvw
    rcases List.mem_append.mp hv with hv | hv <;> rcases List.mem_append.mp hw with hw | hw
    · exact ihl hv hw hvw
    · exact absurd (prefix_of_mem_paths hw) (not_prefix_of_other_bit ((prefix_of_mem_paths hv).trans hvw))
    · exact absurd (prefix_of_mem_paths hw) (not_prefix_of_other_bit ((prefix_of_mem_paths hv).trans hvw))
    · exact ihr hv hw hvw

/-- No code is a prefix of another (42_code_table.md R93). -/
theorem HuffTree.eq_of_codes_prefix {t : HuffTree} {v w : Byte × Machine.Bits} (hv : v ∈ t.codes) (hw : w ∈ t.codes)
    (h : v.2 <+: w.2) : v = w := by
  cases t with
  | leaf _ sym => rw [List.mem_singleton.mp hv, List.mem_singleton.mp hw]
  | node _ l r => exact eq_of_paths_prefix hv hw h

/-- Every code has a bit: "0" under a Leaf root (42_code_table.md R91), else the step from the root. -/
theorem HuffTree.ne_nil_of_mem_codes {t : HuffTree} {v : Byte × Machine.Bits} (hv : v ∈ t.codes) : v.2 ≠ [] := by
  cases t with
  | leaf _ sym => rw [List.mem_singleton.mp hv]; exact List.cons_ne_nil _ _
  | node _ l r =>
    rcases List.mem_append.mp hv with hv | hv
    all_goals exact (prefix_of_mem_paths hv).ne_nil (List.cons_ne_nil _ _)

/-- MAX_CODE_LEN: with at most 256 leaves no leaf is more than 255 steps deep (42_code_table.md R92). -/
theorem HuffTree.length_le_of_mem_codes {t : HuffTree} (hnodup : t.symbols.Nodup) {v : Byte × Machine.Bits}
    (hv : v ∈ t.codes) : v.2.length ≤ 255 := by
  cases t with
  | leaf _ sym => simp [List.mem_singleton.mp hv]
  | node _ l r =>
    have hdepth := length_of_mem_paths hv
    have hcount := symbols_length_le hnodup
    rw [List.length_nil] at hdepth
    omega

/-! ## The code of a symbol -/

theorem lookup_eq_none_of_not_mem {codes : List (Byte × Machine.Bits)} {sym : Byte} (h : sym ∉ codes.map Prod.fst) :
    codes.lookup sym = none := by
  rw [List.lookup_eq_none_iff]
  intro v hv
  exact bne_iff_ne.mpr fun heq => h (heq ▸ List.mem_map_of_mem hv)

/-- A symbol of the tree has one of the tree's codes. -/
theorem HuffTree.mem_codes_of_mem_symbols {t : HuffTree} {sym : Byte} (h : sym ∈ t.symbols) :
    (sym, t.codeFor sym) ∈ t.codes := by
  rw [← t.map_fst_codes] at h
  obtain ⟨v, hmem, hv⟩ := List.mem_map.mp h
  have hfound : (t.codes.lookup sym).isSome := List.lookup_isSome_iff.mpr ⟨v, hmem, beq_iff_eq.mpr hv.symm⟩
  obtain ⟨x, hx⟩ := Option.isSome_iff_exists.mp hfound
  obtain ⟨before, after, hcodes, _⟩ := List.lookup_eq_some_iff.mp hx
  rw [HuffTree.codeFor, hx, Option.getD_some, hcodes]
  exact List.mem_append_right _ List.mem_cons_self

/-- A symbol outside the tree has no code. -/
theorem HuffTree.codeFor_eq_nil {t : HuffTree} {sym : Byte} (h : sym ∉ t.symbols) : t.codeFor sym = [] := by
  rw [HuffTree.codeFor, lookup_eq_none_of_not_mem (by rwa [t.map_fst_codes]), Option.getD_none]

/-- Exactly the tree's symbols have a code (42_code_table.md R93). -/
theorem HuffTree.codeFor_ne_nil_iff {t : HuffTree} {sym : Byte} : t.codeFor sym ≠ [] ↔ sym ∈ t.symbols :=
  ⟨not_imp_comm.mp codeFor_eq_nil, fun h => ne_nil_of_mem_codes (mem_codes_of_mem_symbols h)⟩

/-- The code of no symbol is a prefix of another symbol's (42_code_table.md R93). -/
theorem HuffTree.codeFor_not_prefix {t : HuffTree} {a b : Byte} (hne : a ≠ b) (ha : t.codeFor a ≠ []) :
    ¬ t.codeFor a <+: t.codeFor b := by
  intro hprefix
  have hb : t.codeFor b ≠ [] := hprefix.ne_nil ha
  have hsame := eq_of_codes_prefix (mem_codes_of_mem_symbols (codeFor_ne_nil_iff.mp ha))
    (mem_codes_of_mem_symbols (codeFor_ne_nil_iff.mp hb)) hprefix
  exact hne (congrArg Prod.fst hsame)

theorem HuffTree.codeFor_length_le {t : HuffTree} (hnodup : t.symbols.Nodup) (sym : Byte) :
    (t.codeFor sym).length ≤ 255 := by
  by_cases h : sym ∈ t.symbols
  · exact length_le_of_mem_codes hnodup (mem_codes_of_mem_symbols h)
  · rw [codeFor_eq_nil h]; exact Nat.zero_le _

end Sys2Proof

namespace Sys2Proof.Machine

open Sys2Proof

/-! ## The table GENCODES makes -/

@[simp] theorem codeOf_replicate_nil (sym : Byte) : codeOf (Vector.replicate 256 []) sym = [] :=
  Vector.getElem_replicate sym.isLt

@[simp] theorem codeOf_set_same (code : Vector Bits 256) (sym : Byte) (p : Bits) :
    codeOf (code.set sym.toNat p sym.isLt) sym = p :=
  Vector.getElem_set_self sym.isLt

theorem codeOf_set_other (code : Vector Bits 256) {sym other : Byte} (p : Bits) (h : other ≠ sym) :
    codeOf (code.set sym.toNat p sym.isLt) other = codeOf code other :=
  Vector.getElem_set_ne sym.isLt other.isLt fun heq => h (BitVec.eq_of_toNat_eq heq.symm)

/-- Writing the codes of distinct symbols into a table leaves each symbol its own code, the others what they had. -/
theorem codeOf_foldl_set (codes : List (Byte × Bits)) (sym : Byte) : ∀ code : Vector Bits 256,
    (codes.map Prod.fst).Nodup →
    codeOf (codes.foldl (fun c (x : Byte × Bits) => c.set x.1.toNat x.2 x.1.isLt) code) sym =
      (codes.lookup sym).getD (codeOf code sym) := by
  induction codes with
  | nil => intro code _; rfl
  | cons v codes ih =>
    intro code h
    obtain ⟨a, p⟩ := v
    rw [List.map_cons, List.nodup_cons] at h
    obtain ⟨ha, hnodup⟩ := h
    rw [List.foldl_cons, ih _ hnodup]
    by_cases hsym : sym = a
    · subst hsym
      simp [lookup_eq_none_of_not_mem ha]
    · rw [codeOf_set_other code p hsym, List.lookup_cons, beq_false_of_ne hsym]

/-- The table of a stored tree is filled with the tree's codes: the walk's leaves, or "0" under a Leaf root
(42_code_table.md R89 to R91). -/
theorem codeTable_of_fullTree {nodes : List Node} {r : NodeIndex} {t : HuffTree} (h : fullTree nodes r.toNat t) :
    codeTable nodes (some r) =
      .ok (t.codes.foldl (fun c (x : Byte × Bits) => c.set x.1.toNat x.2 x.1.isLt) (Vector.replicate 256 [])) := by
  have hholds := h.1
  cases t with
  | leaf w sym =>
    rw [holdsAt] at hholds
    simp only [codeTable, hholds]
    rfl
  | node w left right =>
    have hwalk := traverse_fullTree h []
    obtain ⟨a, b, hroot, _⟩ := hholds
    simp only [codeTable, hroot, hwalk, foldl_setCode, leaves_visitsOf nodes _ _ _ h.1]
    rfl

/-- In the table of a stored tree every symbol has its code in the tree, and in the table of the empty tree none has one. -/
theorem codeTable_of_storesTree {nodes : List Node} {root : Option NodeIndex} {t : Option HuffTree}
    (h : storesTree nodes root t) :
    ∃ c, codeTable nodes root = .ok c ∧ (t = none → ∀ sym, codeOf c sym = []) ∧
      ∀ tree, t = some tree → ∀ sym, codeOf c sym = tree.codeFor sym := by
  cases t with
  | none =>
    obtain ⟨rfl, _⟩ := h
    exact ⟨_, rfl, fun _ => codeOf_replicate_nil, nofun⟩
  | some tree =>
    obtain ⟨r, rfl, hfull⟩ := h
    refine ⟨_, codeTable_of_fullTree hfull, nofun, fun tree' htree sym => ?_⟩
    obtain rfl := Option.some.inj htree
    obtain ⟨_, _, hnodup⟩ := hfull
    rw [codeOf_foldl_set _ _ _ (by rwa [tree.map_fst_codes]), codeOf_replicate_nil, HuffTree.codeFor]

/-- With TV = 1 GENCODES completes with the tree's table and changes only CODE, CV and the status (42_code_table.md R90). -/
theorem exec_gencodes_next {s : State} {c : Vector Bits 256} (htv : s.tv = true)
    (hc : codeTable s.nodes s.root = .ok c) :
    exec .gencodes s = .next { s with code := c, cv := true, done := true, pending := none } := by
  have hpre : precheck { tv := true, cv := false, bv := false } false s = none := by
    rw [precheck_none_iff, missingMask_eq_zero_iff]
    simp [htv]
  have hbody : gencodesBody s = .done { invalidateCodes s with code := c, cv := true } := by
    rw [gencodesBody, hc, Body.ofExcept_ok]
  exact runCommand_of_done hpre hbody

/-! ## The obligations -/

/-- Settles O26: the table of a stored tree, made by a GENCODES that changes nothing else. -/
theorem gencodesDerivesTreePaths : Obligations.GencodesDerivesTreePaths := by
  intro s t htv hstore
  obtain ⟨c, hc, hnone, hsome⟩ := codeTable_of_storesTree hstore
  exact ⟨c, exec_gencodes_next htv hc, hnone, hsome⟩

/-- Settles O27: the table gives every symbol its code in the tree, and a tree's codes are a prefix code over its symbols. -/
theorem generatedCodesArePrefixCode : Obligations.GeneratedCodesArePrefixCode := by
  intro s tree htv hstore
  obtain ⟨c, hc, _, hcode⟩ := codeTable_of_storesTree hstore
  replace hcode := hcode tree rfl
  obtain ⟨_, _, _, _, hnodup⟩ := hstore
  refine ⟨_, exec_gencodes_next htv hc, rfl, ?_⟩
  simp only [hcode]
  exact ⟨fun a b => HuffTree.codeFor_not_prefix, HuffTree.codeFor_length_le hnodup, fun _ => HuffTree.codeFor_ne_nil_iff⟩

end Sys2Proof.Machine

/-! SUPPORT. The bit stream (43_bitstream.md R96 to R103): what ENCODE's walk of the input and DECODE's walk under a Leaf root
answer on a prefix, and what the two commands leave with the result of their walk. -/

namespace Sys2Proof.Machine

open Sys2Proof

/-! ## ENCODE -/

/-- One byte with a code puts its code before the codes of the bytes after it. -/
theorem encodeBits_succ {m : Memory} {code : Vector Bits 256} {i : Nat} {sym : Byte} (n : Nat)
    (hread : readByte m i = some sym) (hcode : codeOf code sym ≠ []) :
    encodeBits m code i (n + 1) = (encodeBits m code (i + 1) n).map (codeOf code sym ++ ·) := by
  obtain ⟨b, bs, hc⟩ := List.exists_cons_of_ne_nil hcode
  simp only [encodeBits, memRead_eq, hread, hc]
  cases encodeBits m code (i + 1) n <;> rfl

/-- Written bytes that all have a code put their codes, in input order, before the codes of the bytes after them
(43_bitstream.md R97). -/
theorem encodeBits_append {m : Memory} {code : Vector Bits 256} (bytes : List Byte) (n : Nat) : ∀ i,
    (∀ j, j < bytes.length → readByte m (i + j) = bytes[j]?) → (∀ sym ∈ bytes, codeOf code sym ≠ []) →
    encodeBits m code i (bytes.length + n) =
      (encodeBits m code (i + bytes.length) n).map (bytes.flatMap (codeOf code) ++ ·) := by
  induction bytes with
  | nil =>
    intro i _ _
    rw [List.length_nil, Nat.zero_add, Nat.add_zero]
    cases encodeBits m code i n <;> rfl
  | cons b bs ih =>
    intro i hread hcode
    rw [List.forall_mem_cons] at hcode
    have hhead : readByte m i = some b := by simpa using hread 0 (by simp)
    have htail : ∀ j, j < bs.length → readByte m (i + 1 + j) = bs[j]? := fun j hj => by
      have h := hread (j + 1) (by simpa using hj)
      rwa [List.getElem?_cons_succ, Nat.add_comm j, ← Nat.add_assoc] at h
    have hlen : (b :: bs).length + n = bs.length + n + 1 := by simp only [List.length_cons]; omega
    have hend : i + (b :: bs).length = i + 1 + bs.length := by simp only [List.length_cons]; omega
    rw [hlen, hend, encodeBits_succ _ hhead hcode.1, ih (i + 1) htail hcode.2]
    cases encodeBits m code (i + 1 + bs.length) n <;> simp [Except.map]

/-- On an input every byte of which has a code the walk answers the codes of all its bytes. -/
theorem encodeBits_of_inputIs {s : State} {bytes : List Byte} (hin : inputIs s bytes)
    (hcode : ∀ sym ∈ bytes, codeOf s.code sym ≠ []) :
    encodeBits s.inMem s.code 0 s.inLen.toNat = .ok (bytes.flatMap (codeOf s.code)) := by
  obtain ⟨hlen, _, hread⟩ := hin
  have h := encodeBits_append bytes 0 0 (by simpa using hread) hcode
  rw [hlen, ← Nat.add_zero bytes.length, h, encodeBits]
  simp [Except.map]

/-- With CV = 1 and an input that fits IN_CAP the pre-checks of ENCODE pass and its body runs (43_bitstream.md R96). -/
theorem exec_encode_eq {s : State} (hcv : s.cv = true) (hin : s.inLen.toNat ≤ s.cfg.inCap) :
    exec .encode s = finish (encodeBody s) := by
  have hpre : precheck { tv := false, cv := true, bv := false } true s = none := by
    rw [precheck_none_iff, missingMask_eq_zero_iff]
    simp [hcv, hin]
  rw [exec, execEncode, runCommand, hpre]

/-- An ENCODE whose bits fit BITBUF_CAP completes with them packed and changes only the bits and the status
(43_bitstream.md R96). -/
theorem exec_encode_next {s : State} {bits : Bits} (hcv : s.cv = true) (hin : s.inLen.toNat ≤ s.cfg.inCap)
    (hbits : encodeBits s.inMem s.code 0 s.inLen.toNat = .ok bits) (hfit : ceil8 bits.length ≤ s.cfg.bitbufCap) :
    exec .encode s = .next { s with
      bitbuf := packBytes (ceil8 bits.length) bits, bitLen := BitVec.ofNat 64 bits.length,
      bv := true, done := true, pending := none } := by
  rw [exec_encode_eq hcv hin, encodeBody, hbits, Body.ofExcept_ok, if_neg (Nat.not_lt.mpr hfit)]
  rfl

/-- Settles O28: the walk of the input answers the concatenated codes, and ENCODE packs what its walk answers. -/
theorem encodeConcatenatesCodes : Obligations.EncodeConcatenatesCodes := by
  intro s bytes hcv hin hcode hfit
  have ⟨hlen, hcap, _⟩ := hin
  exact exec_encode_next hcv (hlen ▸ hcap) (encodeBits_of_inputIs hin hcode) hfit

/-! ## DECODE -/

/-- Writing bytes to OUT from address 0 on leaves every other address as it was (93_implementation_defined.md U8). -/
theorem wroteFromZero_writeBytes (m : Memory) (bytes : List Byte) : wroteFromZero m (writeBytes m 0 bytes) bytes := by
  constructor <;> intro a ha
  · rw [readByte_writeBytes, if_pos (by omega), Nat.sub_zero]
  · rw [readByte_writeBytes, if_neg (by omega)]

/-- With TV = BV = 1 the pre-checks of DECODE pass and its body runs, losing OUT on a raise (43_bitstream.md R98). -/
theorem exec_decode_eq {s : State} (htv : s.tv = true) (hbv : s.bv = true) :
    exec .decode s = finish (decodeBody s).losingOut := by
  have hpre : precheck { tv := true, cv := false, bv := true } false s = none := by
    rw [precheck_none_iff, missingMask_eq_zero_iff]
    simp [htv, hbv]
  rw [exec, execDecode, runCommand, hpre]

/-- A DECODE whose walk answers writes the symbols to OUT and changes only OUT and the status (43_bitstream.md R98). -/
theorem exec_decode_next {s : State} {syms : List Byte} (htv : s.tv = true) (hbv : s.bv = true)
    (hsyms : decodeSymbols s = .ok syms) :
    exec .decode s = .next { s with
      outMem := writeBytes s.outMem 0 syms, outLen := BitVec.ofNat 64 syms.length, done := true, pending := none } := by
  rw [exec_decode_eq htv hbv, decodeBody, hsyms]
  rfl

/-- A DECODE whose walk raises loses OUT and records the error (60_exceptions.md R136). -/
theorem exec_decode_error {s : State} {e : CmdError} (htv : s.tv = true) (hbv : s.bv = true)
    (hsyms : decodeSymbols s = .error (.error e)) : exec .decode s = .next (completeError e (outLost s)) := by
  rw [exec_decode_eq htv hbv, decodeBody, hsyms]
  rfl

/-- Stored bits are what DECODE reads of BITBUF (43_bitstream.md R100). -/
theorem unpackBits_of_storesBits {s : State} {bits : Bits} (h : storesBits s bits) :
    unpackBits s.bitLen.toNat s.bitbuf = bits := by
  obtain ⟨hlen, hbuf⟩ := h
  rw [hlen, hbuf, unpackBits_packBytes]

/-- Under a Leaf root DECODE's walk is the walk of R101 over the stored bits. -/
theorem decodeSymbols_leafRoot {s : State} {w : Word} {sym : Byte} {bits : Bits}
    (hstore : storesTree s.nodes s.root (some (.leaf w sym))) (hbits : storesBits s bits) :
    decodeSymbols s = decodeLeafRoot sym s.cfg.outCap bits 0 0 := by
  obtain ⟨r, hroot, hleaf, _⟩ := hstore
  rw [holdsAt] at hleaf
  simp only [decodeSymbols, hroot, hleaf, unpackBits_of_storesBits hbits]

/-- Under a Leaf root 0 bits whose symbols fit OUT_CAP put as many copies of the symbol before what the bits after them
answer (43_bitstream.md R101). -/
theorem decodeLeafRoot_zeros (sym : Byte) (cap : Nat) (rest : Bits) (n : Nat) : ∀ i k, k + n ≤ cap →
    decodeLeafRoot sym cap (List.replicate n false ++ rest) i k =
      (decodeLeafRoot sym cap rest (i + n) (k + n)).map (List.replicate n sym ++ ·) := by
  induction n with
  | zero =>
    intro i k _
    rw [Nat.add_zero, Nat.add_zero]
    cases hrest : decodeLeafRoot sym cap rest i k <;> simp [hrest, Except.map]
  | succ n ih =>
    intro i k hcap
    rw [List.replicate_succ, List.cons_append, decodeLeafRoot, if_neg (by omega), ih (i + 1) (k + 1) (by omega),
      Nat.add_right_comm i, Nat.add_right_comm k, Nat.add_assoc i, Nat.add_assoc k]
    cases decodeLeafRoot sym cap rest (i + (n + 1)) (k + (n + 1)) <;> rfl

/-- Settles O34: the walk of the 0 bits answers their symbols, and goes on to the end of the bits or to the 1 bit. -/
theorem decodeUnderLeafRoot : Obligations.DecodeUnderLeafRoot := by
  intro s w sym n htv hbv hstore hcap
  have hzeros := fun rest => decodeLeafRoot_zeros sym s.cfg.outCap rest n 0 0 (by omega)
  constructor
  · intro hbits
    have hsyms : decodeSymbols s = .ok (List.replicate n sym) := by
      rw [decodeSymbols_leafRoot hstore hbits, ← List.append_nil (List.replicate n false), hzeros, decodeLeafRoot]
      simp [Except.map]
    have hexec := exec_decode_next htv hbv hsyms
    rw [List.length_replicate] at hexec
    exact ⟨_, hexec, wroteFromZero_writeBytes _ _⟩
  · intro rest hbits
    have hsyms : decodeSymbols s = .error (.error (corruptError .leafRootOne n)) := by
      rw [decodeSymbols_leafRoot hstore hbits, hzeros, decodeLeafRoot, Nat.zero_add]
      rfl
    exact exec_decode_error htv hbv hsyms

end Sys2Proof.Machine

/-! SUPPORT. The decoder of command words (30_encoding.md R66 to R69): a word decodes to a command exactly when it is that
command's word. -/

namespace Sys2Proof

/-- A word whose RSVD field is 0 is its OPCODE field alone (30_encoding.md R66). -/
theorem eq_setWidth_opcodeField {w : Word} (h : rsvdField w = 0) : w = (opcodeField w).setWidth 64 := by
  have hw := w.isLt
  have hr := congrArg BitVec.toNat h
  apply BitVec.eq_of_toNat_eq
  simp only [rsvdField, opcodeField, BitVec.extractLsb'_toNat, BitVec.toNat_setWidth, BitVec.ofNat_eq_ofNat,
    BitVec.toNat_ofNat, Nat.shiftRight_eq_div_pow] at hr ⊢
  omega

/-- The opcode map answers a command only on that command's opcode (30_encoding.md R68). -/
theorem encode_of_decodeOpcode {op : Byte} {i : Instr} (h : decodeOpcode op = .ok i) : encode i = op.setWidth 64 := by
  have hop (n : Nat) (hn : op.toNat = n) : op.setWidth 64 = BitVec.ofNat 64 n := by
    rw [← hn, BitVec.ofNat_toNat]
  unfold decodeOpcode at h
  split at h
  case h_12 => exact absurd h nofun
  all_goals
    next hn =>
    obtain rfl := Except.ok.inj h
    exact (hop _ hn).symm

theorem decode_encode (i : Instr) : decode (encode i) = .ok i := by cases i <;> rfl

theorem decode_eq_ok_iff {w : Word} {i : Instr} : decode w = .ok i ↔ w = encode i := by
  constructor
  · intro h
    unfold decode at h
    split at h
    · next hrsvd => rw [encode_of_decodeOpcode h, ← eq_setWidth_opcodeField hrsvd]
    · exact absurd h nofun
  · rintro rfl
    exact decode_encode i

theorem legalWord_encode (i : Instr) : legalWord (encode i) = true := by cases i <;> decide

/-- A legal word is one of the eleven command words (60_exceptions.md R129 item 1). -/
theorem exists_encode_of_legalWord {w : Word} (h : legalWord w = true) : ∃ i, w = encode i := by
  simp only [legalWord, Bool.and_eq_true, decide_eq_true_eq] at h
  obtain ⟨hrsvd, hop⟩ := h
  have hw : w = BitVec.ofNat 64 (w.toNat % 256) := by
    have hdiv := congrArg BitVec.toNat hrsvd
    apply BitVec.eq_of_toNat_eq
    simp only [BitVec.toNat_ushiftRight, BitVec.toNat_ofNat, Nat.shiftRight_eq_div_pow] at hdiv ⊢
    omega
  have hle : w.toNat % 256 ≤ 10 := by simpa [BitVec.le_def] using hop
  have hall : ∀ n ≤ 10, ∃ i, BitVec.ofNat 64 n = encode i
    | 0, _ => ⟨.nop, rfl⟩
    | 1, _ => ⟨.count, rfl⟩
    | 2, _ => ⟨.build, rfl⟩
    | 3, _ => ⟨.gencodes, rfl⟩
    | 4, _ => ⟨.encode, rfl⟩
    | 5, _ => ⟨.serialize, rfl⟩
    | 6, _ => ⟨.deserialize, rfl⟩
    | 7, _ => ⟨.decode, rfl⟩
    | 8, _ => ⟨.compress, rfl⟩
    | 9, _ => ⟨.uncompress, rfl⟩
    | 10, _ => ⟨.clear, rfl⟩
    | n + 11, hn => by omega
  rw [hw]
  exact hall _ hle

/-- A word decodes to some command exactly when it is legal. -/
theorem exists_decode_iff_legalWord (w : Word) : (∃ i, decode w = .ok i) ↔ legalWord w = true := by
  constructor
  · rintro ⟨i, hi⟩
    rw [decode_eq_ok_iff.mp hi]
    exact legalWord_encode i
  · intro h
    obtain ⟨i, hi⟩ := exists_encode_of_legalWord h
    exact ⟨i, decode_eq_ok_iff.mpr hi⟩

/-- An illegal word is rejected (30_encoding.md R69). -/
theorem decode_error_of_illegal {w : Word} (h : legalWord w = false) : ∃ r, decode w = .error r := by
  cases hd : decode w with
  | error r => exact ⟨r, rfl⟩
  | ok i => rw [(exists_decode_iff_legalWord w).mp ⟨i, hd⟩] at h; exact absurd h nofun

/-- Settles O1: the opcode map answers each command on its own opcode. -/
theorem encodedCommandDecodes : Obligations.EncodedCommandDecodes := decode_encode

/-- Settles O2: a command is decoded from its own word alone, and the legal words are the eleven command words. -/
theorem onlyCommandWordsDecode : Obligations.OnlyCommandWordsDecode :=
  ⟨fun _ _ => decode_eq_ok_iff, exists_decode_iff_legalWord⟩

/-- Settles O3: each word is evaluated. -/
theorem sampleWordsDecode : Obligations.SampleWordsDecode := by
  unfold Obligations.SampleWordsDecode
  decide

end Sys2Proof

/-! SUPPORT. The commands as one shape (60_exceptions.md R127, R129): flags, pre-checks, a body and a completion; and what a
body can leave behind. -/

namespace Sys2Proof.Machine

open Sys2Proof

/-! ## Every command is its pre-checks, a body and a completion -/

/-- The body of a command, with OUT lost on a raise of the commands that write OUT (60_exceptions.md R136). -/
def bodyOf : Instr → State → Body
  | .nop => Body.done
  | .count => countBody
  | .build => buildBody
  | .gencodes => gencodesBody
  | .encode => encodeBody
  | .serialize => fun s => (serializeBody s).losingOut
  | .deserialize => deserializeBody
  | .decode => fun s => (decodeBody s).losingOut
  | .compress => fun s => (compressBody s).losingOut
  | .uncompress => fun s => (uncompressBody s).losingOut
  | .clear => clearBody

theorem exec_eq_runCommand (i : Instr) (s : State) : exec i s = runCommand i.need i.readsIn (bodyOf i) s := by
  cases i <;> rfl

/-- A command whose pre-checks pass is the completion of its body. -/
theorem exec_eq_finish {i : Instr} {s : State} (h : precheck i.need i.readsIn s = none) :
    exec i s = finish (bodyOf i s) := by
  rw [exec_eq_runCommand, runCommand, h]

/-- A command whose pre-checks fail records the error alone. -/
theorem exec_eq_completeError {i : Instr} {s : State} {e : CmdError} (h : precheck i.need i.readsIn s = some e) :
    exec i s = .next (completeError e s) := by
  rw [exec_eq_runCommand, runCommand, h]

theorem exec_not_refused (i : Instr) (s : State) (r : Refusal) : exec i s ≠ .refused r :=
  exec_eq_runCommand i s ▸ runCommand_not_refused _ _ _ _ r

/-! ## The states a body can leave -/

/-- Whatever state a body leaves, at its end or when it raises, meets `P`. -/
def Body.Leaves (P : State → Prop) : Body → Prop
  | .done s => P s
  | .raised _ s => P s
  | .faulted _ => True

theorem Body.Leaves.mono {P Q : State → Prop} (hPQ : ∀ t, P t → Q t) {b : Body} (h : b.Leaves P) : b.Leaves Q := by
  cases b with
  | done s => exact hPQ s h
  | raised e s => exact hPQ s h
  | faulted f => exact h

theorem Body.leaves_ofExcept {α : Type} {P : State → Prop} {r : Except Stop α} {s : State} {k : α → Body}
    (hs : P s) (hk : ∀ a, r = .ok a → (k a).Leaves P) : (Body.ofExcept r s k).Leaves P := by
  cases r with
  | ok a => exact hk a rfl
  | error e =>
    cases e with
    | error e => exact hs
    | fault f => exact trivial

theorem Body.leaves_andThen {P : State → Prop} {b : Body} {k : State → Body} (hb : b.Leaves P)
    (hk : ∀ s, P s → (k s).Leaves P) : (b.andThen k).Leaves P := by
  cases b with
  | done s => exact hk s hb
  | raised e s => exact hb
  | faulted f => exact trivial

theorem Body.leaves_losingOut {P : State → Prop} {b : Body} (hb : b.Leaves P) (hlost : ∀ s, P s → P (outLost s)) :
    b.losingOut.Leaves P := by
  cases b with
  | done s => exact hb
  | raised e s => exact hlost s hb
  | faulted f => exact trivial

/-- A next state of a command is a completion of the state it started from or of one its body left. -/
theorem exec_next_leaves {P : State → Prop} {i : Instr} {s t : State} (hs : P s) (hb : (bodyOf i s).Leaves P)
    (h : exec i s = .next t) : ∃ u, P u ∧ (t = completeOk u ∨ ∃ e, t = completeError e u) := by
  rw [exec_eq_runCommand] at h
  rcases runCommand_next h with ⟨e, _, rfl⟩ | ⟨_, u, hu, rfl⟩ | ⟨_, e, u, hu, rfl⟩
  · exact ⟨s, hs, .inr ⟨e, rfl⟩⟩
  · exact ⟨u, by rwa [hu] at hb, .inl rfl⟩
  · exact ⟨u, by rwa [hu] at hb, .inr ⟨e, rfl⟩⟩

/-- Every completion leaves PENDING empty (60_exceptions.md R127). -/
theorem exec_next_pending {i : Instr} {s t : State} (h : exec i s = .next t) : t.pending = none := by
  have hb : (bodyOf i s).Leaves fun _ => True := by cases bodyOf i s <;> trivial
  obtain ⟨u, _, rfl | ⟨e, rfl⟩⟩ := exec_next_leaves trivial hb h <;> rfl

/-! ## The frame of a body -/

/-- `t` is `s` but for FREQ, the tree store, CODE, the bits and the three flags. -/
def OnlyProducts (s t : State) : Prop :=
  t = { s with
    freq := t.freq, nodes := t.nodes, root := t.root, code := t.code, bitLen := t.bitLen, bitbuf := t.bitbuf,
    tv := t.tv, cv := t.cv, bv := t.bv }

/-- `t` is `s` but for these and for OUT and OUT_LEN. -/
def OnlyProductsAndOut (s t : State) : Prop :=
  t = { s with
    freq := t.freq, nodes := t.nodes, root := t.root, code := t.code, bitLen := t.bitLen, bitbuf := t.bitbuf,
    tv := t.tv, cv := t.cv, bv := t.bv, outMem := t.outMem, outLen := t.outLen }

theorem OnlyProducts.toOut {s t : State} (h : OnlyProducts s t) : OnlyProductsAndOut s t := by
  unfold OnlyProducts at h
  rw [h]
  rfl

theorem OnlyProductsAndOut.trans {s t u : State} (h : OnlyProductsAndOut s t) (h' : OnlyProductsAndOut t u) :
    OnlyProductsAndOut s u := by
  unfold OnlyProductsAndOut at h h'
  rw [h', h]
  rfl

theorem OnlyProductsAndOut.outLost {s t : State} (h : OnlyProductsAndOut s t) :
    OnlyProductsAndOut s (outLost t) := h.trans rfl

theorem countBody_frame (s : State) : (countBody s).Leaves (OnlyProducts s) :=
  Body.leaves_ofExcept rfl fun _ _ => rfl

theorem buildBody_frame (s : State) : (buildBody s).Leaves (OnlyProducts s) := by
  unfold buildBody
  split
  · rfl
  · split <;> rfl

theorem gencodesBody_frame (s : State) : (gencodesBody s).Leaves (OnlyProducts s) :=
  Body.leaves_ofExcept rfl fun _ _ => rfl

theorem encodeBody_frame (s : State) : (encodeBody s).Leaves (OnlyProducts s) := by
  refine Body.leaves_ofExcept rfl fun bits _ => ?_
  split <;> rfl

theorem deserializeBody_frame (s : State) : (deserializeBody s).Leaves (OnlyProducts s) :=
  Body.leaves_ofExcept rfl fun _ _ => rfl

theorem serializeBody_frame (s : State) : (serializeBody s).Leaves (OnlyProductsAndOut s) := by
  unfold serializeBody
  split
  · rfl
  · exact Body.leaves_ofExcept rfl fun _ _ => rfl

theorem decodeBody_frame (s : State) : (decodeBody s).Leaves (OnlyProductsAndOut s) :=
  Body.leaves_ofExcept rfl fun _ _ => rfl

theorem compressTree_frame (s : State) : (compressTree s).Leaves (OnlyProducts s) := by
  unfold compressTree
  split
  · rfl
  · exact buildBody_frame s

/-- A frame of a first body carries over a second one that keeps the frame. -/
theorem Body.andThen_frame {s : State} {b : Body} {k : State → Body} (hb : b.Leaves (OnlyProductsAndOut s))
    (hk : ∀ t, (k t).Leaves (OnlyProductsAndOut t)) : (b.andThen k).Leaves (OnlyProductsAndOut s) :=
  Body.leaves_andThen hb fun t ht => (hk t).mono fun _ => ht.trans

theorem compressBody_frame (s : State) : (compressBody s).Leaves (OnlyProductsAndOut s) := by
  have hout {b : Body} {t : State} (h : b.Leaves (OnlyProducts t)) : b.Leaves (OnlyProductsAndOut t) :=
    h.mono fun _ => OnlyProducts.toOut
  unfold compressBody
  refine Body.andThen_frame (Body.andThen_frame (Body.andThen_frame (Body.andThen_frame ?_ ?_) ?_) ?_) ?_
  · exact hout (countBody_frame s)
  · exact fun t => hout (compressTree_frame t)
  · exact fun t => hout (gencodesBody_frame t)
  · exact fun t => hout (encodeBody_frame t)
  · exact serializeBody_frame

theorem uncompressBody_frame (s : State) : (uncompressBody s).Leaves (OnlyProductsAndOut s) :=
  Body.andThen_frame ((deserializeBody_frame s).mono fun _ => OnlyProducts.toOut) decodeBody_frame

/-- No body but CLEAR's and those that write OUT changes anything but the products. -/
theorem bodyOf_onlyProducts {i : Instr} (s : State) (hout : i.writesOut = false) (hclear : i ≠ .clear) :
    (bodyOf i s).Leaves (OnlyProducts s) := by
  cases i with
  | nop => rfl
  | count => exact countBody_frame s
  | build => exact buildBody_frame s
  | gencodes => exact gencodesBody_frame s
  | encode => exact encodeBody_frame s
  | deserialize => exact deserializeBody_frame s
  | serialize | decode | compress | uncompress => exact absurd hout nofun
  | clear => exact absurd rfl hclear

/-- No body but CLEAR's changes anything but the products, OUT and OUT_LEN. -/
theorem bodyOf_onlyProductsAndOut {i : Instr} (s : State) (hclear : i ≠ .clear) :
    (bodyOf i s).Leaves (OnlyProductsAndOut s) := by
  by_cases hout : i.writesOut = false
  · exact (bodyOf_onlyProducts s hout hclear).mono fun _ => OnlyProducts.toOut
  · have hlost {b : Body} (h : b.Leaves (OnlyProductsAndOut s)) : b.losingOut.Leaves (OnlyProductsAndOut s) :=
      Body.leaves_losingOut h fun _ => OnlyProductsAndOut.outLost
    cases i with
    | serialize => exact hlost (serializeBody_frame s)
    | decode => exact hlost (decodeBody_frame s)
    | compress => exact hlost (compressBody_frame s)
    | uncompress => exact hlost (uncompressBody_frame s)
    | nop | count | build | gencodes | encode | deserialize | clear => exact absurd rfl hout

/-- What no command's body changes: all but the products, OUT, OUT_LEN and OVERRUN. -/
theorem bodyOf_keeps {α : Type} (f : State → α) (hf : ∀ s t, OnlyProductsAndOut s t → f t = f s)
    (hclear : ∀ s : State, f { invalidateAll { s with freq := Vector.replicate 256 0 } with outLen := 0, overrun := false }
      = f s) (i : Instr) (s : State) : (bodyOf i s).Leaves fun t => f t = f s := by
  by_cases h : i = .clear
  · subst h
    exact hclear s
  · exact (bodyOf_onlyProductsAndOut s h).mono fun t => hf s t

/-! ## The obligations -/

/-- What no command changes, as one value: the configuration, IN, IN_LEN, WIN_INDEX, LAST_OP and the HOST's side. -/
def untouched (s : State) :=
  (s.cfg, s.inMem, s.inLen, s.winIdx, s.winSel, s.lastOp, s.hostProgram, s.hostLog, s.schedule, s.draws)

theorem exec_next_untouched {i : Instr} {s t : State} (h : exec i s = .next t) : untouched t = untouched s := by
  have hkeeps : (bodyOf i s).Leaves fun t => untouched t = untouched s :=
    bodyOf_keeps untouched (fun _ _ hframe => (congrArg untouched hframe :)) (fun _ => rfl) i s
  obtain ⟨u, hu, rfl | ⟨e, rfl⟩⟩ := exec_next_leaves (P := fun u => untouched u = untouched s) rfl hkeeps h <;> exact hu

theorem exec_next_cfg {i : Instr} {s t : State} (h : exec i s = .next t) : t.cfg = s.cfg :=
  congrArg Prod.fst (exec_next_untouched h)

theorem exec_next_inMem {i : Instr} {s t : State} (h : exec i s = .next t) : t.inMem = s.inMem :=
  congrArg (·.2.1) (exec_next_untouched h)

/-- Settles O12: `exec_next_untouched`, and every completion leaves PENDING empty. -/
theorem commandsLeaveInputAlone : Obligations.CommandsLeaveInputAlone := by
  intro i s t h
  have hkept := exec_next_untouched h
  simp only [untouched, Prod.mk.injEq] at hkept
  obtain ⟨_, hin, hlen, hidx, hsel, hop, hprogram, hlog, hschedule, hdraws⟩ := hkept
  exact ⟨hin, hlen, hidx, hsel, hop, hprogram, hlog, hschedule, hdraws, exec_next_pending h⟩

/-- Settles O13: CLEAR clears OUT_LEN alone, and the other bodies change only the products. -/
theorem onlyOutCommandsChangeOut : Obligations.OnlyOutCommandsChangeOut := by
  intro i s t h hout
  have hleaves : (bodyOf i s).Leaves fun u => u.outMem = s.outMem ∧ (i ≠ .clear → u.outLen = s.outLen) := by
    by_cases hclear : i = .clear
    · subst hclear
      exact ⟨rfl, fun h => absurd rfl h⟩
    · exact (bodyOf_onlyProducts s hout hclear).mono fun u hu =>
        ⟨(congrArg State.outMem hu :), fun _ => (congrArg State.outLen hu :)⟩
  obtain ⟨u, hu, rfl | ⟨e, rfl⟩⟩ := exec_next_leaves ⟨rfl, fun _ => rfl⟩ hleaves h <;> exact hu

/-- The body of an OUT-writing command raises only with OUT lost. -/
theorem bodyOf_raised_outLost {i : Instr} (hout : i.writesOut = true) {s u : State} {e : CmdError}
    (h : bodyOf i s = .raised e u) : ∃ v, u = outLost v := by
  cases i with
  | serialize | decode | compress | uncompress =>
    obtain ⟨v, _, hv⟩ := Body.losingOut_raised h
    exact ⟨v, hv⟩
  | nop | count | build | gencodes | encode | deserialize | clear => exact absurd hout nofun

theorem bodyOf_keeps_err (i : Instr) (s : State) : (bodyOf i s).Leaves fun t => t.err = s.err :=
  bodyOf_keeps State.err (fun _ _ hframe => (congrArg State.err hframe :)) (fun _ => rfl) i s

/-- Settles O16: with the pre-checks passed ERR comes from a raise of the body, which loses OUT. -/
theorem failedOutCommandLosesOut : Obligations.FailedOutCommandLosesOut := by
  intro i s t hout hpre herr h hterr
  have hkeeps := bodyOf_keeps_err i s
  rw [exec_eq_finish hpre] at h
  cases hb : bodyOf i s with
  | done u =>
    rw [hb] at h hkeeps
    obtain rfl := Host.Outcome.next.inj h
    rw [completeOk_err, hkeeps, herr] at hterr
    exact absurd hterr nofun
  | raised e u =>
    rw [hb] at h
    obtain rfl := Host.Outcome.next.inj h
    obtain ⟨v, rfl⟩ := bodyOf_raised_outLost hout hb
    exact ⟨rfl, fun _ => rfl⟩
  | faulted f => rw [hb] at h; exact absurd h nofun

/-- Settles O14: the pre-checks are the mask and then the length. -/
theorem precheckFailureChangesNothingElse : Obligations.PrecheckFailureChangesNothingElse := by
  intro i s
  constructor
  · intro hmask
    have hpre : precheck i.need i.readsIn s =
        some { code := .notReady, detail := missingMask i.need s, info := 0 } := by
      rw [precheck, if_pos hmask]
    exact exec_eq_completeError hpre
  · intro hmask hreads hlen
    have hpre : precheck i.need i.readsIn s = some { code := .inLength, detail := 0, info := s.inLen } := by
      rw [precheck, if_neg (not_not_intro hmask), hreads, if_pos (by simpa using hlen)]
    exact exec_eq_completeError hpre

/-- Settles O15: a sum of three different powers of 2, each present when its flag is missing. -/
theorem notReadyMaskBits : Obligations.NotReadyMaskBits := by
  intro n s k
  unfold missingMask
  generalize (n.tv && !s.tv) = a
  generalize (n.cv && !s.cv) = b
  generalize (n.bv && !s.bv) = c
  by_cases hk : k < 8
  · revert a b c
    interval_cases k <;> decide
  · rw [BitVec.getLsbD_of_ge _ _ (by omega), if_neg (by omega), if_neg (by omega), if_neg (by omega)]

/-- Settles O17: NOP's body does nothing. -/
theorem nopOnlyCompletes : Obligations.NopOnlyCompletes := fun _ => rfl

/-- Settles O18: CLEAR's body is its writes. -/
theorem clearReturnsComputedState : Obligations.ClearReturnsComputedState := fun _ => rfl

end Sys2Proof.Machine

/-! SUPPORT. The step of the two agents (00_scope.md R11): what the ENGINE's and the HOST's step can do, and what every step
keeps. -/

namespace Sys2Proof.Machine

open Sys2Proof

/-! ## The ENGINE's step -/

theorem engineStep_ok {w : Word} {i : Instr} (h : decode w = .ok i) (s : State) : engineStep w s = exec i s := by
  rw [engineStep, h]

theorem engineStep_illegal {w : Word} (h : legalWord w = false) (s : State) : engineStep w s = execIllegal w s := by
  obtain ⟨r, hr⟩ := decode_error_of_illegal h
  rw [engineStep, hr]

/-- A next state of the ENGINE is that of the command its word encodes, or the completion with ILLEGAL_COMMAND. -/
theorem engineStep_next {w : Word} {s t : State} (h : engineStep w s = .next t) :
    (∃ i, w = encode i ∧ exec i s = .next t) ∨
    t = completeError { code := .illegalCommand, detail := 0, info := w } s := by
  cases hd : decode w with
  | ok i => exact .inl ⟨i, decode_eq_ok_iff.mp hd, by rwa [engineStep_ok hd] at h⟩
  | error r =>
    rw [engineStep, hd] at h
    exact .inr (Host.Outcome.next.inj h).symm

theorem engineStep_not_refused (w : Word) (s : State) (r : Refusal) : engineStep w s ≠ .refused r := by
  unfold engineStep
  split
  · exact nofun
  · exact exec_not_refused _ s r

theorem engineStep_next_pending {w : Word} {s t : State} (h : engineStep w s = .next t) : t.pending = none := by
  rcases engineStep_next h with ⟨i, _, hi⟩ | rfl
  · exact exec_next_pending hi
  · rfl

/-! ## The HOST's step -/

/-- Everything a HOST operation that is answered can do: read, issue a command, store a register, write an IN byte, reset. -/
inductive HostEffect (op : HostOp) (s : State) : State → Prop
  | reads (log : List Observation) (draws : Nat) (program : List HostOp) :
      HostEffect op s { s with hostLog := log, draws := draws, hostProgram := program }
  | command (w : Word) : HostEffect op s (cmdWrite w s)
  | stores (r : Reg) (v : Word) (hidle : s.busy = false) : HostEffect op s (regStore r v s)
  | writesIn (a : Nat) (b : Byte) (hcap : a < s.cfg.inCap) (hidle : s.busy = false) :
      HostEffect op s { s with inMem := writeByte s.inMem a b }
  | resets (hop : op = .txn .reset) : HostEffect op s (resetCore s)

/-- A register read shows the HOST one value and draws at most one (20_memory.md R57, 70_reset_and_hazards.md R151). -/
theorem regRead_eq (off : Nat) (s : State) :
    regRead off s = { s with hostLog := (regRead off s).hostLog, draws := (regRead off s).draws } := by
  unfold regRead
  split
  · split
    · rfl
    · split <;> rfl
  · rfl

/-- A legal register access takes effect; any other is a fault (20_memory.md R53, R57). -/
theorem regAccess_next {off : Nat} {u t : State} (h : regAccess off u = .next t) : t = u := by
  unfold regAccess at h
  split at h
  · exact absurd h nofun
  · split at h
    · exact absurd h nofun
    · exact (Host.Outcome.next.inj h).symm

theorem regWrite_effect (op : HostOp) (off : Nat) (v : Word) (s : State) : HostEffect op s (regWrite off v s) := by
  unfold regWrite
  split
  · exact .command v
  · split
    · exact .reads s.hostLog s.draws s.hostProgram
    · next hidle => exact .stores _ v (by simpa using hidle)

theorem inWrite_effect {op : HostOp} {a : Nat} {b : Byte} {s t : State} (h : inWrite a b s = .next t) :
    HostEffect op s t := by
  unfold inWrite at h
  split at h
  · exact absurd h nofun
  · next hcap =>
    split at h
    · exact absurd h nofun
    · next hidle =>
      obtain rfl := Host.Outcome.next.inj h
      exact .writesIn a b (Nat.lt_of_not_le hcap) (by simpa using hidle)

theorem inRead_effect {op : HostOp} {a : Nat} {s t : State} (h : inRead a s = .next t) : HostEffect op s t := by
  unfold inRead at h
  split at h
  · exact absurd h nofun
  · split at h
    all_goals
      obtain rfl := Host.Outcome.next.inj h
      exact .reads _ _ s.hostProgram

theorem outRead_effect {op : HostOp} {a : Nat} {s t : State} (h : outRead a s = .next t) : HostEffect op s t := by
  unfold outRead at h
  split at h
  · exact absurd h nofun
  · split at h
    · obtain rfl := Host.Outcome.next.inj h
      exact .reads _ _ s.hostProgram
    · split at h
      all_goals
        obtain rfl := Host.Outcome.next.inj h
        exact .reads _ _ s.hostProgram

theorem hostStep_effect {op : HostOp} {s t : State} (h : hostStep op s = .next t) : HostEffect op s t := by
  cases op with
  | wait =>
    unfold hostStep at h
    dsimp only at h
    split at h
    all_goals
      obtain rfl := Host.Outcome.next.inj h
      rw [regRead_eq]
      exact .reads _ _ _
  | txn txn =>
    cases txn with
    | regRead off =>
      obtain rfl := regAccess_next h
      rw [regRead_eq]
      exact .reads _ _ s.hostProgram
    | regWrite off v =>
      obtain rfl := regAccess_next h
      exact regWrite_effect _ off v s
    | inWrite a b => exact inWrite_effect h
    | inRead a => exact inRead_effect h
    | outRead a => exact outRead_effect h
    | reset =>
      obtain rfl := Host.Outcome.next.inj h
      exact .resets rfl
    | partRegAccess off => exact absurd h nofun
    | wideMemAccess a => exact absurd h nofun
    | outWrite a b => exact absurd h nofun

theorem regAccess_of_legal {off : Nat} (hlt : off < 0x100) (halign : off % 8 = 0) (u : State) :
    regAccess off u = .next u := by
  rw [regAccess, if_neg (by omega), if_neg (by omega)]

theorem regAccess_of_forbidden {off : Nat} (h : (decide (0x100 ≤ off) || decide (off % 8 ≠ 0)) = true) (u : State) :
    ∃ f, regAccess off u = .fault f := by
  by_cases hlt : 0x100 ≤ off
  · exact ⟨_, if_pos hlt⟩
  · have halign : off % 8 ≠ 0 := by simpa [hlt] using h
    exact ⟨_, (if_neg hlt).trans (if_pos halign)⟩

theorem regAccess_of_allowed {off : Nat} (h : (decide (0x100 ≤ off) || decide (off % 8 ≠ 0)) = false) (u : State) :
    regAccess off u = .next u := by
  simp only [Bool.or_eq_false_iff, decide_eq_false_iff_not] at h
  exact regAccess_of_legal (by omega) (by omega) u

/-- A transaction that the interface forbids is a fault (20_memory.md R53, R57; 70_reset_and_hazards.md R152). -/
theorem hostTxn_forbidden {t : HostTxn} {s : State} (h : forbidden (.txn t) s = true) : ∃ f, hostTxn t s = .fault f := by
  cases t with
  | regRead off => exact regAccess_of_forbidden h _
  | regWrite off v => exact regAccess_of_forbidden h _
  | inWrite a b =>
    by_cases hcap : s.cfg.inCap ≤ a
    · exact ⟨_, if_pos hcap⟩
    · have hbusy : s.busy = true := by simpa [forbidden, hcap] using h
      exact ⟨_, (if_neg hcap).trans (if_pos hbusy)⟩
  | inRead a => exact ⟨_, if_pos (of_decide_eq_true h)⟩
  | outRead a => exact ⟨_, if_pos (of_decide_eq_true h)⟩
  | reset => exact absurd h nofun
  | partRegAccess off => exact ⟨_, rfl⟩
  | wideMemAccess a => exact ⟨_, rfl⟩
  | outWrite a b => exact ⟨_, rfl⟩

theorem hostTxn_allowed {t : HostTxn} {s : State} (h : forbidden (.txn t) s = false) : ∃ u, hostTxn t s = .next u := by
  cases t with
  | regRead off => exact ⟨_, regAccess_of_allowed h _⟩
  | regWrite off v => exact ⟨_, regAccess_of_allowed h _⟩
  | inWrite a b =>
    simp only [forbidden, Bool.or_eq_false_iff, decide_eq_false_iff_not] at h
    obtain ⟨hcap, hidle⟩ := h
    exact ⟨_, (if_neg hcap).trans (if_neg (by simp [hidle]))⟩
  | inRead a =>
    have hcap : ¬ s.cfg.inCap ≤ a := of_decide_eq_false h
    rw [hostTxn, inRead, if_neg hcap]
    cases readByte s.inMem a <;> exact ⟨_, rfl⟩
  | outRead a =>
    have hcap : ¬ s.cfg.outCap ≤ a := of_decide_eq_false h
    rw [hostTxn, outRead, if_neg hcap]
    cases s.busy with
    | true => exact ⟨_, rfl⟩
    | false => cases readByte s.outMem a <;> exact ⟨_, rfl⟩
  | reset => exact ⟨_, rfl⟩
  | partRegAccess off => exact absurd h nofun
  | wideMemAccess a => exact absurd h nofun
  | outWrite a b => exact absurd h nofun

/-- Settles O59: transaction by transaction; WAIT is a read of STATUS. -/
theorem forbiddenAccessesAreFaults : Obligations.ForbiddenAccessesAreFaults := by
  intro s op
  cases op with
  | txn t => exact ⟨hostTxn_forbidden, hostTxn_allowed⟩
  | wait =>
    refine ⟨nofun, fun _ => ?_⟩
    rw [hostStep]
    cases s.busy <;> exact ⟨_, rfl⟩

theorem hostStep_not_refused (op : HostOp) (s : State) (r : Refusal) : hostStep op s ≠ .refused r := by
  obtain ⟨hfault, hnext⟩ := forbiddenAccessesAreFaults s op
  cases h : forbidden op s with
  | true => obtain ⟨f, hf⟩ := hfault h; rw [hf]; exact nofun
  | false => obtain ⟨t, ht⟩ := hnext h; rw [ht]; exact nofun

/-! ## The choice of the agent -/

/-- A next state of a step is one of no agent, of the ENGINE on the pending word, or of the HOST on its next operation. -/
theorem step_next {s t : State} (h : step s = .next t) :
    t = s ∨
    (nextAgent s = some .engine ∧ ∃ w, s.pending = some w ∧ engineStep w (takeTurn s) = .next t) ∨
    (nextAgent s = some .host ∧ ∃ op rest, s.hostProgram = op :: rest ∧
      hostStep op { takeTurn s with hostProgram := rest } = .next t) := by
  unfold step stepAgents at h
  split at h
  · exact .inl (Host.Outcome.next.inj h).symm
  · next hagent =>
    split at h
    · next w hw => exact .inr (.inl ⟨hagent, w, hw, h⟩)
    · exact .inl (Host.Outcome.next.inj h).symm
  · next hagent =>
    split at h
    · next op rest hprogram => exact .inr (.inr ⟨hagent, op, rest, hprogram, h⟩)
    · exact .inl (Host.Outcome.next.inj h).symm

/-- The turn uses up at most a schedule entry. -/
theorem takeTurn_eq (s : State) : takeTurn s = { s with schedule := (takeTurn s).schedule } := by
  unfold takeTurn
  split <;> rfl

theorem step_engine {s : State} {w : Word} (hagent : nextAgent s = some .engine) (hw : s.pending = some w) :
    step s = engineStep w (takeTurn s) := by
  rw [step, stepAgents, hagent]
  simp only [hw]

theorem step_host {s : State} {op : HostOp} {rest : List HostOp} (hagent : nextAgent s = some .host)
    (hprogram : s.hostProgram = op :: rest) : step s = hostStep op { takeTurn s with hostProgram := rest } := by
  rw [step, stepAgents, hagent]
  simp only [hprogram]

theorem nextAgent_eq_none_iff (s : State) : nextAgent s = none ↔ s.pending = none ∧ s.hostProgram = [] := by
  unfold nextAgent
  split <;> simp_all

/-- A property that the HOST's and the ENGINE's step keep, whatever HOST program and schedule stand beside, every step
keeps. -/
theorem step_keeps {P : State → Prop} (hturn : ∀ s program schedule, P s →
      P { s with hostProgram := program, schedule := schedule })
    (hexec : ∀ i s t, s.pending = some (encode i) → P s → exec i s = .next t → P t)
    (hillegal : ∀ w s, s.pending = some w → P s →
      P (completeError { code := .illegalCommand, detail := 0, info := w } s))
    (hhost : ∀ op s t, P s → HostEffect op s t → P t) {s t : State} (hs : P s) (h : step s = .next t) : P t := by
  rcases step_next h with rfl | ⟨_, w, hw, hengine⟩ | ⟨_, op, rest, hprogram, hop⟩
  · exact hs
  · rw [takeTurn_eq] at hengine
    have hs' := hturn s s.hostProgram (takeTurn s).schedule hs
    rcases engineStep_next hengine with ⟨i, rfl, hi⟩ | rfl
    · exact hexec i { s with schedule := (takeTurn s).schedule } t hw hs' hi
    · exact hillegal w { s with schedule := (takeTurn s).schedule } hw hs'
  · rw [takeTurn_eq] at hop
    exact hhost op _ t (hturn s rest (takeTurn s).schedule hs) (hostStep_effect hop)

/-! ## The obligations -/

/-- Settles O4: the ENGINE's step is the decoded command's exec. -/
theorem stepRunsPendingCommand : Obligations.StepRunsPendingCommand := by
  intro s w i hagent hw hd
  rw [step_engine hagent hw, engineStep_ok hd]

/-- Settles O5: the HOST's step, the idle step, and WAIT as a read of STATUS. -/
theorem stepRunsHostOperation : Obligations.StepRunsHostOperation := by
  refine ⟨fun s op rest => step_host, nextAgent_eq_none_iff, fun s h => ?_, fun s h => ?_, fun s h => ?_⟩
  · rw [step, stepAgents, h]
  · rw [hostStep, h]
    rfl
  · refine ⟨regRead 0x10 s, rfl, ?_⟩
    rw [hostStep, h]
    rfl

/-- Settles O6: placing puts the ENGINE's turn first, and the step uses that entry up. -/
theorem placedWordRunsNext : Obligations.PlacedWordRunsNext := by
  intro s nbits w i hw
  have hd : decode (tableWord nbits w) = .ok i := by
    unfold decodeTableWord at hw
    split at hw
    · next hd => rw [hd, Option.some.inj hw]
    · exact absurd hw nofun
  rw [State.withFetchWord, placeWord]
  cases hprogram : s.hostProgram with
  | nil =>
    have hagent : nextAgent (acceptWord (tableWord nbits w) s) = some .engine := by simp [nextAgent, hprogram]
    have hturn : takeTurn (acceptWord (tableWord nbits w) s) = acceptWord (tableWord nbits w) s := by
      simp [takeTurn, hprogram]
    rw [step_engine hagent rfl, engineStep_ok hd, hturn]
  | cons op rest =>
    dsimp only
    rw [step_engine (w := tableWord nbits w) (by simp [nextAgent, hprogram]) rfl, engineStep_ok hd]
    simp [takeTurn, hprogram, acceptWord]

/-- An illegal word is one whose opcode is above 0x0A or whose RSVD field is not 0. -/
theorem legalWord_eq_false {w : Word} (h : 0x0A < (w.setWidth 8 : Byte).toNat ∨ w.extractLsb' 8 56 ≠ 0) :
    legalWord w = false := by
  rw [← Bool.not_eq_true, legalWord, Bool.and_eq_true, decide_eq_true_eq, decide_eq_true_eq]
  rintro ⟨hrsvd, hop⟩
  rcases h with h | h
  · rw [BitVec.le_def] at hop
    exact absurd hop (Nat.not_le.mpr h)
  · refine h (BitVec.eq_of_toNat_eq ?_)
    have hdiv := congrArg BitVec.toNat hrsvd
    have hw := w.isLt
    simp only [BitVec.toNat_ushiftRight, BitVec.extractLsb'_toNat, BitVec.ofNat_eq_ofNat, BitVec.toNat_ofNat,
      Nat.shiftRight_eq_div_pow] at hdiv ⊢
    omega

/-- A CMD write with nothing pending accepts the word (60_exceptions.md R126). -/
theorem hostTxn_cmd_accepts {s : State} (w : Word) (h : s.pending = none) :
    hostTxn (.regWrite 0x08 w) s = .next (acceptWord w s) := by
  have hwrite : regWrite 0x08 w s = cmdWrite w s := rfl
  rw [hostTxn, regAccess_of_legal (by decide) (by decide), hwrite, cmdWrite, h]

/-- The ENGINE's step of an illegal word (30_encoding.md R69). -/
theorem step_illegal {s : State} {w : Word} (hillegal : legalWord w = false) (hagent : nextAgent s = some .engine)
    (hw : s.pending = some w) :
    step s = .next (completeError { code := .illegalCommand, detail := 0, info := w } (takeTurn s)) := by
  rw [step_engine hagent hw, engineStep_illegal hillegal]
  rfl

/-- Settles O7: acceptance asks for no legality, and the ENGINE's step of an illegal word records the error alone. -/
theorem illegalWordIsReported : Obligations.IllegalWordIsReported := fun w hw =>
  ⟨fun _ => hostTxn_cmd_accepts w, fun _ => step_illegal (legalWord_eq_false hw)⟩

/-- Settles O8: the three outcomes of R126. -/
theorem commandWordAcceptance : Obligations.CommandWordAcceptance := by
  intro s w
  refine ⟨hostTxn_cmd_accepts w, fun p hp => ?_, fun hillegal hw hagent => ?_⟩
  · have hwrite : regWrite 0x08 w s = cmdWrite w s := rfl
    rw [hostTxn, regAccess_of_legal (by decide) (by decide), hwrite, cmdWrite, hp]
  · exact ⟨_, step_illegal hillegal hagent hw, rfl, rfl⟩

/-- Settles O11: no command writes the configuration and no HOST operation does. -/
theorem configurationNeverChanges : Obligations.ConfigurationNeverChanges := by
  intro s t h
  refine step_keeps (P := fun u => u.cfg = s.cfg) (fun _ _ _ hu => hu) (fun i u v _ hu hv => ?_) (fun _ _ _ hu => hu)
    (fun op u v hu hv => ?_) rfl h
  · rw [exec_next_cfg hv, hu]
  · cases hv with
    | reads log draws program => exact hu
    | command w => rw [← hu, cmdWrite]; split <;> rfl
    | stores r v => rw [← hu]; unfold regStore; split <;> rfl
    | writesIn a b => exact hu
    | resets => exact hu

theorem exec_next_overrun {i : Instr} {s t : State} (hi : i ≠ .clear) (h : exec i s = .next t) :
    t.overrun = s.overrun := by
  have hkeeps : (bodyOf i s).Leaves fun u => u.overrun = s.overrun :=
    (bodyOf_onlyProductsAndOut s hi).mono fun _ hu => (congrArg State.overrun hu :)
  obtain ⟨u, hu, rfl | ⟨e, rfl⟩⟩ := exec_next_leaves (P := fun u => u.overrun = s.overrun) rfl hkeeps h <;> exact hu

/-- A HOST operation other than a Reset does not clear OVERRUN. -/
theorem HostEffect.overrun {op : HostOp} {s t : State} (h : HostEffect op s t) (hs : s.overrun = true)
    (ht : t.overrun = false) : op = .txn .reset := by
  cases h with
  | reads log draws program => exact absurd (hs.symm.trans ht) nofun
  | command w =>
    unfold cmdWrite at ht
    split at ht
    · exact absurd (hs.symm.trans ht) nofun
    · exact absurd ht nofun
  | stores r v =>
    unfold regStore at ht
    split at ht <;> exact absurd (hs.symm.trans ht) nofun
  | writesIn a b => exact absurd (hs.symm.trans ht) nofun
  | resets hop => exact hop

/-- Settles O10: every other command and HOST operation keeps OVERRUN or sets it. -/
theorem overrunClearedOnlyByClearOrReset : Obligations.OverrunClearedOnlyByClearOrReset := by
  intro s t h hs ht
  rcases step_next h with rfl | ⟨hagent, w, hw, hengine⟩ | ⟨hagent, op, rest, hprogram, hop⟩
  · exact absurd (hs.symm.trans ht) nofun
  · rw [takeTurn_eq] at hengine
    refine .inl ⟨hagent, ?_⟩
    rcases engineStep_next hengine with ⟨i, rfl, hi⟩ | rfl
    · by_cases hclear : i = .clear
      · rw [hw, hclear]
      · rw [exec_next_overrun hclear hi] at ht
        exact absurd (hs.symm.trans ht) nofun
    · exact absurd (hs.symm.trans ht) nofun
  · rw [takeTurn_eq] at hop
    exact .inr ⟨hagent, rest, by rw [hprogram, (hostStep_effect hop).overrun hs ht]⟩

theorem HostEffect.schedule {op : HostOp} {s t : State} (h : HostEffect op s t) : t.schedule = s.schedule := by
  cases h with
  | reads log draws program => rfl
  | command w => unfold cmdWrite; split <;> rfl
  | stores r v => unfold regStore; split <;> rfl
  | writesIn a b => rfl
  | resets => rfl

/-- With a word pending the ENGINE moves, or the HOST does and uses up a schedule entry (00_scope.md R11, log entry 1). -/
theorem nextAgent_of_pending {s : State} (h : s.pending ≠ none) :
    nextAgent s = some .engine ∨
    nextAgent s = some .host ∧ ∃ op rest schedule, s.hostProgram = op :: rest ∧ s.schedule = .host :: schedule ∧
      (takeTurn s).schedule = schedule := by
  obtain ⟨w, hw⟩ := Option.ne_none_iff_exists'.mp h
  cases hprogram : s.hostProgram with
  | nil => exact .inl (by simp [nextAgent, hw, hprogram])
  | cons op rest =>
    match hschedule : s.schedule with
    | [] => exact .inl (by simp [nextAgent, hw, hprogram, hschedule])
    | .engine :: _ => exact .inl (by simp [nextAgent, hw, hprogram, hschedule])
    | .host :: schedule =>
      exact .inr ⟨by simp [nextAgent, hw, hprogram, hschedule], op, rest, schedule, rfl, rfl,
        by simp [takeTurn, hw, hprogram, hschedule]⟩

theorem run_of_next {M : Host.Core} {s t : M.State} (h : M.step s = .next t) (k : Nat) :
    M.run (k + 1) s = M.run k t := by
  rw [Host.Core.run, h]

theorem run_of_fault {M : Host.Core} {s : M.State} {f : M.Fault} (h : M.step s = .fault f) (k : Nat) :
    M.run (k + 1) s = .fault f := by
  rw [Host.Core.run, h]

/-- On the ENGINE's turn the pending command ends in one step, unless the model stops (60_exceptions.md R127). -/
theorem run_engine {s : State} (hpending : s.pending ≠ none) (hagent : nextAgent s = some .engine) :
    (∃ t : State, core.run 1 s = .next t ∧ t.pending = none) ∨ ∃ f : Fault, core.run 1 s = .fault f := by
  obtain ⟨w, hw⟩ := Option.ne_none_iff_exists'.mp hpending
  cases hstep : engineStep w (takeTurn s) with
  | next t => exact .inl ⟨t, run_of_next (M := core) ((step_engine hagent hw).trans hstep) 0, engineStep_next_pending hstep⟩
  | fault f => exact .inr ⟨f, run_of_fault (M := core) ((step_engine hagent hw).trans hstep) 0⟩
  | refused r => exact absurd hstep (engineStep_not_refused _ _ r)

/-- Within one step more than the schedule has entries a pending command has ended or the model has stopped: each HOST
step uses up an entry, and the ENGINE's step ends the command. -/
theorem run_ends_pending (n : Nat) : ∀ s : State, s.pending ≠ none → s.schedule.length = n →
    ∃ k ≤ n + 1, (∃ t : State, core.run k s = .next t ∧ t.pending = none) ∨ ∃ f : Fault, core.run k s = .fault f := by
  induction n with
  | zero =>
    intro s hpending hlen
    rcases nextAgent_of_pending hpending with hagent | ⟨_, _, _, _, _, hschedule, _⟩
    · exact ⟨1, Nat.le_refl 1, run_engine hpending hagent⟩
    · simp [hschedule] at hlen
  | succ n ih =>
    intro s hpending hlen
    rcases nextAgent_of_pending hpending with hagent | ⟨hagent, op, rest, schedule, hprogram, hschedule, hturn⟩
    · exact ⟨1, by omega, run_engine hpending hagent⟩
    · have hhost := step_host hagent hprogram
      cases hstep : hostStep op { takeTurn s with hostProgram := rest } with
      | refused r => exact absurd hstep (hostStep_not_refused _ _ r)
      | fault f => exact ⟨1, by omega, .inr ⟨f, run_of_fault (M := core) (hhost.trans hstep) 0⟩⟩
      | next t =>
        have hrun := run_of_next (M := core) (hhost.trans hstep)
        by_cases ht : t.pending = none
        · exact ⟨1, by omega, .inl ⟨t, hrun 0, ht⟩⟩
        · have htlen : t.schedule.length = n := by
            rw [(hostStep_effect hstep).schedule]
            simpa [hturn, hschedule] using hlen
          obtain ⟨k, hk, hend⟩ := ih t ht htlen
          exact ⟨k + 1, by omega, by rwa [hrun]⟩

/-- Settles O9: `run_ends_pending`. -/
theorem pendingCommandEnds : Obligations.PendingCommandEnds := by
  intro s hpending
  obtain ⟨k, hk, ⟨t, hrun, ht⟩ | ⟨f, hrun⟩⟩ := run_ends_pending _ s hpending rfl
  · exact ⟨k, hk, by rw [hrun]; exact ht⟩
  · exact ⟨k, hk, by rw [hrun]; trivial⟩

/-- Both memories canonical, as a property of the two lists. -/
theorem memoriesCanonical_iff (s : State) :
    memoriesCanonical s = true ↔ Memory.wf s.inMem = true ∧ Memory.wf s.outMem = true := by
  rw [memoriesCanonical, Bool.and_eq_true]

/-- OUT is kept, lost, or written from address 0 on. -/
def outWritten (s t : State) : Prop :=
  t.outMem = s.outMem ∨ t.outMem = [] ∨ ∃ bytes, t.outMem = writeBytes s.outMem 0 bytes

theorem serializeBody_outWritten (s : State) : (serializeBody s).Leaves (outWritten s) := by
  unfold serializeBody
  split
  · exact .inl rfl
  · exact Body.leaves_ofExcept (.inl rfl) fun _ _ => .inr (.inr ⟨_, rfl⟩)

theorem decodeBody_outWritten (s : State) : (decodeBody s).Leaves (outWritten s) :=
  Body.leaves_ofExcept (.inl rfl) fun _ _ => .inr (.inr ⟨_, rfl⟩)

theorem Body.leaves_outWritten_of_frame {s : State} {b : Body} (h : b.Leaves (OnlyProducts s)) :
    b.Leaves fun t => t.outMem = s.outMem := h.mono fun _ ht => (congrArg State.outMem ht :)

theorem Body.leaves_andThen_of_imp {P Q : State → Prop} {b : Body} (hb : b.Leaves P) (hPQ : ∀ s, P s → Q s) {k : State → Body}
    (hk : ∀ s, P s → (k s).Leaves Q) : (b.andThen k).Leaves Q := by
  cases b with
  | done s => exact hk s hb
  | raised e s => exact hPQ s hb
  | faulted f => exact trivial

theorem bodyOf_outWritten (i : Instr) (s : State) : (bodyOf i s).Leaves (outWritten s) := by
  have hkept {b : Body} (h : b.Leaves fun t => t.outMem = s.outMem) : b.Leaves (outWritten s) :=
    h.mono fun _ => .inl
  have hlost {b : Body} (h : b.Leaves (outWritten s)) : b.losingOut.Leaves (outWritten s) :=
    Body.leaves_losingOut h fun _ _ => .inr (.inl rfl)
  have hthen {b : Body} {k : State → Body} (hb : b.Leaves fun t => t.outMem = s.outMem)
      (hk : ∀ t, (k t).Leaves (outWritten t)) : (b.andThen k).Leaves (outWritten s) :=
    Body.leaves_andThen_of_imp hb (fun _ => .inl) fun t ht => (hk t).mono fun u hu => by rwa [outWritten, ht] at hu
  have hstays {b : Body} {k : State → Body} (hb : b.Leaves fun t => t.outMem = s.outMem)
      (hk : ∀ t, (k t).Leaves (OnlyProducts t)) : (b.andThen k).Leaves fun t => t.outMem = s.outMem :=
    Body.leaves_andThen hb fun t ht =>
      (Body.leaves_outWritten_of_frame (hk t)).mono fun u (hu : u.outMem = t.outMem) => hu.trans ht
  by_cases hout : i.writesOut = false
  · by_cases hclear : i = .clear
    · subst hclear
      exact .inl rfl
    · exact hkept (Body.leaves_outWritten_of_frame (bodyOf_onlyProducts s hout hclear))
  · cases i with
    | serialize => exact hlost (serializeBody_outWritten s)
    | decode => exact hlost (decodeBody_outWritten s)
    | compress =>
      refine hlost (hthen (hstays (hstays (hstays ?_ ?_) ?_) ?_) serializeBody_outWritten)
      · exact Body.leaves_outWritten_of_frame (countBody_frame s)
      · exact compressTree_frame
      · exact gencodesBody_frame
      · exact encodeBody_frame
    | uncompress =>
      exact hlost (hthen (Body.leaves_outWritten_of_frame (deserializeBody_frame s)) decodeBody_outWritten)
    | nop | count | build | gencodes | encode | deserialize | clear => exact absurd rfl hout

theorem exec_next_outMem_wf {i : Instr} {s t : State} (hs : Memory.wf s.outMem = true) (h : exec i s = .next t) :
    Memory.wf t.outMem = true := by
  have hwf : (bodyOf i s).Leaves fun u => Memory.wf u.outMem = true := by
    refine (bodyOf_outWritten i s).mono fun u hu => ?_
    rcases hu with hu | hu | ⟨bytes, hu⟩
    · rw [hu]; exact hs
    · rw [hu]; rfl
    · rw [hu]; exact writeBytes_wf bytes _ 0 hs
  obtain ⟨u, hu, rfl | ⟨e, rfl⟩⟩ := exec_next_leaves (P := fun u => Memory.wf u.outMem = true) hs hwf h <;> exact hu

theorem HostEffect.memoriesCanonical {op : HostOp} {s t : State} (h : HostEffect op s t)
    (hs : memoriesCanonical s = true) : memoriesCanonical t = true := by
  cases h with
  | reads log draws program => exact hs
  | command w => unfold cmdWrite; split <;> exact hs
  | stores r v => unfold regStore; split <;> exact hs
  | writesIn a b =>
    rw [memoriesCanonical_iff] at hs ⊢
    exact ⟨writeByte_wf _ a b hs.1, hs.2⟩
  | resets => rfl

/-- Settles O49: commands leave IN and write OUT from address 0 on, and the HOST writes single IN bytes. -/
theorem stepKeepsMemoriesCanonical : Obligations.StepKeepsMemoriesCanonical := by
  intro s t hs h
  refine step_keeps (P := fun u => memoriesCanonical u = true) (fun _ _ _ hu => hu) (fun i u v _ hu hv => ?_)
    (fun _ _ _ hu => hu) (fun op u v hu hv => hv.memoriesCanonical hu) hs h
  rw [memoriesCanonical_iff] at hu ⊢
  exact ⟨exec_next_inMem hv ▸ hu.1, exec_next_outMem_wf hu.2 hv⟩

end Sys2Proof.Machine

/-! SUPPORT. The HOST's view of the core (10_state.md R23 to R40, 20_memory.md R57, 70_reset_and_hazards.md R148 to R153): the
register map, STATUS, what legal accesses do while BUSY and while not, and the reset state. -/

namespace Sys2Proof.Machine

open Sys2Proof

/-! ## STATUS -/

/-- The fields of a STATUS word (10_state.md R27). -/
theorem statusWord_toNat (busy done err overrun tv cv bv : Bool) (code detail op : Byte) :
    (statusWord busy done err overrun tv cv bv code detail op).toNat =
      busy.toNat + 2 * done.toNat + 4 * err.toNat + 8 * overrun.toNat + 16 * tv.toNat + 32 * cv.toNat + 64 * bv.toNat
        + 2 ^ 8 * code.toNat + 2 ^ 16 * detail.toNat + 2 ^ 24 * op.toNat := by
  have hbit (b : Bool) : b.toNat ≤ 1 := Bool.toNat_le b
  have := hbit busy; have := hbit done; have := hbit err; have := hbit overrun
  have := hbit tv; have := hbit cv; have := hbit bv
  have := code.isLt; have := detail.isLt; have := op.isLt
  rw [statusWord, BitVec.toNat_ofNat]
  omega

/-- A bit of a word is the bit of its number. -/
theorem getLsbD_eq_of_div_mod {w : Word} {i : Nat} {b : Bool} (h : w.toNat / 2 ^ i % 2 = b.toNat) : w.getLsbD i = b := by
  rw [BitVec.getLsbD, Nat.testBit_eq_decide_div_mod_eq, h]
  cases b <;> rfl

/-- A field of a word is the field of its number. -/
theorem extractLsb'_eq_of_div_mod {w : Word} {start len : Nat} {v : BitVec len}
    (h : w.toNat / 2 ^ start % 2 ^ len = v.toNat) : w.extractLsb' start len = v := by
  apply BitVec.eq_of_toNat_eq
  rw [BitVec.extractLsb'_toNat, Nat.shiftRight_eq_div_pow, h]

/-- Settles O54: each field is read off the sum, and the codes are the table's. -/
theorem statusFieldLayout : Obligations.StatusFieldLayout := by
  refine ⟨fun s _ => ?_, rfl, rfl, rfl, rfl, rfl, rfl, rfl, rfl, rfl, rfl⟩
  have hword := statusWord_toNat false s.done s.err s.overrun s.tv s.cv s.bv s.errCode.number s.detail s.lastOp
  have hbit (b : Bool) : b.toNat ≤ 1 := Bool.toNat_le b
  have hdone := hbit s.done
  have herr := hbit s.err
  have hover := hbit s.overrun
  have htv := hbit s.tv
  have hcv := hbit s.cv
  have hbv := hbit s.bv
  have hcode := s.errCode.number.isLt
  have hdetail := s.detail.isLt
  have hop := s.lastOp.isLt
  have hfalse : false.toNat = 0 := rfl
  have hzero : (0#32).toNat = 0 := rfl
  refine ⟨getLsbD_eq_of_div_mod ?_, getLsbD_eq_of_div_mod ?_, getLsbD_eq_of_div_mod ?_, getLsbD_eq_of_div_mod ?_,
    getLsbD_eq_of_div_mod ?_, getLsbD_eq_of_div_mod ?_, getLsbD_eq_of_div_mod ?_, getLsbD_eq_of_div_mod ?_,
    extractLsb'_eq_of_div_mod ?_, extractLsb'_eq_of_div_mod ?_, extractLsb'_eq_of_div_mod ?_,
    extractLsb'_eq_of_div_mod ?_⟩
  all_goals
    rw [regValue, statusIdle, hword]
    omega

/-! ## The register map -/

theorem regAt_of_reserved {off : Nat} (h : 0x90 ≤ off) : regAt off = .reserved := by
  unfold regAt
  split
  case h_19 => rfl
  all_goals omega

/-- The registers a write can change, and their offsets (10_state.md R23, R24). -/
theorem regAt_writable {off : Nat} (hcmd : off ≠ 0x08) (hin : off ≠ 0x20) (hwin : off ≠ 0x48) (hfreq : off ≠ 0x50) :
    regAt off ≠ .cmd ∧ regAt off ≠ .inLen ∧ regAt off ≠ .winIndex ∧ regAt off ≠ .freqWin := by
  unfold regAt
  split
  case h_2 | h_5 | h_10 | h_11 => contradiction
  all_goals decide

theorem regAt_ne_cmd {off : Nat} (h : off ≠ 0x08) : regAt off ≠ .cmd := by
  unfold regAt
  split
  case h_2 => contradiction
  all_goals decide

/-- A store to any other register is ignored (10_state.md R24). -/
theorem regStore_readOnly {r : Reg} (v : Word) (s : State) (hin : r ≠ .inLen) (hwin : r ≠ .winIndex)
    (hfreq : r ≠ .freqWin) : regStore r v s = s := by
  cases r
  case inLen | winIndex | freqWin => contradiction
  all_goals rfl

/-- A legal register read takes effect (20_memory.md R57). -/
theorem hostTxn_regRead {off : Nat} (s : State) (hlt : off < 0x100) (halign : off % 8 = 0) :
    hostTxn (.regRead off) s = .next (regRead off s) := regAccess_of_legal hlt halign _

theorem regRead_idle {s : State} (off : Nat) (h : s.busy = false) :
    regRead off s = observe (.reg off (regValue s (regAt off))) s := by
  rw [regRead, h, if_neg Bool.false_ne_true]

/-- Settles O57: reads of the idle core, stores to read-only registers, and the map offset by offset. -/
theorem legalRegisterAccess : Obligations.LegalRegisterAccess := by
  refine ⟨fun s off v hidle hlt halign => ⟨?_, ?_, ?_⟩, ?_, fun s => ⟨rfl, rfl, rfl, rfl, rfl, rfl, rfl, rfl⟩⟩
  · rw [hostTxn_regRead s hlt halign, regRead_idle off hidle]
    rfl
  · rintro (h | rfl)
    · rw [regAt_of_reserved h, regValue]
    · rfl
  · intro hcmd hin hwin hfreq
    obtain ⟨hcmd, hin, hwin, hfreq⟩ := regAt_writable hcmd hin hwin hfreq
    rw [hostTxn_regWrite_idle v hidle hlt halign hcmd, regStore_readOnly v s hin hwin hfreq]
  · exact ⟨rfl, rfl, rfl, rfl, rfl, rfl, rfl, rfl, rfl, rfl, rfl, rfl, rfl, rfl, rfl, rfl, rfl, rfl,
      fun _ => regAt_of_reserved⟩

/-! ## Accesses while BUSY -/

/-- While BUSY a write other than CMD's is ignored (70_reset_and_hazards.md R151). -/
theorem regWrite_busy {s : State} {off : Nat} (v : Word) (hbusy : s.busy = true) (hcmd : regAt off ≠ .cmd) :
    regWrite off v s = s := by
  unfold regWrite
  split
  · contradiction
  · rw [if_pos hbusy]

/-- While BUSY a register whose value is specified reads as its value (70_reset_and_hazards.md R151). -/
theorem regRead_busy_readable {s : State} {off : Nat} (hbusy : s.busy = true) (h : (regAt off).readableBusy = true) :
    regRead off s = observe (.reg off (regValue s (regAt off))) s := by
  rw [regRead, if_pos hbusy]
  split
  · next hstatus => rw [hstatus] at h; exact absurd h nofun
  · rw [if_pos h]

/-- While BUSY any other register but STATUS reads as a draw (70_reset_and_hazards.md R151). -/
theorem regRead_busy_free {s : State} {off : Nat} (hbusy : s.busy = true) (hstatus : regAt off ≠ .status)
    (h : (regAt off).readableBusy = false) :
    regRead off s = observeDraw (.reg off (Config.freeWord s.draws)) s := by
  rw [regRead, if_pos hbusy]
  split
  · contradiction
  · rw [if_neg (by simp [h])]

/-- What STATUS shows while BUSY, whatever the free bits are (70_reset_and_hazards.md R151). -/
theorem statusBusy_fields (s : State) (u : BitVec 3) :
    (statusBusy s u).extractLsb' 0 4 = (if s.overrun then 9#4 else 1#4) ∧ (statusBusy s u).getLsbD 7 = false ∧
    (statusBusy s u).extractLsb' 8 16 = 0#16 ∧ (statusBusy s u).extractLsb' 24 8 = s.lastOp ∧
    (statusBusy s u).extractLsb' 32 32 = 0#32 := by
  have hword := statusWord_toNat true false false s.overrun (u.getLsbD 0) (u.getLsbD 1) (u.getLsbD 2) 0 0 s.lastOp
  have hfalse : false.toNat = 0 := rfl
  have htrue : true.toNat = 1 := rfl
  have hzero : (0 : Byte).toNat = 0 := rfl
  have hzero16 : (0#16).toNat = 0 := rfl
  have hzero32 : (0#32).toNat = 0 := rfl
  have hover : (if s.overrun then 9#4 else 1#4).toNat = 1 + 8 * s.overrun.toNat := by cases s.overrun <;> rfl
  have hoverrun := Bool.toNat_le s.overrun
  have htv := Bool.toNat_le (u.getLsbD 0)
  have hcv := Bool.toNat_le (u.getLsbD 1)
  have hbv := Bool.toNat_le (u.getLsbD 2)
  have hop := s.lastOp.isLt
  refine ⟨extractLsb'_eq_of_div_mod ?_, getLsbD_eq_of_div_mod ?_, extractLsb'_eq_of_div_mod ?_,
    extractLsb'_eq_of_div_mod ?_, extractLsb'_eq_of_div_mod ?_⟩
  all_goals
    rw [statusBusy, hword]
    omega

/-- Settles O58: the registers whose value is specified and those that read as draws, offset by offset. -/
theorem accessesWhileBusy : Obligations.AccessesWhileBusy := by
  intro s off a v hbusy hlt halign ha
  have hread := hostTxn_regRead s hlt halign
  refine ⟨fun hcmd => ?_, ?_, fun hoff => ?_, fun hoff => ?_, ?_⟩
  · rw [hostTxn, regAccess_of_legal hlt halign, regWrite_busy v hbusy (regAt_ne_cmd hcmd)]
  · rintro rfl
    refine ⟨statusBusy s (Config.freeFlags s.draws), ?_, statusBusy_fields s _⟩
    rw [hread, regRead, if_pos hbusy]
    rfl
  · have hreadable : (regAt off).readableBusy = true := by
      rcases hoff with hoff | hoff
      · clear hread hlt halign
        revert off
        decide
      · rw [regAt_of_reserved hoff]
        rfl
    rw [hread, regRead_busy_readable hbusy hreadable]
    rfl
  · have hfree : regAt off ≠ .status ∧ (regAt off).readableBusy = false := by
      clear hread hlt halign
      revert off
      decide
    rw [hread, regRead_busy_free hbusy hfree.1 hfree.2]
    rfl
  · rw [hostTxn, outRead, if_neg (Nat.not_le.mpr ha), if_pos hbusy]
    rfl

/-- Settles O60: each access by the branches of its definition. -/
theorem hostMemoryAccess : Obligations.HostMemoryAccess := by
  intro s a b
  refine ⟨fun hidle ha => ⟨writeByte s.inMem a b, ?_, readByte_writeByte_same _ _ _,
    fun x => readByte_writeByte_other _ _⟩, fun ha hread => ?_, fun hidle ha hread => ?_, fun ha hread => ?_,
    fun hidle ha hread => ?_⟩
  · rw [hostTxn, inWrite, if_neg (Nat.not_le.mpr ha), if_neg (by simp [hidle])]
  · rw [hostTxn, inRead, if_neg (Nat.not_le.mpr ha), hread]
    rfl
  · rw [hostTxn, outRead, if_neg (Nat.not_le.mpr ha), if_neg (by simp [hidle]), hread]
    rfl
  · rw [hostTxn, inRead, if_neg (Nat.not_le.mpr ha), hread]
    rfl
  · rw [hostTxn, outRead, if_neg (Nat.not_le.mpr ha), if_neg (by simp [hidle]), hread]
    rfl

/-! ## The reset state -/

theorem freqOf_replicate_zero (sym : Byte) : freqOf (Vector.replicate 256 0) sym = 0 :=
  Vector.getElem_replicate sym.isLt

theorem msbNat_nil (n : Nat) : msbNat n [] = 0 := by
  induction n with
  | zero => rfl
  | succ n ih => simp [msbNat, ih]

/-- Settles O52: the registers of the reset state, evaluated; its tables hold zeros and empty codes. -/
theorem resetRegisterValues : Obligations.ResetRegisterValues := by
  intro c
  have hfreq : freqOf (State.resetWith c).freq (winSymbol (State.resetWith c)) = 0 := freqOf_replicate_zero _
  have hcode : codeOf (State.resetWith c).code (winSymbol (State.resetWith c)) = [] := codeOf_replicate_nil _
  have hwin : (0#9).setWidth 64 ||| (0#2).setWidth 64 <<< 16 = 0#64 := by decide
  refine ⟨rfl, rfl, rfl, rfl, rfl, rfl, rfl, rfl, rfl, hwin, hfreq, ?_, ?_, rfl, rfl, rfl, rfl, rfl,
    fun sym => ⟨freqOf_replicate_zero sym, codeOf_replicate_nil sym⟩, rfl, fun _ => rfl, fun _ => rfl⟩
  · rw [regValue, hcode]
    rfl
  · rw [regValue, hcode, codeBitsWord, List.drop_nil, msbNat_nil]
    rfl

/-- Settles O53: the definition of the transaction. -/
theorem resetTransactionResetsCore : Obligations.ResetTransactionResetsCore := fun _ => rfl

/-- A core with nothing in its stores meets 10_state.md R49. -/
theorem inv_of_emptyStores {s : State} (hcfg : s.cfg.valid = true) (hstatus : statusInv s = true) (hin : s.inMem = [])
    (hout : s.outMem = []) (houtLen : s.outLen = 0) (hnodes : s.nodes = []) (hroot : s.root = none) (hcv : s.cv = false)
    (hbv : s.bv = false) (hcode : s.code = Vector.replicate 256 []) (hbitLen : s.bitLen = 0) (hbitbuf : s.bitbuf = []) :
    inv s where
  config := hcfg
  status := hstatus
  memory := by
    refine ⟨by rw [memoriesCanonical, hin, hout]; rfl, fun _ _ => by rw [hin]; rfl, fun _ _ => by rw [hout]; rfl, ?_⟩
    intro a ha
    rw [houtLen] at ha
    exact absurd ha (Nat.not_lt_zero a)
  tree := ⟨none, ⟨hroot, hnodes⟩, fun _ => rfl⟩
  codes := ⟨fun _ => hcode, fun h => absurd (hcv.symm.trans h) nofun⟩
  bits := by
    refine ⟨⟨[], ⟨by rw [hbitLen]; rfl, by rw [hbitbuf]; rfl⟩, Nat.zero_le _, fun _ => rfl, fun _ => rfl⟩, ?_⟩
    exact fun h => absurd (hbv.symm.trans h) nofun

theorem inv_resetWith {c : Config} (h : c.valid = true) : inv (State.resetWith c) :=
  inv_of_emptyStores h rfl rfl rfl rfl rfl rfl rfl rfl rfl rfl rfl

/-- Settles O47: the reset state's stores are empty, and CFG0 is valid. -/
theorem resetMeetsInvariant : Obligations.ResetMeetsInvariant :=
  ⟨fun _ => inv_resetWith, inv_resetWith (by decide)⟩

end Sys2Proof.Machine

/-! SUPPORT. The container parser (44_container.md R107 to R109): bytes at an address, one record of the tree block, and a run
of records. -/

namespace Sys2Proof.Machine

open Sys2Proof

/-! ## Bytes at an address -/

/-- The memory lists these bytes from address `a` on. -/
def bytesAt (m : Memory) (a : Nat) (bytes : List Byte) : Prop := ∀ i, i < bytes.length → readByte m (a + i) = bytes[i]?

theorem bytesAt_append {m : Memory} {a : Nat} {xs ys : List Byte} :
    bytesAt m a (xs ++ ys) ↔ bytesAt m a xs ∧ bytesAt m (a + xs.length) ys := by
  constructor
  · intro h
    constructor
    · intro i hi
      have := h i (by rw [List.length_append]; omega)
      rwa [List.getElem?_append_left hi] at this
    · intro i hi
      have := h (xs.length + i) (by rw [List.length_append]; omega)
      rwa [List.getElem?_append_right (by omega), Nat.add_sub_cancel_left, ← Nat.add_assoc] at this
  · rintro ⟨hx, hy⟩ i hi
    by_cases hlt : i < xs.length
    · rw [List.getElem?_append_left hlt]
      exact hx i hlt
    · rw [List.length_append] at hi
      have := hy (i - xs.length) (by omega)
      rwa [List.getElem?_append_right (by omega), show a + i = a + xs.length + (i - xs.length) by omega]

theorem bytesAt_cons {m : Memory} {a : Nat} {x : Byte} {xs : List Byte} :
    bytesAt m a (x :: xs) ↔ readByte m a = some x ∧ bytesAt m (a + 1) xs := by
  rw [← List.singleton_append, bytesAt_append]
  simp [bytesAt]

theorem bytesAt_nil (m : Memory) (a : Nat) : bytesAt m a [] := nofun

theorem bytesAt_of_inputIs {s : State} {bytes : List Byte} (h : inputIs s bytes) : bytesAt s.inMem 0 bytes := by
  intro i hi
  rw [Nat.zero_add]
  exact h.2.2 i hi

/-- Every listed address holds a byte. -/
theorem readByte_ne_none_of_bytesAt {m : Memory} {bytes : List Byte} (h : bytesAt m 0 bytes) {a : Nat}
    (ha : a < bytes.length) : readByte m a ≠ none := by
  have := h a ha
  rw [Nat.zero_add] at this
  simp [this, ha]

theorem memRead_eq_ok_iff {m : Memory} {a : Nat} {b : Byte} : memRead m a = .ok b ↔ readByte m a = some b := by
  rw [memRead_eq]
  cases readByte m a <;> simp

theorem memRead_error {m : Memory} {a : Nat} {e : Stop} (h : memRead m a = .error e) :
    e = .fault (.inUnwritten a) ∧ readByte m a = none := by
  rw [memRead_eq] at h
  cases hr : readByte m a with
  | none => rw [hr] at h; exact ⟨(Except.error.inj h).symm, rfl⟩
  | some b => rw [hr] at h; exact absurd h nofun

theorem memReadBytes_eq_ok_iff {m : Memory} {a n : Nat} {bytes : List Byte} :
    memReadBytes m a n = .ok bytes ↔ bytes.length = n ∧ bytesAt m a bytes := by
  constructor
  · intro h
    obtain ⟨hlen, hread⟩ := readByte_of_memReadBytes m n a bytes h
    exact ⟨hlen, fun i hi => hread i (hlen ▸ hi)⟩
  · rintro ⟨rfl, h⟩
    exact memReadBytes_ok m bytes a h

/-- `be64_bytes` inverts `be64` on eight bytes (00_scope.md R14). -/
theorem be64Bytes_be64 {bytes : List Byte} (h : bytes.length = 8) : be64Bytes (be64 bytes) = bytes := by
  match bytes, h with
  | [b₀, b₁, b₂, b₃, b₄, b₅, b₆, b₇], _ =>
    have h₀ := b₀.isLt; have h₁ := b₁.isLt; have h₂ := b₂.isLt; have h₃ := b₃.isLt
    have h₄ := b₄.isLt; have h₅ := b₅.isLt; have h₆ := b₆.isLt; have h₇ := b₇.isLt
    simp only [be64, be64Bytes, beNat, List.cons.injEq, and_true]
    refine ⟨?_, ?_, ?_, ?_, ?_, ?_, ?_, ?_⟩
    all_goals
      apply BitVec.eq_of_toNat_eq
      rw [BitVec.extractLsb'_toNat, BitVec.toNat_ofNat, Nat.shiftRight_eq_div_pow]
      omega

/-- A big-endian read answers the word whose eight bytes are listed (20_memory.md R54). -/
theorem memRead64_eq_ok_iff {m : Memory} {a : Nat} {w : Word} : memRead64 m a = .ok w ↔ bytesAt m a (be64Bytes w) := by
  unfold memRead64
  constructor
  · intro h
    split at h
    · exact absurd h nofun
    · next bytes hbytes =>
      obtain ⟨hlen, hat⟩ := memReadBytes_eq_ok_iff.mp hbytes
      rwa [← Except.ok.inj h, be64Bytes_be64 hlen]
  · intro h
    rw [memReadBytes_eq_ok_iff.mpr ⟨be64Bytes_length w, h⟩]
    simp only [be64_be64Bytes]

/-- A run of reads stops only at an unwritten byte it reaches (70_reset_and_hazards.md R153). -/
theorem memReadBytes_error_unwritten {m : Memory} {a n : Nat} {e : Stop} (h : memReadBytes m a n = .error e) :
    ∃ x, a ≤ x ∧ x < a + n ∧ readByte m x = none ∧ e = .fault (.inUnwritten x) := by
  obtain ⟨i, hi, he, hnone, _⟩ := memReadBytes_error m n a e h
  exact ⟨a + i, by omega, by omega, hnone, he⟩

theorem memRead64_error_unwritten {m : Memory} {a : Nat} {e : Stop} (h : memRead64 m a = .error e) :
    ∃ x, a ≤ x ∧ x < a + 8 ∧ readByte m x = none ∧ e = .fault (.inUnwritten x) := by
  unfold memRead64 at h
  split at h
  · next hbytes => exact memReadBytes_error_unwritten (Except.error.inj h ▸ hbytes)
  · exact absurd h nofun

/-! ## One record -/

/-- What one round of the parser reads at `pos`, in the order of its checks (44_container.md R108). -/
def readRecord (m : Memory) (last pos count : Nat) (seen : List Byte) : Except Stop TreeRecord :=
  if pos = last then .error (.error (corruptError .treeOverrun pos))
  else
    match memRead m pos with
    | .error e => .error e
    | .ok tag =>
      if 1 < tag.toNat then .error (.error (corruptError .badTag pos))
      else if last - pos < sizeOfTag tag then .error (.error (corruptError .treeOverrun pos))
      else if count = Config.maxNodes then .error (.error (corruptError .nodeLimit pos))
      else
        match memRead64 m (pos + 1) with
        | .error e => .error e
        | .ok w =>
          if tag = 0 then
            match memRead m (pos + 9) with
            | .error e => .error e
            | .ok sym =>
              if sym ∈ seen then .error (.error (corruptError .dupSymbol (pos + 9)))
              else .ok { weight := w, symbol := some sym }
          else .ok { weight := w, symbol := none }

/-- The slots pending after a record at index `idx` was read into one (44_container.md R108). -/
def slotsOf (idx : Nat) (r : TreeRecord) : List Slot :=
  match r.symbol with
  | some _ => []
  | none => [.left idx, .right idx]

/-- The record held at index `idx` before its child slots are filled. -/
def nodeOf (idx : Nat) (r : TreeRecord) : Node :=
  match r.symbol with
  | some sym => .leaf r.weight sym
  | none => .internal r.weight (BitVec.ofNat 9 idx) (BitVec.ofNat 9 idx)

/-- A round of the parser reads one record, or stops as its reading does. -/
theorem parseRecords_succ (m : Memory) (last fuel : Nat) (slot : Slot) (stack : List Slot) (pos : Nat) (nodes : List Node)
    (seen : List Byte) :
    parseRecords m last (fuel + 1) (slot :: stack) pos nodes seen =
      match readRecord m last pos nodes.length seen with
      | .error e => .error e
      | .ok r =>
        parseRecords m last fuel (slotsOf nodes.length r ++ stack) (pos + r.bytes.length)
          (fillSlot nodes slot nodes.length ++ [nodeOf nodes.length r]) (r.symbol.toList ++ seen) := by
  rw [parseRecords, readRecord]
  by_cases hend : pos = last
  · rw [if_pos hend, if_pos hend]
  rw [if_neg hend, if_neg hend]
  cases memRead m pos with
  | error e => rfl
  | ok tag =>
    dsimp only
    by_cases htag : 1 < tag.toNat
    · rw [if_pos htag, if_pos htag]
    rw [if_neg htag, if_neg htag]
    have hsize : (if tag = 0 then 10 else 9) = sizeOfTag tag := rfl
    rw [hsize]
    by_cases hfit : last - pos < sizeOfTag tag
    · rw [if_pos hfit, if_pos hfit]
    rw [if_neg hfit, if_neg hfit]
    by_cases hcount : nodes.length = Config.maxNodes
    · rw [if_pos hcount, if_pos hcount]
    rw [if_neg hcount, if_neg hcount]
    cases memRead64 m (pos + 1) with
    | error e => rfl
    | ok w =>
      dsimp only
      by_cases hleaf : tag = 0
      · rw [if_pos hleaf, if_pos hleaf]
        cases memRead m (pos + 9) with
        | error e => rfl
        | ok sym =>
          dsimp only
          by_cases hseen : sym ∈ seen
          · rw [if_pos hseen, if_pos hseen]
          · rw [if_neg hseen, if_neg hseen]
            rfl
      · rw [if_neg hleaf, if_neg hleaf]
        rfl

/-- The tag of a record is 0 for a leaf and 1 for an internal node (30_encoding.md R72). -/
def tagOf (r : TreeRecord) : Byte := if r.symbol.isSome then 0 else 1

theorem bytesAt_record {m : Memory} {pos : Nat} {r : TreeRecord} :
    bytesAt m pos r.bytes ↔ readByte m pos = some (tagOf r) ∧ bytesAt m (pos + 1) (be64Bytes r.weight) ∧
      ∀ sym, r.symbol = some sym → readByte m (pos + 9) = some sym := by
  obtain ⟨w, symbol⟩ := r
  cases symbol with
  | none => simp [TreeRecord.bytes, tagOf, bytesAt_cons]
  | some sym =>
    have hadd : pos + 1 + 8 = pos + 9 := by omega
    simp [TreeRecord.bytes, tagOf, bytesAt_cons, bytesAt_append, bytesAt_nil, hadd]

theorem sizeOfTag_tagOf (r : TreeRecord) : sizeOfTag (tagOf r) = r.bytes.length := by
  obtain ⟨w, symbol⟩ := r
  cases symbol <;> rfl

/-- The checks of a round pass on exactly the records that stand at `pos`, fit the block, are not the 512th, and whose
symbol is new. -/
theorem readRecord_eq_ok_iff {m : Memory} {last pos count : Nat} {seen : List Byte} {r : TreeRecord} :
    readRecord m last pos count seen = .ok r ↔
      bytesAt m pos r.bytes ∧ pos + r.bytes.length ≤ last ∧ count ≠ Config.maxNodes ∧
        ∀ sym, r.symbol = some sym → sym ∉ seen := by
  have hsize := sizeOfTag_tagOf r
  have hpos : 9 ≤ r.bytes.length := by rw [TreeRecord.bytes_length]; split <;> omega
  rw [bytesAt_record]
  constructor
  · intro h
    unfold readRecord at h
    split at h
    · exact absurd h nofun
    split at h
    · exact absurd h nofun
    next tag htag =>
    split at h
    · exact absurd h nofun
    next hle =>
    split at h
    · exact absurd h nofun
    next hfit =>
    split at h
    · exact absurd h nofun
    next hcount =>
    split at h
    · exact absurd h nofun
    next w hw =>
    rw [memRead_eq_ok_iff] at htag
    rw [memRead64_eq_ok_iff] at hw
    split at h
    · next hzero =>
      subst hzero
      split at h
      · exact absurd h nofun
      next sym hsym =>
      rw [memRead_eq_ok_iff] at hsym
      split at h
      · exact absurd h nofun
      next hnew =>
      obtain rfl := Except.ok.inj h
      have hten : sizeOfTag (0 : Byte) = _ := hsize
      refine ⟨⟨htag, hw, fun x hx => ?_⟩, by omega, hcount, fun x hx => ?_⟩
      · exact Option.some.inj hx ▸ hsym
      · exact Option.some.inj hx ▸ hnew
    · next hzero =>
      have hone : tag = 1 := by
        refine BitVec.eq_of_toNat_eq ?_
        have hne : tag.toNat ≠ 0 := fun h0 => hzero (BitVec.eq_of_toNat_eq h0)
        have h1 : (1 : Byte).toNat = 1 := rfl
        omega
      subst hone
      obtain rfl := Except.ok.inj h
      have hnine : sizeOfTag (1 : Byte) = _ := hsize
      exact ⟨⟨htag, hw, nofun⟩, by omega, hcount, nofun⟩
  · rintro ⟨⟨htag, hw, hsym⟩, hfit, hcount, hnew⟩
    have hle : ¬ 1 < (tagOf r).toNat := by unfold tagOf; split <;> decide
    rw [readRecord, if_neg (by omega), memRead_eq_ok_iff.mpr htag]
    dsimp only
    rw [if_neg hle, if_neg (by omega), if_neg hcount, memRead64_eq_ok_iff.mpr hw]
    obtain ⟨w, symbol⟩ := r
    cases symbol with
    | none => rfl
    | some sym =>
      have hread := memRead_eq_ok_iff.mpr (hsym sym rfl)
      simp [tagOf, hread, hnew sym rfl]

/-! ### The errors of a round -/

/-- With a slot pending the block may not end (44_container.md R108 TREE_OVERRUN). -/
theorem readRecord_at_end (m : Memory) (last count : Nat) (seen : List Byte) :
    readRecord m last last count seen = .error (.error (corruptError .treeOverrun last)) := if_pos rfl

section
variable {m : Memory} {last pos count : Nat} {seen : List Byte} {tag : Byte}

theorem readRecord_badTag (hpos : pos < last) (htag : readByte m pos = some tag) (h : 1 < tag.toNat) :
    readRecord m last pos count seen = .error (.error (corruptError .badTag pos)) := by
  rw [readRecord, if_neg hpos.ne, memRead_eq_ok_iff.mpr htag]
  exact if_pos h

theorem readRecord_overrun (hpos : pos < last) (htag : readByte m pos = some tag) (hle : tag.toNat ≤ 1)
    (h : last - pos < sizeOfTag tag) :
    readRecord m last pos count seen = .error (.error (corruptError .treeOverrun pos)) := by
  rw [readRecord, if_neg hpos.ne, memRead_eq_ok_iff.mpr htag]
  exact (if_neg (Nat.not_lt.mpr hle)).trans (if_pos h)

theorem readRecord_nodeLimit (hpos : pos < last) (htag : readByte m pos = some tag) (hle : tag.toNat ≤ 1)
    (hfit : sizeOfTag tag ≤ last - pos) :
    readRecord m last pos Config.maxNodes seen = .error (.error (corruptError .nodeLimit pos)) := by
  rw [readRecord, if_neg hpos.ne, memRead_eq_ok_iff.mpr htag]
  exact (if_neg (Nat.not_lt.mpr hle)).trans ((if_neg (Nat.not_lt.mpr hfit)).trans (if_pos rfl))

/-- A leaf whose symbol was seen (44_container.md R108 DUP_SYMBOL). -/
theorem readRecord_dupSymbol {w : Word} {sym : Byte}
    (hbytes : bytesAt m pos (TreeRecord.bytes { weight := w, symbol := some sym })) (hfit : pos + 10 ≤ last)
    (hcount : count ≠ Config.maxNodes) (hseen : sym ∈ seen) :
    readRecord m last pos count seen = .error (.error (corruptError .dupSymbol (pos + 9))) := by
  obtain ⟨htag, hw, hsym⟩ := bytesAt_record.mp hbytes
  have hsize : sizeOfTag (0 : Byte) = 10 := rfl
  have hzero : tagOf { weight := w, symbol := some sym } = 0 := rfl
  rw [hzero] at htag
  rw [readRecord, if_neg (by omega), memRead_eq_ok_iff.mpr htag]
  dsimp only
  rw [if_neg (by decide), if_neg (by omega), if_neg hcount, memRead64_eq_ok_iff.mpr hw]
  dsimp only
  rw [if_pos rfl, memRead_eq_ok_iff.mpr (hsym sym rfl)]
  exact if_pos hseen

end

/-- A round stops with a fault only at an unwritten byte of the tree block (70_reset_and_hazards.md R153). -/
theorem readRecord_fault {m : Memory} {last pos count : Nat} {seen : List Byte} {f : Fault} (hpos : pos ≤ last)
    (h : readRecord m last pos count seen = .error (.fault f)) :
    ∃ x, x < last ∧ readByte m x = none ∧ f = .inUnwritten x := by
  unfold readRecord at h
  split at h
  · exact absurd h nofun
  next hne =>
  split at h
  · next htag =>
    obtain ⟨rfl, hnone⟩ := memRead_error htag
    exact ⟨pos, by omega, hnone, (Stop.fault.inj (Except.error.inj h)).symm⟩
  next tag htag =>
  split at h
  · exact absurd h nofun
  split at h
  · exact absurd h nofun
  next hfit =>
  have hnine : 9 ≤ sizeOfTag tag := by unfold sizeOfTag; split <;> omega
  split at h
  · exact absurd h nofun
  split at h
  · next hw =>
    obtain ⟨x, _, hx, hnone, rfl⟩ := memRead64_error_unwritten hw
    exact ⟨x, by omega, hnone, (Stop.fault.inj (Except.error.inj h)).symm⟩
  split at h
  · next hzero =>
    have hten : sizeOfTag tag = 10 := by rw [hzero]; rfl
    split at h
    · next hsym =>
      obtain ⟨rfl, hnone⟩ := memRead_error hsym
      exact ⟨pos + 9, by omega, hnone, (Stop.fault.inj (Except.error.inj h)).symm⟩
    · split at h <;> exact absurd h nofun
  · exact absurd h nofun

/-! ## Reading around one unwritten byte -/

/-- `m'` is `m` with a byte at `a`, where `m` has none. -/
def fillsAt (a : Nat) (m m' : Memory) : Prop := readByte m a = none ∧ ∀ x, x ≠ a → readByte m' x = readByte m x

/-- A computation that stops at the unwritten byte `a`, or does not notice it. -/
def stopsAtOr {α : Type} (a : Nat) (r r' : Except Stop α) : Prop := r = .error (.fault (.inUnwritten a)) ∨ r = r'

theorem memRead_stopsAtOr {a : Nat} {m m' : Memory} (h : fillsAt a m m') (x : Nat) :
    stopsAtOr a (memRead m x) (memRead m' x) := by
  rw [memRead_eq, memRead_eq]
  by_cases hx : x = a
  · subst hx
    rw [h.1]
    exact .inl rfl
  · rw [h.2 x hx]
    exact .inr rfl

theorem memReadBytes_stopsAtOr {a : Nat} {m m' : Memory} (h : fillsAt a m m') (n : Nat) : ∀ x,
    stopsAtOr a (memReadBytes m x n) (memReadBytes m' x n) := by
  induction n with
  | zero => exact fun _ => .inr rfl
  | succ n ih =>
    intro x
    rw [memReadBytes, memReadBytes]
    rcases memRead_stopsAtOr h x with hx | hx
    · rw [hx]
      exact .inl rfl
    · rw [hx]
      cases memRead m' x with
      | error e => exact .inr rfl
      | ok b =>
        dsimp only
        rcases ih (x + 1) with hrest | hrest
        · rw [hrest]
          exact .inl rfl
        · rw [hrest]
          exact .inr rfl

theorem memRead64_stopsAtOr {a : Nat} {m m' : Memory} (h : fillsAt a m m') (x : Nat) :
    stopsAtOr a (memRead64 m x) (memRead64 m' x) := by
  rw [memRead64, memRead64]
  rcases memReadBytes_stopsAtOr h 8 x with hx | hx
  · rw [hx]
    exact .inl rfl
  · rw [hx]
    exact .inr rfl

theorem readRecord_stopsAtOr {a : Nat} {m m' : Memory} (h : fillsAt a m m') (last pos count : Nat) (seen : List Byte) :
    stopsAtOr a (readRecord m last pos count seen) (readRecord m' last pos count seen) := by
  rw [readRecord, readRecord]
  split
  · exact .inr rfl
  rcases memRead_stopsAtOr h pos with htag | htag
  · rw [htag]
    exact .inl rfl
  rw [htag]
  cases memRead m' pos with
  | error e => exact .inr rfl
  | ok tag =>
    dsimp only
    split
    · exact .inr rfl
    split
    · exact .inr rfl
    split
    · exact .inr rfl
    rcases memRead64_stopsAtOr h (pos + 1) with hw | hw
    · rw [hw]
      exact .inl rfl
    rw [hw]
    cases memRead64 m' (pos + 1) with
    | error e => exact .inr rfl
    | ok w =>
      dsimp only
      split
      · rcases memRead_stopsAtOr h (pos + 9) with hsym | hsym
        · rw [hsym]
          exact .inl rfl
        · rw [hsym]
          exact .inr rfl
      · exact .inr rfl

end Sys2Proof.Machine

/-! SUPPORT. Runs of records (44_container.md R108): what the parser does on records that stand in the tree block, the records
it read when it answers, and the trees they make. -/

namespace Sys2Proof.Machine

open Sys2Proof

/-! ## A run of records -/

/-- The slots and the arena after records are read into pending slots (44_container.md R108). -/
def storeRecords : List Slot → List Node → List TreeRecord → List Slot × List Node
  | slot :: stack, nodes, r :: rs =>
    storeRecords (slotsOf nodes.length r ++ stack) (fillSlot nodes slot nodes.length ++ [nodeOf nodes.length r]) rs
  | stack, nodes, _ => (stack, nodes)

@[simp] theorem storeRecords_nil (stack : List Slot) (nodes : List Node) :
    storeRecords stack nodes [] = (stack, nodes) := by
  cases stack <;> rfl

@[simp] theorem fillSlot_length (nodes : List Node) (slot : Slot) (idx : Nat) :
    (fillSlot nodes slot idx).length = nodes.length := by
  cases slot <;> simp [fillSlot]

@[simp] theorem seenSymbols_cons (r : TreeRecord) (rs : List TreeRecord) :
    seenSymbols (r :: rs) = r.symbol.toList ++ seenSymbols rs := by
  obtain ⟨w, symbol⟩ := r
  cases symbol <;> rfl

@[simp] theorem seenSymbols_append (rs rs' : List TreeRecord) :
    seenSymbols (rs ++ rs') = seenSymbols rs ++ seenSymbols rs' := List.filterMap_append ..

/-- A record meets as many pending slots less one, and those it opens. -/
theorem slotsAfter_cons (slot : Slot) (stack : List Slot) (idx : Nat) (r : TreeRecord) (rs : List TreeRecord) :
    slotsAfter (slot :: stack).length (r :: rs) = slotsAfter (slotsOf idx r ++ stack).length rs := by
  obtain ⟨w, symbol⟩ := r
  cases symbol with
  | none => rfl
  | some sym => simp [slotsAfter, slotsOf]

theorem storeRecords_length (rs : List TreeRecord) : ∀ (stack : List Slot) (nodes : List Node) {k : Nat},
    slotsAfter stack.length rs = some k →
    (storeRecords stack nodes rs).1.length = k ∧ (storeRecords stack nodes rs).2.length = nodes.length + rs.length := by
  induction rs with
  | nil =>
    intro stack nodes k h
    rw [storeRecords_nil]
    exact ⟨Option.some.inj h, rfl⟩
  | cons r rs ih =>
    intro stack nodes k h
    cases stack with
    | nil => exact absurd h nofun
    | cons slot stack =>
      rw [slotsAfter_cons slot stack nodes.length] at h
      obtain ⟨hslots, hnodes⟩ := ih _ (fillSlot nodes slot nodes.length ++ [nodeOf nodes.length r]) h
      rw [storeRecords]
      refine ⟨hslots, hnodes.trans ?_⟩
      simp only [List.length_append, fillSlot_length, List.length_cons, List.length_nil]
      omega

/-- Records that stand in the tree block, with slots for all of them, distinct new symbols and room below 512, are read one
after the other (44_container.md R108). -/
theorem parseRecords_run {m : Memory} {last : Nat} (rs : List TreeRecord) :
    ∀ {fuel : Nat} {stack : List Slot} {pos : Nat} {nodes : List Node} {seen : List Byte} {k : Nat},
    bytesAt m pos (rs.flatMap TreeRecord.bytes) → pos + (rs.flatMap TreeRecord.bytes).length ≤ last →
    slotsAfter stack.length rs = some k → (seenSymbols rs).Nodup → (∀ sym ∈ seenSymbols rs, sym ∉ seen) →
    nodes.length + rs.length ≤ Config.maxNodes →
    parseRecords m last (fuel + rs.length) stack pos nodes seen =
      parseRecords m last fuel (storeRecords stack nodes rs).1 (pos + (rs.flatMap TreeRecord.bytes).length)
        (storeRecords stack nodes rs).2 ((seenSymbols rs).reverse ++ seen) := by
  induction rs with
  | nil => intros; rw [storeRecords_nil]; rfl
  | cons r rs ih =>
    intro fuel stack pos nodes seen k hbytes hlast hslots hnodup hnew hcount
    cases stack with
    | nil => exact absurd hslots nofun
    | cons slot stack =>
      rw [List.flatMap_cons, bytesAt_append] at hbytes
      obtain ⟨hr, hrs⟩ := hbytes
      rw [List.flatMap_cons, List.length_append] at hlast
      rw [slotsAfter_cons slot stack nodes.length] at hslots
      rw [seenSymbols_cons] at hnodup hnew
      obtain ⟨_, hnodup, hdisjoint⟩ := List.nodup_append.mp hnodup
      rw [List.length_cons] at hcount
      have hread : readRecord m last pos nodes.length seen = .ok r :=
        readRecord_eq_ok_iff.mpr ⟨hr, by omega, by omega, fun sym hsym => hnew sym (by simp [hsym])⟩
      have hnew' : ∀ sym ∈ seenSymbols rs, sym ∉ r.symbol.toList ++ seen := fun sym hsym => by
        rw [List.mem_append, not_or]
        exact ⟨fun hmem => hdisjoint sym hmem sym hsym rfl, hnew sym (List.mem_append_right _ hsym)⟩
      have hlength : (fillSlot nodes slot nodes.length ++ [nodeOf nodes.length r]).length = nodes.length + 1 := by simp
      have hreverse : r.symbol.toList.reverse = r.symbol.toList := by cases r.symbol <;> rfl
      rw [List.length_cons, ← Nat.add_assoc, parseRecords_succ, hread]
      dsimp only
      rw [ih hrs (by omega) hslots hnodup hnew' (by omega), storeRecords, List.flatMap_cons, List.length_append,
        Nat.add_assoc, seenSymbols_cons, List.reverse_append, hreverse, List.append_assoc]

/-- When the parser answers, records stood in the block that filled all slots, their symbols distinct and new, fewer than 512
with those before; the arena is what they store (44_container.md R108). -/
theorem parseRecords_ok {m : Memory} {last : Nat} (fuel : Nat) :
    ∀ {stack : List Slot} {pos : Nat} {nodes nodes' : List Node} {seen : List Byte} {pos' : Nat},
    nodes.length ≤ Config.maxNodes → parseRecords m last fuel stack pos nodes seen = .ok (nodes', pos') →
    ∃ rs : List TreeRecord, bytesAt m pos (rs.flatMap TreeRecord.bytes) ∧
      pos' = pos + (rs.flatMap TreeRecord.bytes).length ∧ slotsAfter stack.length rs = some 0 ∧
      (seenSymbols rs).Nodup ∧ (∀ sym ∈ seenSymbols rs, sym ∉ seen) ∧ nodes' = (storeRecords stack nodes rs).2 := by
  have hdone {stack : List Slot} {pos : Nat} {nodes nodes' : List Node} {seen : List Byte} {pos' : Nat}
      (hstack : stack = []) (h : (Except.ok (nodes, pos) : Except Stop (List Node × Nat)) = .ok (nodes', pos')) :
      ∃ rs : List TreeRecord, bytesAt m pos (rs.flatMap TreeRecord.bytes) ∧
        pos' = pos + (rs.flatMap TreeRecord.bytes).length ∧ slotsAfter stack.length rs = some 0 ∧
        (seenSymbols rs).Nodup ∧ (∀ sym ∈ seenSymbols rs, sym ∉ seen) ∧ nodes' = (storeRecords stack nodes rs).2 := by
    subst hstack
    obtain ⟨rfl, rfl⟩ := Prod.mk.inj (Except.ok.inj h)
    exact ⟨[], bytesAt_nil m pos, rfl, rfl, List.nodup_nil, nofun, rfl⟩
  induction fuel with
  | zero =>
    intro stack pos nodes nodes' seen pos' _ h
    cases stack with
    | nil => exact hdone rfl (by simpa only [parseRecords] using h)
    | cons slot stack => exact absurd h nofun
  | succ fuel ih =>
    intro stack pos nodes nodes' seen pos' hcount h
    cases stack with
    | nil => exact hdone rfl (by simpa only [parseRecords] using h)
    | cons slot stack =>
      rw [parseRecords_succ] at h
      cases hread : readRecord m last pos nodes.length seen with
      | error e => rw [hread] at h; exact absurd h nofun
      | ok r =>
        rw [hread] at h
        obtain ⟨hr, _, hlt, hrnew⟩ := readRecord_eq_ok_iff.mp hread
        have hlength : (fillSlot nodes slot nodes.length ++ [nodeOf nodes.length r]).length ≤ Config.maxNodes := by
          simp only [List.length_append, fillSlot_length, List.length_cons, List.length_nil]
          omega
        obtain ⟨rs, hrs, hpos, hslots, hnodup, hnew, hnodes⟩ := ih hlength h
        refine ⟨r :: rs, ?_, ?_, ?_, ?_, ?_, ?_⟩
        · rw [List.flatMap_cons, bytesAt_append]
          exact ⟨hr, hrs⟩
        · rw [hpos, List.flatMap_cons, List.length_append, Nat.add_assoc]
        · rw [slotsAfter_cons slot stack nodes.length]
          exact hslots
        · rw [seenSymbols_cons, List.nodup_append]
          refine ⟨by cases r.symbol <;> simp, hnodup, fun a ha b hb hab => ?_⟩
          subst hab
          exact hnew a hb (List.mem_append_left _ ha)
        · intro sym hsym
          rw [seenSymbols_cons, List.mem_append] at hsym
          rcases hsym with hsym | hsym
          · exact hrnew sym (by simpa using hsym)
          · exact fun hseen => hnew sym hsym (List.mem_append_right _ hseen)
        · rw [hnodes, storeRecords]

/-- With fuel for 512 records the parser stops with a fault only at an unwritten byte of the block (log entry 7). -/
theorem parseRecords_fault {m : Memory} {last : Nat} {f : Fault} (fuel : Nat) :
    ∀ {stack : List Slot} {pos : Nat} {nodes : List Node} {seen : List Byte}, pos ≤ last →
    nodes.length ≤ Config.maxNodes → Config.maxNodes < fuel + nodes.length →
    parseRecords m last fuel stack pos nodes seen = .error (.fault f) →
    ∃ x, x < last ∧ readByte m x = none ∧ f = .inUnwritten x := by
  induction fuel with
  | zero => intros; omega
  | succ fuel ih =>
    intro stack pos nodes seen hpos hcount hfuel h
    cases stack with
    | nil => rw [parseRecords] at h; exact absurd h nofun
    | cons slot stack =>
      rw [parseRecords_succ] at h
      cases hread : readRecord m last pos nodes.length seen with
      | error e =>
        rw [hread] at h
        obtain rfl := Except.error.inj h
        exact readRecord_fault hpos hread
      | ok r =>
        rw [hread] at h
        obtain ⟨_, hfit, hlt, _⟩ := readRecord_eq_ok_iff.mp hread
        have hlength : (fillSlot nodes slot nodes.length ++ [nodeOf nodes.length r]).length = nodes.length + 1 := by simp
        exact ih hfit (by omega) (by omega) h

theorem parseRecords_stopsAtOr {a : Nat} {m m' : Memory} (h : fillsAt a m m') (last fuel : Nat) :
    ∀ (stack : List Slot) (pos : Nat) (nodes : List Node) (seen : List Byte),
    stopsAtOr a (parseRecords m last fuel stack pos nodes seen) (parseRecords m' last fuel stack pos nodes seen) := by
  induction fuel with
  | zero => intro stack pos nodes seen; cases stack <;> exact .inr rfl
  | succ fuel ih =>
    intro stack pos nodes seen
    cases stack with
    | nil => exact .inr rfl
    | cons slot stack =>
      rw [parseRecords_succ, parseRecords_succ]
      rcases readRecord_stopsAtOr h last pos nodes.length seen with hread | hread
      · rw [hread]
        exact .inl rfl
      · rw [hread]
        cases readRecord m' last pos nodes.length seen with
        | error e => exact .inr rfl
        | ok r => exact ih _ _ _ _

/-! ## The records of a tree -/

/-- The records of a tree in pre-order (30_encoding.md R72). -/
def recordsOf : HuffTree → List TreeRecord
  | .leaf w sym => [{ weight := w, symbol := some sym }]
  | .node w l r => { weight := w, symbol := none } :: (recordsOf l ++ recordsOf r)

@[simp] theorem recordsOf_bytes (t : HuffTree) : (recordsOf t).flatMap TreeRecord.bytes = t.block := by
  induction t with
  | leaf w sym => simp [recordsOf, TreeRecord.bytes, HuffTree.block]
  | node w l r ihl ihr => simp [recordsOf, TreeRecord.bytes, HuffTree.block, ihl, ihr]

@[simp] theorem seenSymbols_recordsOf (t : HuffTree) : seenSymbols (recordsOf t) = t.symbols := by
  induction t with
  | leaf w sym => rfl
  | node w l r ihl ihr => simp [recordsOf, HuffTree.symbols, ihl, ihr]

@[simp] theorem recordsOf_length (t : HuffTree) : (recordsOf t).length = HuffTree.size t := by
  induction t with
  | leaf w sym => rfl
  | node w l r ihl ihr => simp [recordsOf, HuffTree.size, ihl, ihr]

/-- A tree fills one slot. -/
theorem slotsAfter_recordsOf (t : HuffTree) : ∀ (n : Nat) (rs : List TreeRecord),
    slotsAfter (n + 1) (recordsOf t ++ rs) = slotsAfter n rs := by
  induction t with
  | leaf w sym => intro n rs; rfl
  | node w l r ihl ihr =>
    intro n rs
    rw [recordsOf, List.cons_append, List.append_assoc]
    exact (ihl (n + 1) (recordsOf r ++ rs)).trans (ihr n rs)

/-- Records that fill all pending slots are those of a tree for the first slot, and records that fill the others. -/
theorem exists_tree_of_slotsAfter (len : Nat) : ∀ {n : Nat} {rs : List TreeRecord}, rs.length ≤ len →
    slotsAfter (n + 1) rs = some 0 → ∃ t rest, rs = recordsOf t ++ rest ∧ slotsAfter n rest = some 0 := by
  induction len with
  | zero =>
    intro n rs hlen h
    rw [List.length_eq_zero_iff.mp (Nat.le_zero.mp hlen)] at h
    exact absurd h nofun
  | succ len ih =>
    intro n rs hlen h
    match rs, h with
    | { weight := w, symbol := some sym } :: rest, h => exact ⟨.leaf w sym, rest, rfl, h⟩
    | { weight := w, symbol := none } :: rest, h =>
      rw [List.length_cons] at hlen
      obtain ⟨l, restl, rfl, hl⟩ := ih (n := n + 1) (by omega) h
      rw [List.length_append] at hlen
      obtain ⟨r, restr, rfl, hr⟩ := ih (n := n) (by omega) hl
      exact ⟨.node w l r, restr, by simp [recordsOf], hr⟩

/-- A complete run of records is a tree's. -/
theorem exists_tree_of_complete {rs : List TreeRecord} (h : slotsAfter 1 rs = some 0) : ∃ t, rs = recordsOf t := by
  obtain ⟨t, rest, rfl, hrest⟩ := exists_tree_of_slotsAfter rs.length (Nat.le_refl _) h
  cases rest with
  | nil => exact ⟨t, List.append_nil _⟩
  | cons r rest => exact absurd hrest nofun

/-! ## The arena of a tree in pre-order -/

/-- The records of a tree numbered in pre-order from index `i` on (44_container.md R106). -/
def arenaOf : Nat → HuffTree → List Node
  | _, .leaf w sym => [.leaf w sym]
  | i, .node w l r =>
    .internal w (BitVec.ofNat 9 (i + 1)) (BitVec.ofNat 9 (i + 1 + HuffTree.size l)) ::
      (arenaOf (i + 1) l ++ arenaOf (i + 1 + HuffTree.size l) r)

@[simp] theorem arenaOf_length (t : HuffTree) : ∀ i, (arenaOf i t).length = HuffTree.size t := by
  induction t with
  | leaf w sym => intro i; rfl
  | node w l r ihl ihr => intro i; simp [arenaOf, HuffTree.size, ihl, ihr]

theorem modify_append_cons (pre : List Node) (x : Node) (post : List Node) (f : Node → Node) :
    (pre ++ x :: post).modify pre.length f = pre ++ f x :: post := by
  induction pre with
  | nil => simp
  | cons y pre ih => simp [ih]

/-- The parser fills a slot with a tree, its records numbered from the next index on in pre-order. -/
theorem storeRecords_recordsOf (t : HuffTree) : ∀ (slot : Slot) (stack : List Slot) (nodes : List Node)
    (rs : List TreeRecord),
    storeRecords (slot :: stack) nodes (recordsOf t ++ rs) =
      storeRecords stack (fillSlot nodes slot nodes.length ++ arenaOf nodes.length t) rs := by
  induction t with
  | leaf w sym => intro slot stack nodes rs; rfl
  | node w l r ihl ihr =>
    intro slot stack nodes rs
    generalize hfilled : fillSlot nodes slot nodes.length = filled
    have hlen : filled.length = nodes.length := by rw [← hfilled, fillSlot_length]
    have hleft (x : Node) (idx : Nat) :
        fillSlot (filled ++ [x]) (.left nodes.length) idx = filled ++ [x.withLeft idx] := by
      rw [fillSlot, ← hlen, modify_append_cons]
    have hright (x : Node) (post : List Node) (idx : Nat) :
        fillSlot (filled ++ x :: post) (.right nodes.length) idx = filled ++ x.withRight idx :: post := by
      rw [fillSlot, ← hlen, modify_append_cons]
    rw [recordsOf, List.cons_append, List.append_assoc, storeRecords, hfilled]
    simp only [slotsOf, nodeOf, List.cons_append, List.nil_append]
    rw [ihl, hleft, List.append_assoc, List.singleton_append, ihr, hright]
    simp only [List.length_append, List.length_cons, List.length_nil, arenaOf_length, hlen, arenaOf, Node.withLeft,
      Node.withRight, List.append_assoc, List.cons_append, Nat.zero_add]
    rw [show nodes.length + (HuffTree.size l + 1) = nodes.length + 1 + HuffTree.size l by omega]

theorem storeRecords_tree (t : HuffTree) : storeRecords [.root] [] (recordsOf t) = ([], arenaOf 0 t) := by
  have h := storeRecords_recordsOf t .root [] [] []
  rw [List.append_nil, storeRecords_nil] at h
  exact h

/-- The arena of a tree holds it, its indices in pre-order (44_container.md R106). -/
theorem holdsAt_arenaOf (t : HuffTree) : ∀ (pre post : List Node),
    pre.length + HuffTree.size t ≤ 512 →
    holdsAt (pre ++ arenaOf pre.length t ++ post) pre.length t ∧
    indicesOf (pre ++ arenaOf pre.length t ++ post) pre.length t = List.range' pre.length (HuffTree.size t) := by
  induction t with
  | leaf w sym =>
    intro pre post _
    simp [holdsAt, arenaOf, indicesOf, HuffTree.size]
  | node w l r ihl ihr =>
    intro pre post hsize
    simp only [HuffTree.size] at hsize
    have hposl : 0 < HuffTree.size l := by cases l <;> simp [HuffTree.size]
    have hposr : 0 < HuffTree.size r := by cases r <;> simp [HuffTree.size]
    generalize hroot : Node.internal w (BitVec.ofNat 9 (pre.length + 1))
      (BitVec.ofNat 9 (pre.length + 1 + HuffTree.size l)) = root
    have hlenl : (pre ++ [root]).length = pre.length + 1 := by simp
    have hlenr : (pre ++ root :: arenaOf (pre.length + 1) l).length = pre.length + 1 + HuffTree.size l := by
      simp only [List.length_append, List.length_cons, arenaOf_length]
      omega
    have hl := ihl (pre ++ [root]) (arenaOf (pre.length + 1 + HuffTree.size l) r ++ post) (by omega)
    have hr := ihr (pre ++ root :: arenaOf (pre.length + 1) l) post (by omega)
    rw [hlenl] at hl
    rw [hlenr] at hr
    have hnodes : pre ++ arenaOf pre.length (.node w l r) ++ post =
        pre ++ root :: (arenaOf (pre.length + 1) l ++ (arenaOf (pre.length + 1 + HuffTree.size l) r ++ post)) := by
      simp [arenaOf, ← hroot]
    simp only [List.append_assoc, List.cons_append, List.nil_append] at hl hr
    obtain ⟨hholdsl, hindl⟩ := hl
    obtain ⟨hholdsr, hindr⟩ := hr
    have hget : (pre ++ root :: (arenaOf (pre.length + 1) l ++
        (arenaOf (pre.length + 1 + HuffTree.size l) r ++ post)))[pre.length]? = some root := by simp
    have hlnat : (BitVec.ofNat 9 (pre.length + 1)).toNat = pre.length + 1 := Nat.mod_eq_of_lt (by omega)
    have hrnat : (BitVec.ofNat 9 (pre.length + 1 + HuffTree.size l)).toNat = pre.length + 1 + HuffTree.size l :=
      Nat.mod_eq_of_lt (by omega)
    rw [hnodes]
    subst hroot
    refine ⟨⟨_, _, hget, by rwa [hlnat], by rwa [hrnat]⟩, ?_⟩
    simp only [indicesOf, hget, hlnat, hrnat, hindl, hindr, HuffTree.size]
    rw [List.range'_succ, List.range'_append_1]

theorem HuffTree.size_eq (t : HuffTree) : HuffTree.size t = 2 * t.symbols.length - 1 := by
  induction t with
  | leaf w sym => rfl
  | node w l r ihl ihr =>
    have hl := l.symbols_length_pos
    have hr := r.symbols_length_pos
    rw [HuffTree.size, HuffTree.symbols, List.length_append, ihl, ihr]
    omega

/-- A tree with distinct symbols has at most 511 records (00_scope.md R8 MAX_NODES). -/
theorem HuffTree.size_le {t : HuffTree} (h : t.symbols.Nodup) : HuffTree.size t ≤ Config.maxNodes := by
  have hle := Sys2Proof.HuffTree.symbols_length_le h
  rw [HuffTree.size_eq, Config.maxNodes]
  omega

/-- The arena DESERIALIZE makes of a tree, none of the empty tree. -/
def preorderNodes : Option HuffTree → List Node
  | none => []
  | some t => arenaOf 0 t

/-- The root DESERIALIZE gives it. -/
def preorderRoot (t : Option HuffTree) : Option NodeIndex := t.map fun _ => 0

theorem storesInPreorder_preorderNodes {t : Option HuffTree} (h : ∀ tree, t = some tree → tree.symbols.Nodup) :
    storesInPreorder (preorderNodes t) (preorderRoot t) t := by
  cases t with
  | none => exact ⟨⟨rfl, rfl⟩, nofun⟩
  | some tree =>
    have hsize := HuffTree.size_le (h tree rfl)
    rw [Config.maxNodes] at hsize
    obtain ⟨hholds, hindices⟩ := holdsAt_arenaOf tree [] [] (by rw [List.length_nil]; omega)
    rw [List.append_nil, List.nil_append, List.length_nil] at hholds hindices
    rw [← List.range_eq_range'] at hindices
    have hrange : indicesOf (arenaOf 0 tree) 0 tree = List.range (arenaOf 0 tree).length := by
      rw [hindices, arenaOf_length]
    refine ⟨⟨0, rfl, hholds, List.Perm.of_eq hrange, h tree rfl⟩, fun tree' htree => ⟨rfl, ?_⟩⟩
    obtain rfl := Option.some.inj htree
    exact hrange

end Sys2Proof.Machine

/-! SUPPORT. The container (44_container.md R106 to R112): what DESERIALIZE answers on a container, and what stood in IN when
it answers. -/

namespace Sys2Proof.Machine

open Sys2Proof

/-! ## The tree block -/

theorem HuffTree.block_length_pos (t : HuffTree) : 0 < t.block.length := by
  cases t <;> simp [HuffTree.block]

/-- Only the empty tree has no tree byte (30_encoding.md R71). -/
theorem blockOf_length_eq_zero_iff {t : Option HuffTree} : (blockOf t).length = 0 ↔ t = none := by
  cases t with
  | none => exact ⟨fun _ => rfl, fun _ => rfl⟩
  | some tree => exact ⟨fun h => absurd h (HuffTree.block_length_pos tree).ne', nofun⟩

/-- The tree block's records, read from its start (44_container.md R108). -/
theorem parseRecords_start {m : Memory} {last k : Nat} {rs : List TreeRecord} (hrs : readsRecords rs k)
    (hbytes : bytesAt m 8 (rs.flatMap TreeRecord.bytes)) (hlast : posAfter rs ≤ last) :
    parseRecords m last (Config.maxNodes + 1) [.root] 8 [] [] =
      parseRecords m last (Config.maxNodes + 1 - rs.length) (storeRecords [.root] [] rs).1 (posAfter rs)
        (storeRecords [.root] [] rs).2 (seenSymbols rs).reverse := by
  obtain ⟨hslots, hnodup, hcount⟩ := hrs
  have hrun := parseRecords_run (m := m) (last := last) rs (fuel := Config.maxNodes + 1 - rs.length) (stack := [.root])
    (nodes := []) (seen := []) hbytes hlast hslots hnodup (fun _ _ => List.not_mem_nil)
    (by rw [List.length_nil, Nat.zero_add]; exact hcount)
  rwa [Nat.sub_add_cancel (by omega), List.append_nil] at hrun

theorem readsRecords_recordsOf {t : HuffTree} (h : t.symbols.Nodup) : readsRecords (recordsOf t) 0 := by
  have hslots := slotsAfter_recordsOf t 0 []
  rw [List.append_nil] at hslots
  exact ⟨hslots, by rwa [seenSymbols_recordsOf], by rw [recordsOf_length]; exact HuffTree.size_le h⟩

theorem posAfter_recordsOf (t : HuffTree) : posAfter (recordsOf t) = 8 + t.block.length := by
  rw [posAfter, recordsOf_bytes]

/-- The block of a tree is read as the tree in pre-order (44_container.md R108). -/
theorem parseTree_blockOf {m : Memory} {t : Option HuffTree} (h : ∀ tree, t = some tree → tree.symbols.Nodup)
    (hbytes : bytesAt m 8 (blockOf t)) : parseTree m (blockOf t).length = .ok (preorderNodes t) := by
  cases t with
  | none => rfl
  | some tree =>
    rw [blockOf] at hbytes
    have hstart := parseRecords_start (last := 8 + tree.block.length) (readsRecords_recordsOf (h tree rfl))
      (by rwa [recordsOf_bytes]) (by rw [posAfter_recordsOf])
    rw [parseTree, blockOf, if_neg (HuffTree.block_length_pos tree).ne', hstart, storeRecords_tree, posAfter_recordsOf]
    simp only [parseRecords, ne_eq, not_true_eq_false, if_false, preorderNodes]

/-- When the tree block is read without an error, it is the block of a tree with distinct symbols or of the empty tree. -/
theorem parseTree_eq_ok {m : Memory} {len : Nat} {nodes : List Node} (h : parseTree m len = .ok nodes) :
    ∃ t, (∀ tree, t = some tree → tree.symbols.Nodup) ∧ len = (blockOf t).length ∧ nodes = preorderNodes t ∧
      bytesAt m 8 (blockOf t) := by
  unfold parseTree at h
  split at h
  · next hzero => exact ⟨none, nofun, hzero, (Except.ok.inj h).symm, bytesAt_nil m 8⟩
  · split at h
    · exact absurd h nofun
    next nodes' pos hparse =>
    split at h
    · exact absurd h nofun
    next hpos =>
    obtain ⟨rs, hbytes, hend, hslots, hnodup, _, hnodes⟩ := parseRecords_ok _ (Nat.zero_le _) hparse
    obtain ⟨t, rfl⟩ := exists_tree_of_complete hslots
    rw [recordsOf_bytes] at hbytes hend
    rw [seenSymbols_recordsOf] at hnodup
    rw [storeRecords_tree] at hnodes
    refine ⟨some t, fun tree htree => Option.some.inj htree ▸ hnodup, ?_, ?_, hbytes⟩
    · rw [blockOf]
      omega
    · rw [← Except.ok.inj h, hnodes]
      rfl

theorem parseTree_fault {m : Memory} {len : Nat} {f : Fault} (h : parseTree m len = .error (.fault f)) :
    ∃ x, x < 8 + len ∧ readByte m x = none ∧ f = .inUnwritten x := by
  unfold parseTree at h
  split at h
  · exact absurd h nofun
  · split at h
    · next hparse =>
      obtain rfl := Except.error.inj h
      exact parseRecords_fault _ (by omega) (Nat.zero_le _) (Nat.lt_succ_self _) hparse
    · split at h <;> exact absurd h nofun

theorem parseTree_stopsAtOr {a : Nat} {m m' : Memory} (h : fillsAt a m m') (len : Nat) :
    stopsAtOr a (parseTree m len) (parseTree m' len) := by
  rw [parseTree, parseTree]
  split
  · exact .inr rfl
  · rcases parseRecords_stopsAtOr h (8 + len) (Config.maxNodes + 1) [.root] 8 [] [] with hparse | hparse
    · rw [hparse]
      exact .inl rfl
    · rw [hparse]
      exact .inr rfl

/-! ## The packed bits -/

/-- The bits of the last byte beyond the bit length `b` are 0 (44_container.md R109). -/
def paddingClear (b : Nat) (bytes : List Byte) : Prop :=
  b % 8 ≠ 0 → ∀ last, bytes.getLast? = some last → last.toNat % 2 ^ (8 - b % 8) = 0

/-- Low bits of a number are 0 exactly when it is a multiple of their power of 2. -/
theorem mod_two_pow_eq_zero_iff (x j : Nat) : x % 2 ^ j = 0 ↔ ∀ i, i < j → x.testBit i = false := by
  constructor
  · intro h i hi
    have hbit := Nat.testBit_mod_two_pow x j i
    rw [h, Nat.zero_testBit, decide_eq_true hi, Bool.true_and] at hbit
    exact hbit.symm
  · intro h
    apply Nat.eq_of_testBit_eq
    intro i
    rw [Nat.testBit_mod_two_pow, Nat.zero_testBit]
    by_cases hi : i < j
    · rw [h i hi, Bool.and_false]
    · rw [decide_eq_false hi, Bool.false_and]

/-- The padding of packed bits is 0 (00_scope.md R15). -/
theorem paddingClear_packBytes (bits : Bits) : paddingClear bits.length (packBytes (ceil8 bits.length) bits) := by
  intro hpad last hlast
  have hbounds := ceil8_bounds bits.length
  rw [List.getLast?_eq_getElem?, packBytes_length] at hlast
  rw [mod_two_pow_eq_zero_iff]
  intro i hi
  have hbit := packBytes_getLsbD hlast (k := 7 - i) (by omega)
  have hback : 7 - (7 - i) = i := by omega
  rw [hback] at hbit
  rw [← BitVec.testBit_toNat] at hbit
  rw [hbit, List.getD_eq_default _ _ (by omega)]

/-- Bit `8 * q + k` of packed bytes is bit `7 - k` of byte `q` (00_scope.md R15). -/
theorem flatMap_byteBits_getElem? (bytes : List Byte) : ∀ (q k : Nat), k < 8 →
    (bytes.flatMap byteBits)[8 * q + k]? = bytes[q]?.map fun b => b.getLsbD (7 - k) := by
  induction bytes with
  | nil => intro q k _; rfl
  | cons b bytes ih =>
    intro q k hk
    rw [List.flatMap_cons]
    have hlen : (byteBits b).length = 8 := rfl
    cases q with
    | zero =>
      rw [List.getElem?_append_left (by omega)]
      interval_cases k <;> rfl
    | succ q =>
      rw [List.getElem?_append_right (by omega), hlen, show 8 * (q + 1) + k - 8 = 8 * q + k by omega, ih q k hk,
        List.getElem?_cons_succ]

theorem flatMap_byteBits_length (bytes : List Byte) : (bytes.flatMap byteBits).length = 8 * bytes.length := by
  induction bytes with
  | nil => rfl
  | cons b bytes ih =>
    rw [List.flatMap_cons, List.length_append, ih, List.length_cons]
    change 8 + _ = _
    omega

theorem unpackBits_length {b : Nat} {bytes : List Byte} (h : bytes.length = ceil8 b) :
    (unpackBits b bytes).length = b := by
  have := ceil8_bounds b
  rw [unpackBits, List.length_take, flatMap_byteBits_length]
  omega

/-- Packed bytes whose padding is 0 are the packing of their bits (00_scope.md R15). -/
theorem packBytes_unpackBits {b : Nat} {bytes : List Byte} (hlen : bytes.length = ceil8 b) (hpad : paddingClear b bytes) :
    packBytes (ceil8 b) (unpackBits b bytes) = bytes := by
  have hbounds := ceil8_bounds b
  apply List.ext_getElem (by rw [packBytes_length, hlen])
  intro q hq hq'
  have hpacked := List.getElem?_eq_getElem hq
  apply BitVec.eq_of_getLsbD_eq
  intro j hj
  have hback : 7 - (7 - j) = j := by omega
  have hbit := packBytes_getLsbD hpacked (k := 7 - j) (by omega)
  rw [hback] at hbit
  rw [hbit, List.getD_eq_getElem?_getD, unpackBits]
  by_cases hin : 8 * q + (7 - j) < b
  · rw [List.getElem?_take_of_lt hin, flatMap_byteBits_getElem? bytes q (7 - j) (by omega),
      List.getElem?_eq_getElem hq', Option.map_some, Option.getD_some, hback]
  · rw [List.getElem?_eq_none (by rw [List.length_take]; omega), Option.getD_none]
    have hlast : bytes.getLast? = some bytes[q] := by
      rw [List.getLast?_eq_getElem?, show bytes.length - 1 = q by omega, List.getElem?_eq_getElem hq']
    have hclear := hpad (by omega) _ hlast
    rw [mod_two_pow_eq_zero_iff] at hclear
    rw [← BitVec.testBit_toNat, hclear j (by omega)]

/-- The padding check passes exactly on clear padding (44_container.md R109). -/
theorem parsePadding_eq_ok_iff {m : Memory} {r b : Nat} {bytes : List Byte} (hlen : bytes.length = ceil8 b)
    (hbytes : bytesAt m r bytes) : parsePadding m r b = .ok () ↔ paddingClear b bytes := by
  have hbounds := ceil8_bounds b
  unfold parsePadding paddingClear
  by_cases hpad : b % 8 = 0
  · rw [if_pos hpad]
    exact ⟨fun _ h => absurd hpad h, fun _ => rfl⟩
  · have hread : readByte m (r + ceil8 b - 1) = bytes.getLast? := by
      rw [List.getLast?_eq_getElem?, Nat.add_sub_assoc (by omega), hbytes _ (by omega), hlen]
    have hlast := List.getLast?_eq_some_getLast (List.ne_nil_of_length_pos (l := bytes) (by omega))
    generalize bytes.getLast (List.ne_nil_of_length_pos (by omega)) = last at hlast
    rw [if_neg hpad, memRead_eq, hread, hlast]
    by_cases hclear : last.toNat % 2 ^ (8 - b % 8) = 0 <;> simp [hpad, hclear]

theorem parsePadding_fault {m : Memory} {r b : Nat} {f : Fault} (h : parsePadding m r b = .error (.fault f)) :
    ∃ x, x < r + ceil8 b ∧ readByte m x = none ∧ f = .inUnwritten x := by
  have hbounds := ceil8_bounds b
  unfold parsePadding at h
  split at h
  · exact absurd h nofun
  · split at h
    · next hread =>
      obtain ⟨rfl, hnone⟩ := memRead_error hread
      exact ⟨_, by omega, hnone, (Stop.fault.inj (Except.error.inj h)).symm⟩
    · split at h <;> exact absurd h nofun

theorem parsePadding_stopsAtOr {a : Nat} {m m' : Memory} (h : fillsAt a m m') (r b : Nat) :
    stopsAtOr a (parsePadding m r b) (parsePadding m' r b) := by
  rw [parsePadding, parsePadding]
  split
  · exact .inr rfl
  · rcases memRead_stopsAtOr h (r + ceil8 b - 1) with hread | hread
    · rw [hread]
      exact .inl rfl
    · rw [hread]
      exact .inr rfl

/-- A bit length and its packed bits are read as themselves (44_container.md R109). -/
theorem parseBits_of_bytes {m : Memory} {n len cap : Nat} {bits : Bits} (hn : n = 16 + len + ceil8 bits.length)
    (hlt : bits.length < 2 ^ 64) (hempty : len = 0 → bits = []) (hcap : ceil8 bits.length ≤ cap)
    (hlength : bytesAt m (8 + len) (be64Bytes (BitVec.ofNat 64 bits.length)))
    (hpacked : bytesAt m (16 + len) (packBytes (ceil8 bits.length) bits)) :
    parseBits m n len cap = .ok (BitVec.ofNat 64 bits.length, packBytes (ceil8 bits.length) bits) := by
  have hnat : (BitVec.ofNat 64 bits.length).toNat = bits.length := Nat.mod_eq_of_lt hlt
  have hzero : ¬ (len = 0 ∧ BitVec.ofNat 64 bits.length ≠ 0) := by
    rintro ⟨hlen, hne⟩
    rw [hempty hlen] at hne
    exact hne rfl
  have hpad := (parsePadding_eq_ok_iff (packBytes_length _ bits) hpacked).mpr (paddingClear_packBytes bits)
  have hread := memReadBytes_eq_ok_iff.mpr ⟨packBytes_length _ bits, hpacked⟩
  rw [parseBits, if_neg (by omega), memRead64_eq_ok_iff.mpr hlength]
  dsimp only
  rw [if_neg hzero, hnat, if_neg (by omega), if_neg (by omega), hpad]
  dsimp only
  rw [if_neg (by omega), hread]

/-- When the bit length and the packed bits are read without an error, they are those of a bit sequence that fits
BITBUF_CAP and ends the buffer (44_container.md R109). -/
theorem parseBits_eq_ok {m : Memory} {n len cap : Nat} {b : Word} {bytes : List Byte}
    (h : parseBits m n len cap = .ok (b, bytes)) :
    ∃ bits : Bits, b = BitVec.ofNat 64 bits.length ∧ bits.length < 2 ^ 64 ∧ bytes = packBytes (ceil8 bits.length) bits ∧
      n = 16 + len + ceil8 bits.length ∧ ceil8 bits.length ≤ cap ∧ (len = 0 → bits = []) ∧
      bytesAt m (8 + len) (be64Bytes b) ∧ bytesAt m (16 + len) bytes := by
  unfold parseBits at h
  split at h
  · exact absurd h nofun
  next hshort =>
  split at h
  · exact absurd h nofun
  next b' hb =>
  split at h
  · exact absurd h nofun
  next hempty =>
  split at h
  · exact absurd h nofun
  split at h
  · exact absurd h nofun
  split at h
  · exact absurd h nofun
  next hpad =>
  split at h
  · exact absurd h nofun
  split at h
  · exact absurd h nofun
  next bytes' hread =>
  obtain ⟨rfl, rfl⟩ := Prod.mk.inj (Except.ok.inj h)
  obtain ⟨hlen, hbytes⟩ := memReadBytes_eq_ok_iff.mp hread
  have hlength := unpackBits_length hlen
  have hclear := (parsePadding_eq_ok_iff hlen hbytes).mp hpad
  refine ⟨unpackBits b'.toNat bytes', ?_, ?_, ?_, ?_, ?_, fun hzero => ?_, memRead64_eq_ok_iff.mp hb, hbytes⟩
  · rw [hlength, BitVec.ofNat_toNat, BitVec.setWidth_eq]
  · rw [hlength]
    exact b'.isLt
  · rw [hlength, packBytes_unpackBits hlen hclear]
  · rw [hlength]
    omega
  · rw [hlength]
    omega
  · rw [← List.length_eq_zero_iff, hlength]
    have hb0 : b' = 0 := not_not.mp fun hne => hempty ⟨hzero, hne⟩
    rw [hb0]
    rfl

theorem parseBits_fault {m : Memory} {n len cap : Nat} {f : Fault} (h : parseBits m n len cap = .error (.fault f)) :
    ∃ x, x < n ∧ readByte m x = none ∧ f = .inUnwritten x := by
  unfold parseBits at h
  split at h
  · exact absurd h nofun
  split at h
  · next hb =>
    obtain ⟨x, _, hx, hnone, rfl⟩ := memRead64_error_unwritten hb
    exact ⟨x, by omega, hnone, (Stop.fault.inj (Except.error.inj h)).symm⟩
  split at h
  · exact absurd h nofun
  split at h
  · exact absurd h nofun
  split at h
  · exact absurd h nofun
  split at h
  · next hpad =>
    obtain rfl := Except.error.inj h
    obtain ⟨x, hx, hnone, rfl⟩ := parsePadding_fault hpad
    exact ⟨x, by omega, hnone, rfl⟩
  split at h
  · exact absurd h nofun
  split at h
  · next hread =>
    obtain ⟨x, _, hx, hnone, rfl⟩ := memReadBytes_error_unwritten hread
    exact ⟨x, by omega, hnone, (Stop.fault.inj (Except.error.inj h)).symm⟩
  · exact absurd h nofun

theorem parseBits_stopsAtOr {a : Nat} {m m' : Memory} (h : fillsAt a m m') (n len cap : Nat) :
    stopsAtOr a (parseBits m n len cap) (parseBits m' n len cap) := by
  rw [parseBits, parseBits]
  split
  · exact .inr rfl
  rcases memRead64_stopsAtOr h (8 + len) with hb | hb
  · rw [hb]
    exact .inl rfl
  rw [hb]
  cases memRead64 m' (8 + len) with
  | error e => exact .inr rfl
  | ok b =>
    dsimp only
    split
    · exact .inr rfl
    split
    · exact .inr rfl
    split
    · exact .inr rfl
    rcases parsePadding_stopsAtOr h (16 + len) b.toNat with hpad | hpad
    · rw [hpad]
      exact .inl rfl
    rw [hpad]
    cases parsePadding m' (16 + len) b.toNat with
    | error e => exact .inr rfl
    | ok u =>
      dsimp only
      split
      · exact .inr rfl
      rcases memReadBytes_stopsAtOr h (ceil8 b.toNat) (16 + len) with hread | hread
      · rw [hread]
        exact .inl rfl
      · rw [hread]
        exact .inr rfl

/-! ## The container -/

/-- A container is its tree block with the bit length and the packed bits after it (30_encoding.md R71). -/
theorem containerOf_eq_withTreeBlock (t : Option HuffTree) (bits : Bits) :
    containerOf t bits = withTreeBlock (blockOf t)
      (be64Bytes (BitVec.ofNat 64 bits.length) ++ packBytes (ceil8 bits.length) bits) := by
  simp only [containerOf, withTreeBlock, List.append_assoc]

@[simp] theorem withTreeBlock_length (block rest : List Byte) :
    (withTreeBlock block rest).length = 8 + block.length + rest.length := by
  simp only [withTreeBlock, List.length_append, be64Bytes_length]

@[simp] theorem containerOf_length (t : Option HuffTree) (bits : Bits) :
    (containerOf t bits).length = 16 + (blockOf t).length + ceil8 bits.length := by
  simp only [containerOf, List.length_append, be64Bytes_length, packBytes_length]
  omega

theorem bytesAt_withTreeBlock {m : Memory} {block rest : List Byte} :
    bytesAt m 0 (withTreeBlock block rest) ↔
      bytesAt m 0 (be64Bytes (BitVec.ofNat 64 block.length)) ∧ bytesAt m 8 block ∧
        bytesAt m (8 + block.length) rest := by
  rw [withTreeBlock, bytesAt_append, bytesAt_append, List.length_append, be64Bytes_length, Nat.zero_add, Nat.zero_add,
    and_assoc]

/-- The tree length field is read as the length of the block it declares (44_container.md R107). -/
theorem parseTreeLength_withTreeBlock {m : Memory} {block rest : List Byte} {n : Nat}
    (hn : n = 8 + block.length + rest.length)
    (hlt : block.length < 2 ^ 64) (hbytes : bytesAt m 0 (withTreeBlock block rest)) :
    parseTreeLength m n = .ok block.length := by
  obtain ⟨hhead, _, _⟩ := bytesAt_withTreeBlock.mp hbytes
  have hnat : (BitVec.ofNat 64 block.length).toNat = block.length := Nat.mod_eq_of_lt hlt
  rw [parseTreeLength, if_neg (by omega), memRead64_eq_ok_iff.mpr hhead]
  dsimp only
  rw [hnat, if_neg (by omega)]

/-- On a tree block with a right length field the parser goes on with the records and the bits (44_container.md R106). -/
theorem parseContainer_withTreeBlock {m : Memory} {block rest : List Byte} {n : Nat} (cap : Nat)
    (hn : n = 8 + block.length + rest.length) (hlt : block.length < 2 ^ 64)
    (hbytes : bytesAt m 0 (withTreeBlock block rest)) :
    (∀ e, parseTree m block.length = .error e → parseContainer m n cap = .error e) ∧
    (∀ nodes, parseTree m block.length = .ok nodes →
      (∀ e, parseBits m n block.length cap = .error e → parseContainer m n cap = .error e) ∧
      (∀ b bytes, parseBits m n block.length cap = .ok (b, bytes) →
        parseContainer m n cap = .ok (block.length, nodes, b, bytes))) := by
  have hlength := parseTreeLength_withTreeBlock hn hlt hbytes
  refine ⟨fun e he => ?_, fun nodes hnodes => ⟨fun e he => ?_, fun b bytes hb => ?_⟩⟩
  · simp only [parseContainer, hlength, he]
  · simp only [parseContainer, hlength, hnodes, he]
  · simp only [parseContainer, hlength, hnodes, hb]

/-- 10 bytes for each leaf and 9 for each internal node, of which there is one fewer (30_encoding.md R73). -/
theorem HuffTree.block_length (t : HuffTree) : t.block.length + 9 = 19 * t.symbols.length := by
  induction t with
  | leaf w sym => rfl
  | node w l r ihl ihr =>
    simp only [HuffTree.block, HuffTree.symbols, List.length_append, List.length_cons, be64Bytes_length]
    omega

theorem blockOf_length_le {t : Option HuffTree} (h : ∀ tree, t = some tree → tree.symbols.Nodup) :
    (blockOf t).length ≤ 4855 := by
  cases t with
  | none => exact Nat.zero_le _
  | some tree =>
    have hlen := HuffTree.block_length tree
    have hle := Sys2Proof.HuffTree.symbols_length_le (h tree rfl)
    rw [blockOf]
    omega

/-- A container of fewer than 2^64 bits that fit BITBUF_CAP is read as its tree in pre-order and its bits (44_container.md
R106 to R110). -/
theorem parseContainer_containerOf {m : Memory} {t : Option HuffTree} {bits : Bits} {n cap : Nat}
    (hnodup : ∀ tree, t = some tree → tree.symbols.Nodup) (hempty : t = none → bits = []) (hlt : bits.length < 2 ^ 64)
    (hcap : ceil8 bits.length ≤ cap) (hn : n = (containerOf t bits).length) (hbytes : bytesAt m 0 (containerOf t bits)) :
    parseContainer m n cap = .ok ((blockOf t).length, preorderNodes t, BitVec.ofNat 64 bits.length,
      packBytes (ceil8 bits.length) bits) := by
  have hblock := blockOf_length_le hnodup
  rw [containerOf_length] at hn
  rw [containerOf_eq_withTreeBlock] at hbytes
  obtain ⟨_, hok⟩ := parseContainer_withTreeBlock (n := n) cap
    (by rw [List.length_append, packBytes_length, be64Bytes_length]; omega) (by omega) hbytes
  obtain ⟨_, htree, hrest⟩ := bytesAt_withTreeBlock.mp hbytes
  rw [bytesAt_append, be64Bytes_length, show 8 + (blockOf t).length + 8 = 16 + (blockOf t).length by omega] at hrest
  obtain ⟨hlength, hpacked⟩ := hrest
  obtain ⟨_, hcontainer⟩ := hok _ (parseTree_blockOf hnodup htree)
  exact hcontainer _ _ (parseBits_of_bytes (by omega) hlt (fun hzero => hempty (blockOf_length_eq_zero_iff.mp hzero)) hcap
    hlength hpacked)

/-- What the parser accepts is the container of a tree with distinct symbols and a bit sequence, or of the empty tree and no
bits (44_container.md R111). -/
theorem parseContainer_eq_ok {m : Memory} {n cap len : Nat} {nodes : List Node} {b : Word} {bytes : List Byte}
    (h : parseContainer m n cap = .ok (len, nodes, b, bytes)) :
    ∃ (t : Option HuffTree) (bits : Bits), (∀ tree, t = some tree → tree.symbols.Nodup) ∧ (t = none → bits = []) ∧
      bits.length < 2 ^ 64 ∧ ceil8 bits.length ≤ cap ∧ len = (blockOf t).length ∧ nodes = preorderNodes t ∧
      b = BitVec.ofNat 64 bits.length ∧ bytes = packBytes (ceil8 bits.length) bits ∧
      n = (containerOf t bits).length ∧ bytesAt m 0 (containerOf t bits) := by
  unfold parseContainer at h
  split at h
  · exact absurd h nofun
  next len' hlen =>
  split at h
  · exact absurd h nofun
  next nodes' htree =>
  split at h
  · exact absurd h nofun
  next b' bytes' hbits =>
  simp only [Except.ok.injEq, Prod.mk.injEq] at h
  obtain ⟨rfl, rfl, rfl, rfl⟩ := h
  obtain ⟨t, hnodup, rfl, hnodes, hblock⟩ := parseTree_eq_ok htree
  obtain ⟨bits, hb, hlt, hbytes, hn, hcap, hempty, hlength, hpacked⟩ := parseBits_eq_ok hbits
  have hhead : bytesAt m 0 (be64Bytes (BitVec.ofNat 64 (blockOf t).length)) := by
    unfold parseTreeLength at hlen
    split at hlen
    · exact absurd hlen nofun
    split at hlen
    · exact absurd hlen nofun
    next w hw =>
    split at hlen
    · exact absurd hlen nofun
    rw [← Except.ok.inj hlen, BitVec.ofNat_toNat, BitVec.setWidth_eq]
    exact memRead64_eq_ok_iff.mp hw
  refine ⟨t, bits, hnodup, fun ht => hempty (blockOf_length_eq_zero_iff.mpr ht), hlt, hcap, rfl, hnodes, hb, hbytes, ?_, ?_⟩
  · rw [containerOf_length, hn]
  · rw [containerOf_eq_withTreeBlock, bytesAt_withTreeBlock, bytesAt_append, be64Bytes_length]
    rw [hb] at hlength
    rw [hbytes] at hpacked
    refine ⟨hhead, hblock, hlength, ?_⟩
    rwa [show 8 + (blockOf t).length + 8 = 16 + (blockOf t).length by omega]

/-- The parser stops with a fault only at an unwritten byte below IN_LEN (70_reset_and_hazards.md R153). -/
theorem parseContainer_fault {m : Memory} {n cap : Nat} {f : Fault} (h : parseContainer m n cap = .error (.fault f)) :
    ∃ x, x < n ∧ readByte m x = none ∧ f = .inUnwritten x := by
  unfold parseContainer at h
  split at h
  · next hlen =>
    obtain rfl := Except.error.inj h
    unfold parseTreeLength at hlen
    split at hlen
    · exact absurd hlen nofun
    split at hlen
    · next hread =>
      obtain ⟨x, _, hx, hnone, rfl⟩ := memRead64_error_unwritten hread
      exact ⟨x, by omega, hnone, (Stop.fault.inj (Except.error.inj hlen)).symm⟩
    · split at hlen <;> exact absurd hlen nofun
  next len hlen =>
  have hle : 8 + len ≤ n := by
    unfold parseTreeLength at hlen
    split at hlen
    · exact absurd hlen nofun
    split at hlen
    · exact absurd hlen nofun
    split at hlen
    · exact absurd hlen nofun
    have := Except.ok.inj hlen
    omega
  split at h
  · next htree =>
    obtain rfl := Except.error.inj h
    obtain ⟨x, hx, hnone, rfl⟩ := parseTree_fault htree
    exact ⟨x, by omega, hnone, rfl⟩
  split at h
  · next hbits =>
    obtain rfl := Except.error.inj h
    exact parseBits_fault hbits
  · exact absurd h nofun

theorem parseContainer_stopsAtOr {a : Nat} {m m' : Memory} (h : fillsAt a m m') (n cap : Nat) :
    stopsAtOr a (parseContainer m n cap) (parseContainer m' n cap) := by
  have hlen : stopsAtOr a (parseTreeLength m n) (parseTreeLength m' n) := by
    rw [parseTreeLength, parseTreeLength]
    split
    · exact .inr rfl
    rcases memRead64_stopsAtOr h 0 with hread | hread
    · rw [hread]
      exact .inl rfl
    · rw [hread]
      exact .inr rfl
  rw [parseContainer, parseContainer]
  rcases hlen with hlen | hlen
  · rw [hlen]
    exact .inl rfl
  rw [hlen]
  cases parseTreeLength m' n with
  | error e => exact .inr rfl
  | ok len =>
    dsimp only
    rcases parseTree_stopsAtOr h len with htree | htree
    · rw [htree]
      exact .inl rfl
    rw [htree]
    cases parseTree m' len with
    | error e => exact .inr rfl
    | ok nodes =>
      dsimp only
      rcases parseBits_stopsAtOr h n len cap with hbits | hbits
      · rw [hbits]
        exact .inl rfl
      · rw [hbits]
        exact .inr rfl

end Sys2Proof.Machine

/-! SUPPORT. SERIALIZE and DESERIALIZE as commands (44_container.md R104 to R112). -/

namespace Sys2Proof.Machine

open Sys2Proof

/-! ## What SERIALIZE writes -/

/-- The records visited are those at the tree's indices. -/
theorem visitsOf_map_fst (nodes : List Node) (t : HuffTree) : ∀ (i : Nat) (p : Bits), holdsAt nodes i t →
    (visitsOf nodes i t p).map Prod.fst = (indicesOf nodes i t).filterMap (nodes[·]?) := by
  induction t with
  | leaf w sym =>
    intro i p h
    rw [holdsAt] at h
    simp [visitsOf, indicesOf, h]
  | node w l r ihl ihr =>
    intro i p h
    obtain ⟨a, b, hi, hl, hr⟩ := h
    simp [visitsOf, indicesOf, hi, ihl _ _ hl, ihr _ _ hr]

theorem range_filterMap_getElem? (nodes : List Node) : (List.range nodes.length).filterMap (nodes[·]?) = nodes := by
  induction nodes using List.reverseRecOn with
  | nil => rfl
  | append_singleton nodes n ih =>
    rw [List.length_append, List.length_singleton, List.range_succ, List.filterMap_append]
    have hfront : (List.range nodes.length).filterMap ((nodes ++ [n])[·]?) =
        (List.range nodes.length).filterMap (nodes[·]?) :=
      List.filterMap_congr fun i hi => List.getElem?_append_left (List.mem_range.mp hi)
    rw [hfront, ih]
    simp

theorem recordBytes_length (n : Node) : (recordBytes n).length = recordSize n := by cases n <;> rfl

/-- A walk of a full tree visits every record once. -/
theorem visitsOf_perm {nodes : List Node} {i : Nat} {t : HuffTree} (h : fullTree nodes i t) :
    ((visitsOf nodes i t []).map Prod.fst).Perm nodes := by
  obtain ⟨hholds, hperm, _⟩ := h
  rw [visitsOf_map_fst nodes t i [] hholds]
  exact (hperm.filterMap _).trans (List.Perm.of_eq (range_filterMap_getElem? nodes))

/-- The size of a full tree's records is the length of its block (44_container.md R104). -/
theorem treeBlockSize_of_fullTree {nodes : List Node} {i : Nat} {t : HuffTree} (h : fullTree nodes i t) :
    treeBlockSize nodes = t.block.length := by
  rw [treeBlockSize, ← ((visitsOf_perm h).map recordSize).sum_eq, ← recordBytes_visitsOf nodes t i [] h.1,
    List.length_flatMap, List.map_map]
  exact congrArg List.sum (List.map_congr_left fun v _ => (recordBytes_length v.1).symm)

theorem treeBlockSize_of_storesTree {nodes : List Node} {root : Option NodeIndex} {t : Option HuffTree}
    (h : storesTree nodes root t) : treeBlockSize nodes = (blockOf t).length := by
  cases t with
  | none => obtain ⟨_, rfl⟩ := h; rfl
  | some tree => obtain ⟨r, _, hfull⟩ := h; exact treeBlockSize_of_fullTree hfull

/-- SERIALIZE's walk of a stored tree writes its block (30_encoding.md R72). -/
theorem treeBlock_of_storesTree {nodes : List Node} {root : Option NodeIndex} {t : Option HuffTree}
    (h : storesTree nodes root t) : treeBlock nodes root = .ok (blockOf t) := by
  cases t with
  | none => obtain ⟨rfl, _⟩ := h; rfl
  | some tree =>
    obtain ⟨r, rfl, hfull⟩ := h
    simp only [treeBlock, traverse_fullTree hfull [], recordBytes_visitsOf nodes tree _ _ hfull.1, blockOf]

theorem storesTree_nodup {nodes : List Node} {root : Option NodeIndex} {t : Option HuffTree}
    (h : storesTree nodes root t) : ∀ tree, t = some tree → tree.symbols.Nodup := by
  rintro tree rfl
  obtain ⟨_, _, _, _, hnodup⟩ := h
  exact hnodup

/-- Settles O37: the block by `HuffTree.block_length`, the records by `HuffTree.size_eq`, and at most 256 symbols. -/
theorem treeBlockSizeFromLeaves : Obligations.TreeBlockSizeFromLeaves := by
  intro nodes root
  refine ⟨fun h => treeBlockSize_of_storesTree h, fun tree h => ?_⟩
  have hsize := treeBlockSize_of_storesTree h
  have hle := blockOf_length_le (storesTree_nodup h)
  have hblock := HuffTree.block_length tree
  obtain ⟨r, _, hfull⟩ := h
  have hlength := size_of_fullTree hfull
  rw [HuffTree.size_eq] at hlength
  rw [blockOf] at hsize hle
  exact ⟨by omega, hsize.symm, hlength, by omega⟩

theorem bitLen_of_storesBits {s : State} {bits : Bits} (h : storesBits s bits) :
    s.bitLen = BitVec.ofNat 64 bits.length := by
  rw [← h.1, BitVec.ofNat_toNat, BitVec.setWidth_eq]

/-- What SERIALIZE writes of the stores, the tree among them being `t` (44_container.md R104). -/
def storedContainer (t : Option HuffTree) (s : State) : List Byte :=
  be64Bytes (BitVec.ofNat 64 (treeBlockSize s.nodes)) ++ blockOf t ++ be64Bytes s.bitLen
    ++ s.bitbuf.take (ceil8 s.bitLen.toNat)

/-- SERIALIZE's body on a stored tree. -/
theorem serializeBody_of_storesTree {s : State} {t : Option HuffTree} (htree : storesTree s.nodes s.root t) :
    serializeBody s =
      if s.cfg.outCap < containerSize s then .raised (plainError .outOverflow (containerSize s)) s
      else .done (writeOut (storedContainer t s) (containerSize s) s) := by
  rw [serializeBody, treeBlock_of_storesTree htree, Body.ofExcept_ok, storedContainer]

/-- SERIALIZE's body on a stored tree and stored bits (44_container.md R104). -/
theorem serializeBody_of_stores {s : State} {t : Option HuffTree} {bits : Bits} (htree : storesTree s.nodes s.root t)
    (hbits : storesBits s bits) :
    serializeBody s =
      if s.cfg.outCap < (containerOf t bits).length then
        .raised (plainError .outOverflow (containerOf t bits).length) s
      else .done (writeOut (containerOf t bits) (containerOf t bits).length s) := by
  have hbitLen := bitLen_of_storesBits hbits
  obtain ⟨hlen, hbuf⟩ := hbits
  have hsize : containerSize s = (containerOf t bits).length := by
    rw [containerSize, treeBlockSize_of_storesTree htree, hlen, containerOf_length]
  have htake : s.bitbuf.take (ceil8 s.bitLen.toNat) = packBytes (ceil8 bits.length) bits := by
    rw [hlen, hbuf, List.take_of_length_le (by rw [packBytes_length])]
  rw [serializeBody_of_storesTree htree, hsize, storedContainer, treeBlockSize_of_storesTree htree, htake, hbitLen,
    containerOf]

theorem exec_serialize_eq {s : State} (htv : s.tv = true) (hbv : s.bv = true) :
    exec .serialize s = finish (serializeBody s).losingOut := by
  refine exec_eq_finish (i := .serialize) ?_
  rw [precheck_none_iff, missingMask_eq_zero_iff]
  exact ⟨⟨fun _ => htv, nofun, fun _ => hbv⟩, nofun⟩

/-- A SERIALIZE whose container fits OUT_CAP writes it to OUT and changes only OUT and the status. -/
theorem exec_serialize_next {s : State} {t : Option HuffTree} {bits : Bits} (htv : s.tv = true) (hbv : s.bv = true)
    (htree : storesTree s.nodes s.root t) (hbits : storesBits s bits) (hfit : (containerOf t bits).length ≤ s.cfg.outCap) :
    exec .serialize s = .next { s with
      outMem := writeBytes s.outMem 0 (containerOf t bits), outLen := BitVec.ofNat 64 (containerOf t bits).length,
      done := true, pending := none } := by
  rw [exec_serialize_eq htv hbv, serializeBody_of_stores htree hbits, if_neg (Nat.not_lt.mpr hfit)]
  rfl

/-- Settles O35: `exec_serialize_next`. -/
theorem serializeWritesContainer : Obligations.SerializeWritesContainer := fun _ _ _ htv hbv htree hbits hfit =>
  ⟨_, exec_serialize_next htv hbv htree hbits hfit, wroteFromZero_writeBytes _ _⟩

/-- Settles O36: the body raises before anything is written. -/
theorem serializeReportsOverflow : Obligations.SerializeReportsOverflow := by
  intro s t bits htv hbv htree hbits hover
  rw [exec_serialize_eq htv hbv, serializeBody_of_stores htree hbits, if_pos hover]
  rfl

/-! ## DESERIALIZE -/

theorem Config.valid_bounds {c : Config} (h : c.valid = true) :
    c.inCap ≤ 2 ^ 48 ∧ 16 ≤ c.outCap ∧ c.outCap ≤ 2 ^ 56 ∧ c.bitbufCap ≤ 2 ^ 56 := by
  simp only [Config.valid, Bool.and_eq_true, decide_eq_true_eq] at h
  obtain ⟨⟨⟨⟨⟨_, hin⟩, hlow⟩, hout⟩, _⟩, hbits⟩ := h
  exact ⟨hin, hlow, hout, hbits⟩

/-- Bits that fit a valid BITBUF_CAP have a length of 64 bits (log entry 15). -/
theorem bits_lt_of_valid {c : Config} (h : c.valid = true) {n : Nat} (hn : ceil8 n ≤ c.bitbufCap) : n < 2 ^ 64 := by
  obtain ⟨_, _, _, hcap⟩ := Config.valid_bounds h
  have := ceil8_bounds n
  omega

theorem precheck_readsIn {s : State} (h : s.inLen.toNat ≤ s.cfg.inCap) : precheck Need.nothing true s = none :=
  (precheck_none_iff _ _ _).mpr ⟨rfl, fun _ => h⟩

theorem inLen_le_of_inputIs {s : State} {bytes : List Byte} (h : inputIs s bytes) : s.inLen.toNat ≤ s.cfg.inCap := by
  rw [h.1]
  exact h.2.1

/-- The state DESERIALIZE leaves with a tree and bits read (44_container.md R106). -/
def deserialized (t : Option HuffTree) (bits : Bits) (s : State) : State :=
  { s with
    nodes := preorderNodes t, root := preorderRoot t, tv := true, bv := true, cv := false,
    code := Vector.replicate 256 [], bitLen := BitVec.ofNat 64 bits.length,
    bitbuf := packBytes (ceil8 bits.length) bits }

theorem deserializeBody_of_parse {s : State} {t : Option HuffTree} {bits : Bits}
    (h : parseContainer s.inMem s.inLen.toNat s.cfg.bitbufCap =
      .ok ((blockOf t).length, preorderNodes t, BitVec.ofNat 64 bits.length, packBytes (ceil8 bits.length) bits)) :
    deserializeBody s = .done (deserialized t bits s) := by
  have hroot : (if (blockOf t).length = 0 then none else some 0 : Option NodeIndex) = preorderRoot t := by
    cases t with
    | none => rfl
    | some tree => exact if_neg (HuffTree.block_length_pos tree).ne'
  rw [deserializeBody, h, Body.ofExcept_ok]
  dsimp only
  rw [hroot]
  rfl

/-- DESERIALIZE's body on a container that BITBUF_CAP holds (44_container.md R106 to R110). -/
theorem deserializeBody_of_inputIs {s : State} {t : Option HuffTree} {bits : Bits} (hvalid : s.cfg.valid = true)
    (hin : inputIs s (containerOf t bits)) (hnodup : ∀ tree, t = some tree → tree.symbols.Nodup)
    (hempty : t = none → bits = []) (hcap : ceil8 bits.length ≤ s.cfg.bitbufCap) :
    deserializeBody s = .done (deserialized t bits s) :=
  deserializeBody_of_parse (parseContainer_containerOf hnodup hempty (bits_lt_of_valid hvalid hcap) hcap hin.1
    (bytesAt_of_inputIs hin))

/-- Settles O38: the body on a container, its arena in pre-order. -/
theorem deserializeRebuildsTreeAndBits : Obligations.DeserializeRebuildsTreeAndBits := by
  intro s t bits hvalid hin hnodup hempty hcap
  have hbody := deserializeBody_of_inputIs hvalid hin hnodup hempty hcap
  exact ⟨_, _, runCommand_of_done (precheck_readsIn (inLen_le_of_inputIs hin)) hbody,
    storesInPreorder_preorderNodes hnodup⟩

theorem storesBits_deserialized (t : Option HuffTree) {bits : Bits} (h : bits.length < 2 ^ 64) (s : State) :
    storesBits (deserialized t bits s) bits := ⟨Nat.mod_eq_of_lt h, rfl⟩

theorem storesTree_deserialized {t : Option HuffTree} (h : ∀ tree, t = some tree → tree.symbols.Nodup) (bits : Bits)
    (s : State) : storesTree (deserialized t bits s).nodes (deserialized t bits s).root t :=
  (storesInPreorder_preorderNodes h).1

/-- Every way DESERIALIZE's body can end: on a container with its tree and bits, or with an error that has a code and
clears the products; a fault says that a byte below IN_LEN is unwritten (44_container.md R106 to R112). -/
theorem deserializeBody_cases (s : State) :
    (∃ (t : Option HuffTree) (bits : Bits), deserializeBody s = .done (deserialized t bits s) ∧
      (∀ tree, t = some tree → tree.symbols.Nodup) ∧ (t = none → bits = []) ∧ bits.length < 2 ^ 64 ∧
      ceil8 bits.length ≤ s.cfg.bitbufCap ∧ s.inLen.toNat = (containerOf t bits).length ∧
      bytesAt s.inMem 0 (containerOf t bits)) ∨
    (∃ e, parseContainer s.inMem s.inLen.toNat s.cfg.bitbufCap = .error (.error e) ∧
      deserializeBody s = .raised e (invalidateAll s)) ∨
    (∃ x, deserializeBody s = .faulted (.inUnwritten x) ∧ x < s.inLen.toNat ∧ readByte s.inMem x = none) := by
  cases h : parseContainer s.inMem s.inLen.toNat s.cfg.bitbufCap with
  | ok r =>
    obtain ⟨len, nodes, b, bytes⟩ := r
    obtain ⟨t, bits, hnodup, hempty, hlt, hcap, rfl, rfl, rfl, rfl, hn, hbytes⟩ := parseContainer_eq_ok h
    exact .inl ⟨t, bits, deserializeBody_of_parse h, hnodup, hempty, hlt, hcap, hn, hbytes⟩
  | error e =>
    cases e with
    | error e => exact .inr (.inl ⟨e, rfl, by rw [deserializeBody, h, Body.ofExcept_error]⟩)
    | fault f =>
      obtain ⟨x, hx, hnone, rfl⟩ := parseContainer_fault h
      exact .inr (.inr ⟨x, by rw [deserializeBody, h, Body.ofExcept_fault], hx, hnone⟩)

/-- Bytes read from one place with one length are the same. -/
theorem eq_of_bytesAt {m : Memory} {a : Nat} {xs ys : List Byte} (hlen : xs.length = ys.length) (hx : bytesAt m a xs)
    (hy : bytesAt m a ys) : xs = ys := by
  refine List.ext_getElem? fun i => ?_
  by_cases hi : i < xs.length
  · rw [← hx i hi, hy i (hlen ▸ hi)]
  · rw [List.getElem?_eq_none (by omega), List.getElem?_eq_none (by omega)]

/-- Bytes that fit OUT stand in OUT[0..OUT_LEN) once written there. -/
theorem outputIs_of_writeBytes {s : State} {m : Memory} {bytes : List Byte} (hmem : s.outMem = writeBytes m 0 bytes)
    (hlen : s.outLen = BitVec.ofNat 64 bytes.length) (hlt : bytes.length < 2 ^ 64) : outputIs s bytes := by
  refine ⟨by rw [hlen]; exact Nat.mod_eq_of_lt hlt, fun a ha => ?_⟩
  rw [hmem]
  exact (wroteFromZero_writeBytes m bytes).1 a ha

/-- Settles O39: what was accepted is a container, and its tree and bits serialize to it. -/
theorem acceptedContainerIsReproduced : Obligations.AcceptedContainerIsReproduced := by
  intro s s1 c hvalid hin hfit herr hexec herr1
  have hrun : exec .deserialize s = finish (deserializeBody s) :=
    exec_eq_finish (i := .deserialize) (precheck_readsIn (inLen_le_of_inputIs hin))
  rw [hrun] at hexec
  rcases deserializeBody_cases s with ⟨t, bits, hbody, hnodup, _, hlt, _, hlen, hbytes⟩ | ⟨e, _, hbody⟩ | ⟨x, hbody, _⟩
  · rw [hbody] at hexec
    obtain rfl := Host.Outcome.next.inj hexec
    have hc : c = containerOf t bits :=
      eq_of_bytesAt (hin.1.symm.trans hlen) (bytesAt_of_inputIs hin) hbytes
    subst hc
    obtain ⟨_, _, hout, _⟩ := Config.valid_bounds hvalid
    exact ⟨_, exec_serialize_next rfl rfl (storesTree_deserialized hnodup bits s) (storesBits_deserialized t hlt s) hfit,
      rfl, herr, outputIs_of_writeBytes rfl rfl (by omega)⟩
  · rw [hbody] at hexec
    obtain rfl := Host.Outcome.next.inj hexec
    exact absurd herr1 nofun
  · rw [hbody] at hexec
    exact absurd hexec nofun

/-- With one byte of a container unwritten the parser stops there: whatever else it answered, it would answer with that byte
written, and what it accepts it has read in full. -/
theorem parseContainer_unwritten {m : Memory} {t : Option HuffTree} {bits : Bits} {n cap a : Nat}
    (hnodup : ∀ tree, t = some tree → tree.symbols.Nodup) (hempty : t = none → bits = []) (hlt : bits.length < 2 ^ 64)
    (hcap : ceil8 bits.length ≤ cap) (hn : n = (containerOf t bits).length) (ha : a < (containerOf t bits).length)
    (hnone : readByte m a = none)
    (hbytes : ∀ b, b < (containerOf t bits).length → b ≠ a → readByte m b = (containerOf t bits)[b]?) :
    parseContainer m n cap = .error (.fault (.inUnwritten a)) := by
  have hfills : fillsAt a m (writeByte m a (containerOf t bits)[a]) :=
    ⟨hnone, fun x hx => readByte_writeByte_other _ _ hx⟩
  have hwritten : bytesAt (writeByte m a (containerOf t bits)[a]) 0 (containerOf t bits) := by
    intro i hi
    rw [Nat.zero_add]
    by_cases hia : i = a
    · subst hia
      rw [readByte_writeByte_same, List.getElem?_eq_getElem hi]
    · rw [readByte_writeByte_other _ _ hia, hbytes i hi hia]
  rcases parseContainer_stopsAtOr hfills n cap with h | h
  · exact h
  · rw [parseContainer_containerOf hnodup hempty hlt hcap hn hwritten] at h
    obtain ⟨_, _, _, _, _, _, _, _, _, _, hlen, hread⟩ := parseContainer_eq_ok h
    exact absurd hnone (readByte_ne_none_of_bytesAt hread (by omega))

end Sys2Proof.Machine

/-! SUPPORT. Malformed containers (44_container.md R107 to R109, R112): the error of the first failing check. -/

namespace Sys2Proof.Machine

open Sys2Proof

/-! ## The tree length -/

theorem length_lt_of_inputIs {s : State} {bytes : List Byte} (h : inputIs s bytes) : bytes.length < 2 ^ 64 :=
  h.1 ▸ s.inLen.isLt

/-- Fewer than 8 bytes (44_container.md R107 SHORT_HEADER). -/
theorem rejected_shortHeader {s : State} {bytes : List Byte} (hin : inputIs s bytes) (hlen : bytes.length < 8) :
    containerRejected s .corruptContainer 1 0 := by
  refine containerRejected_of_parse (inLen_le_of_inputIs hin) ?_
  rw [parseContainer, parseTreeLength, hin.1, if_pos hlen]
  rfl

/-- A tree length above what follows it (44_container.md R107 SHORT_TREE). -/
theorem rejected_shortTree {s : State} {t : Word} {rest : List Byte} (hin : inputIs s (be64Bytes t ++ rest))
    (hlen : rest.length < t.toNat) : containerRejected s .corruptContainer 2 0 := by
  refine containerRejected_of_parse (inLen_le_of_inputIs hin) ?_
  have hread := memRead64_eq_ok_iff.mpr (bytesAt_append.mp (bytesAt_of_inputIs hin)).1
  have hn : (be64Bytes t ++ rest).length = 8 + rest.length := by rw [List.length_append, be64Bytes_length]
  rw [parseContainer, parseTreeLength, hin.1, hn, if_neg (by omega), hread]
  dsimp only
  rw [if_pos (by omega)]
  rfl

/-! ## The records -/

section
variable {s : State} {block rest : List Byte} (hin : inputIs s (withTreeBlock block rest))
include hin

theorem block_length_lt : block.length < 2 ^ 64 := by
  have := length_lt_of_inputIs hin
  rw [withTreeBlock_length] at this
  omega

/-- An error in the tree block rejects the container. -/
theorem rejected_of_parseTree {d : CorruptDetail} {info : Nat}
    (h : parseTree s.inMem block.length = .error (.error (corruptError d info))) :
    containerRejected s .corruptContainer d.number info := by
  refine containerRejected_of_parse (inLen_le_of_inputIs hin) ?_
  rw [hin.1]
  obtain ⟨htree, _⟩ := parseContainer_withTreeBlock s.cfg.bitbufCap (withTreeBlock_length block rest)
    (block_length_lt hin) (bytesAt_of_inputIs hin)
  exact htree _ h

/-- An error after a complete tree block rejects the container. -/
theorem rejected_of_parseBits {nodes : List Node} {e : CmdError} {info : Nat}
    (htree : parseTree s.inMem block.length = .ok nodes)
    (h : parseBits s.inMem (8 + block.length + rest.length) block.length s.cfg.bitbufCap = .error (.error e))
    (hinfo : e.info = BitVec.ofNat 64 info) : containerRejected s e.code e.detail info := by
  refine containerRejected_of_parse (inLen_le_of_inputIs hin) ?_
  rw [hin.1, withTreeBlock_length, ← hinfo]
  obtain ⟨_, hok⟩ := parseContainer_withTreeBlock s.cfg.bitbufCap rfl (block_length_lt hin) (bytesAt_of_inputIs hin)
  exact (hok nodes htree).1 _ h

end

/-- After records read without an error and with slots pending, the next round's error is the tree block's. -/
theorem parseTree_error_of_round {m : Memory} {rs : List TreeRecord} {k len : Nat} {e : Stop} (hrs : readsRecords rs (k + 1))
    (hbytes : bytesAt m 8 (rs.flatMap TreeRecord.bytes)) (hfit : posAfter rs ≤ 8 + len) (hlen : len ≠ 0)
    (hround : readRecord m (8 + len) (posAfter rs) rs.length (seenSymbols rs).reverse = .error e) :
    parseTree m len = .error e := by
  obtain ⟨hslots, hnodes⟩ := storeRecords_length rs [.root] [] hrs.1
  rw [List.length_nil, Nat.zero_add] at hnodes
  obtain ⟨slot, stack, hstack⟩ := List.exists_cons_of_length_eq_add_one hslots
  have hcount := hrs.2.2
  rw [parseTree, if_neg hlen, parseRecords_start hrs hbytes hfit, hstack,
    show Config.maxNodes + 1 - rs.length = (Config.maxNodes - rs.length) + 1 by omega, parseRecords_succ, hnodes, hround]

/-- Bytes of the block after a complete tree (44_container.md R108 TREE_TRAILING). -/
theorem parseTree_trailing {m : Memory} {rs : List TreeRecord} {len : Nat} (hrs : readsRecords rs 0)
    (hbytes : bytesAt m 8 (rs.flatMap TreeRecord.bytes)) (hfit : posAfter rs < 8 + len) (hlen : len ≠ 0) :
    parseTree m len = .error (.error (corruptError .treeTrailing (posAfter rs))) := by
  obtain ⟨hslots, _⟩ := storeRecords_length rs [.root] [] hrs.1
  rw [parseTree, if_neg hlen, parseRecords_start hrs hbytes hfit.le, List.length_eq_zero_iff.mp hslots]
  simp only [parseRecords, ne_eq, hfit.ne, not_false_eq_true, if_true]

/-- Where the records and the tail of a tree block stand. -/
theorem bytesAt_records_tail {s : State} {rs : List TreeRecord} {tail rest : List Byte}
    (hin : inputIs s (withTreeBlock (rs.flatMap TreeRecord.bytes ++ tail) rest)) :
    bytesAt s.inMem 8 (rs.flatMap TreeRecord.bytes) ∧ bytesAt s.inMem (posAfter rs) tail ∧
      8 + (rs.flatMap TreeRecord.bytes ++ tail).length = posAfter rs + tail.length := by
  obtain ⟨_, hblock, _⟩ := bytesAt_withTreeBlock.mp (bytesAt_of_inputIs hin)
  obtain ⟨hrecords, htail⟩ := bytesAt_append.mp hblock
  exact ⟨hrecords, htail, by rw [List.length_append, ← Nat.add_assoc]; rfl⟩

theorem records_length_pos {rs : List TreeRecord} (h : rs ≠ []) : 0 < (rs.flatMap TreeRecord.bytes).length := by
  obtain ⟨r, rs, rfl⟩ := List.exists_cons_of_ne_nil h
  rw [List.flatMap_cons, List.length_append, TreeRecord.bytes_length]
  split <;> omega

/-- The four checks of a round with slots pending (44_container.md R108). -/
theorem rejected_of_round {s : State} {rs : List TreeRecord} {k : Nat} {tail rest : List Byte} {d : CorruptDetail}
    {info : Nat} (hrs : readsRecords rs (k + 1)) (hne : rs ≠ [] ∨ tail ≠ [])
    (hin : inputIs s (withTreeBlock (rs.flatMap TreeRecord.bytes ++ tail) rest))
    (hround : readRecord s.inMem (posAfter rs + tail.length) (posAfter rs) rs.length (seenSymbols rs).reverse =
      .error (.error (corruptError d info))) : containerRejected s .corruptContainer d.number info := by
  obtain ⟨hrecords, _, hend⟩ := bytesAt_records_tail hin
  refine rejected_of_parseTree hin (parseTree_error_of_round hrs hrecords (by omega) ?_ (by rwa [hend]))
  rw [List.length_append]
  rcases hne with hne | hne
  · have := records_length_pos hne
    omega
  · have := List.length_pos_iff.mpr hne
    omega

/-- With slots pending: the end of the block, a tag above 1, a record that does not fit, a 512th record, and a leaf of a
symbol seen (44_container.md R108). -/
theorem rejected_records {s : State} {rs : List TreeRecord} {k : Nat} {tail rest : List Byte} (hrs : readsRecords rs (k + 1))
    (hin : inputIs s (withTreeBlock (rs.flatMap TreeRecord.bytes ++ tail) rest)) :
    (tail = [] → rs ≠ [] → containerRejected s .corruptContainer 3 (posAfter rs)) ∧
    (∀ tag more, tail = tag :: more →
      (1 < tag.toNat → containerRejected s .corruptContainer 4 (posAfter rs)) ∧
      (tag.toNat ≤ 1 → tail.length < sizeOfTag tag → containerRejected s .corruptContainer 3 (posAfter rs)) ∧
      (tag.toNat ≤ 1 → sizeOfTag tag ≤ tail.length → rs.length = 511 →
        containerRejected s .corruptContainer 5 (posAfter rs))) ∧
    (∀ w sym more, tail = TreeRecord.bytes { weight := w, symbol := some sym } ++ more → rs.length < 511 →
      sym ∈ seenSymbols rs → containerRejected s .corruptContainer 6 (posAfter rs + 9)) := by
  obtain ⟨_, htail, _⟩ := bytesAt_records_tail hin
  refine ⟨?_, ?_, ?_⟩
  · rintro rfl hne
    exact rejected_of_round hrs (.inl hne) hin (readRecord_at_end _ _ _ _)
  · rintro tag more rfl
    obtain ⟨htag, _⟩ := bytesAt_cons.mp htail
    have hpos : posAfter rs < posAfter rs + (tag :: more).length := by rw [List.length_cons]; omega
    have hne : rs ≠ [] ∨ tag :: more ≠ [] := .inr (List.cons_ne_nil _ _)
    refine ⟨fun hbad => ?_, fun hle hlt => ?_, fun hle hfit hcount => ?_⟩
    · exact rejected_of_round hrs hne hin (readRecord_badTag hpos htag hbad)
    · exact rejected_of_round hrs hne hin (readRecord_overrun hpos htag hle (by omega))
    · refine rejected_of_round (d := .nodeLimit) hrs hne hin ?_
      rw [hcount]
      exact readRecord_nodeLimit hpos htag hle (by omega)
  · rintro w sym more rfl hcount hseen
    obtain ⟨hbytes, _⟩ := bytesAt_append.mp htail
    refine rejected_of_round (d := .dupSymbol) hrs (.inr (by simp [TreeRecord.bytes])) hin ?_
    refine readRecord_dupSymbol hbytes ?_ ?_ (List.mem_reverse.mpr hseen)
    · simp only [List.length_append, TreeRecord.bytes_length, Option.isSome_some, if_true]
      omega
    · rw [Config.maxNodes]
      exact hcount.ne

/-- With no slot pending: bytes left in the block (44_container.md R108). -/
theorem rejected_treeTrailing {s : State} {rs : List TreeRecord} {tail rest : List Byte} (hrs : readsRecords rs 0)
    (hne : tail ≠ []) (hin : inputIs s (withTreeBlock (rs.flatMap TreeRecord.bytes ++ tail) rest)) :
    containerRejected s .corruptContainer 7 (posAfter rs) := by
  obtain ⟨hrecords, _, hend⟩ := bytesAt_records_tail hin
  have hpos := List.length_pos_iff.mpr hne
  refine rejected_of_parseTree hin (parseTree_trailing hrs hrecords (by omega) ?_)
  rw [List.length_append]
  omega

/-! ## The bit length and the packed bits -/

section
variable {s : State} {t : Option HuffTree} (hnodup : ∀ tree, t = some tree → tree.symbols.Nodup)
include hnodup

/-- After a complete tree block: fewer than 8 bytes (44_container.md R109 SHORT_BITLEN). -/
theorem rejected_shortBitlen {rest : List Byte} (hin : inputIs s (withTreeBlock (blockOf t) rest))
    (hlen : rest.length < 8) : containerRejected s .corruptContainer 8 (8 + (blockOf t).length) := by
  have htree := parseTree_blockOf hnodup (bytesAt_withTreeBlock.mp (bytesAt_of_inputIs hin)).2.1
  refine rejected_of_parseBits hin (e := corruptError .shortBitlen (8 + (blockOf t).length)) htree ?_ rfl
  rw [parseBits, if_pos (by omega)]

/-- After a complete tree block and a bit length: an error of the checks of 44_container.md R109 rejects the container. -/
theorem rejected_of_bitLength {b : Word} {packed : List Byte} {e : CmdError} {info : Nat}
    (hin : inputIs s (withTreeBlock (blockOf t) (be64Bytes b ++ packed)))
    (h : ∀ n, n = 16 + (blockOf t).length + packed.length → bytesAt s.inMem (8 + (blockOf t).length) (be64Bytes b) →
      bytesAt s.inMem (16 + (blockOf t).length) packed →
      parseBits s.inMem n (blockOf t).length s.cfg.bitbufCap = .error (.error e))
    (hinfo : e.info = BitVec.ofNat 64 info) : containerRejected s e.code e.detail info := by
  obtain ⟨_, hblock, hrest⟩ := bytesAt_withTreeBlock.mp (bytesAt_of_inputIs hin)
  obtain ⟨hlength, hpacked⟩ := bytesAt_append.mp hrest
  rw [be64Bytes_length, show 8 + (blockOf t).length + 8 = 16 + (blockOf t).length by omega] at hpacked
  refine rejected_of_parseBits hin (parseTree_blockOf hnodup hblock) (h _ ?_ hlength hpacked) hinfo
  rw [List.length_append, be64Bytes_length]
  omega

/-- The empty tree with a bit length above 0 (44_container.md R109 EMPTY_TREE_BITS). -/
theorem rejected_emptyTreeBits {b : Word} {packed : List Byte}
    (hin : inputIs s (withTreeBlock (blockOf t) (be64Bytes b ++ packed))) (ht : t = none) (hb : b ≠ 0) :
    containerRejected s .corruptContainer 9 (8 + (blockOf t).length) := by
  refine rejected_of_bitLength hnodup hin (e := corruptError .emptyTreeBits (8 + (blockOf t).length)) ?_ rfl
  intro n hn hlength _
  rw [parseBits, if_neg (by omega), memRead64_eq_ok_iff.mpr hlength]
  exact if_pos ⟨blockOf_length_eq_zero_iff.mpr ht, hb⟩

/-- The checks of the packed bits: too few, too many, padding not 0, more than BITBUF_CAP (44_container.md R109). -/
theorem rejected_packedBits {b : Word} {packed : List Byte}
    (hin : inputIs s (withTreeBlock (blockOf t) (be64Bytes b ++ packed))) (hb : t = none → b = 0) :
    (packed.length < ceil8 b.toNat → containerRejected s .corruptContainer 10 (8 + (blockOf t).length)) ∧
    (ceil8 b.toNat < packed.length →
      containerRejected s .corruptContainer 11 (16 + (blockOf t).length + ceil8 b.toNat)) ∧
    (∀ last, packed.length = ceil8 b.toNat → packed.getLast? = some last →
      last.toNat % 2 ^ (8 - b.toNat % 8) ≠ 0 → b.toNat % 8 ≠ 0 →
      containerRejected s .corruptContainer 12 (15 + (blockOf t).length + ceil8 b.toNat)) ∧
    (∀ bits, b.toNat = bits.length → packed = packBytes (ceil8 bits.length) bits →
      s.cfg.bitbufCap < ceil8 bits.length → containerRejected s .bitbufOverflow 0 (ceil8 bits.length)) := by
  have hempty : ¬ ((blockOf t).length = 0 ∧ b ≠ 0) := fun h => h.2 (hb (blockOf_length_eq_zero_iff.mp h.1))
  refine ⟨fun hfew => ?_, fun hmany => ?_, fun last hlen hlast hpad hne => ?_, fun bits hbits hpacked hover => ?_⟩
  · refine rejected_of_bitLength hnodup hin (e := corruptError .shortBits (8 + (blockOf t).length)) ?_ rfl
    intro n hn hlength _
    rw [parseBits, if_neg (by omega), memRead64_eq_ok_iff.mpr hlength]
    exact (if_neg hempty).trans (if_pos (by omega))
  · refine rejected_of_bitLength hnodup hin
      (e := corruptError .trailingBytes (16 + (blockOf t).length + ceil8 b.toNat)) ?_ rfl
    intro n hn hlength _
    rw [parseBits, if_neg (by omega), memRead64_eq_ok_iff.mpr hlength]
    exact (if_neg hempty).trans ((if_neg (by omega)).trans (if_pos (by omega)))
  · refine rejected_of_bitLength hnodup hin
      (e := corruptError .padNonzero (16 + (blockOf t).length + ceil8 b.toNat - 1)) ?_ (by
        rw [show 15 + (blockOf t).length + ceil8 b.toNat = 16 + (blockOf t).length + ceil8 b.toNat - 1 by omega]
        rfl)
    intro n hn hlength hat
    have hbounds := ceil8_bounds b.toNat
    have hread : memRead s.inMem (16 + (blockOf t).length + ceil8 b.toNat - 1) = .ok last := by
      rw [memRead_eq_ok_iff, Nat.add_sub_assoc (by omega), hat _ (by omega), ← hlast, List.getLast?_eq_getElem?, hlen]
    have hpadding : parsePadding s.inMem (16 + (blockOf t).length) b.toNat =
        .error (.error (corruptError .padNonzero (16 + (blockOf t).length + ceil8 b.toNat - 1))) := by
      rw [parsePadding, if_neg hne, hread]
      exact if_pos hpad
    rw [parseBits, if_neg (by omega), memRead64_eq_ok_iff.mpr hlength]
    dsimp only
    rw [if_neg hempty, if_neg (by omega), if_neg (by omega), hpadding]
  · refine rejected_of_bitLength hnodup hin (e := plainError .bitbufOverflow (ceil8 bits.length)) ?_ rfl
    intro n hn hlength hat
    have hlen : packed.length = ceil8 b.toNat := by rw [hpacked, packBytes_length, hbits]
    have hclear : paddingClear b.toNat packed := by
      rw [hbits, hpacked]
      exact paddingClear_packBytes bits
    rw [parseBits, if_neg (by omega), memRead64_eq_ok_iff.mpr hlength]
    dsimp only
    rw [if_neg hempty, if_neg (by omega), if_neg (by omega), (parsePadding_eq_ok_iff hlen hat).mpr hclear]
    dsimp only
    rw [if_pos (by rwa [hbits]), hbits]

end

/-! ## Truncated containers -/

/-- A proper beginning of a container ends in its header, its tree block, its bit length or its packed bits
(44_container.md R112). -/
theorem rejected_truncated {s : State} {t : Option HuffTree} {bits : Bits} {m : Nat}
    (hnodup : ∀ tree, t = some tree → tree.symbols.Nodup) (hempty : t = none → bits = []) (hlt : bits.length < 2 ^ 64)
    (hm : m < (containerOf t bits).length) (hin : inputIs s ((containerOf t bits).take m)) :
    containerRejected s .corruptContainer
      (if m < 8 then 1 else if m < 8 + (blockOf t).length then 2 else if m < 16 + (blockOf t).length then 8 else 10)
      (if m < 8 + (blockOf t).length then 0 else 8 + (blockOf t).length) := by
  have hblock := blockOf_length_le hnodup
  have hnat : (BitVec.ofNat 64 (blockOf t).length).toNat = (blockOf t).length := Nat.mod_eq_of_lt (by omega)
  have hbits : (BitVec.ofNat 64 bits.length).toNat = bits.length := Nat.mod_eq_of_lt hlt
  rw [containerOf_length] at hm
  rw [containerOf_eq_withTreeBlock] at hin
  by_cases h8 : m < 8
  · rw [if_pos h8, if_pos (by omega)]
    exact rejected_shortHeader hin (by rw [List.length_take]; omega)
  rw [if_neg h8]
  by_cases htree : m < 8 + (blockOf t).length
  · rw [if_pos htree, if_pos htree]
    rw [withTreeBlock, List.append_assoc, List.take_append, List.take_of_length_le (by rw [be64Bytes_length]; omega),
      be64Bytes_length] at hin
    exact rejected_shortTree hin (by rw [hnat, List.length_take]; omega)
  rw [if_neg htree, if_neg htree]
  have hhead : (be64Bytes (BitVec.ofNat 64 (blockOf t).length) ++ blockOf t).length = 8 + (blockOf t).length := by
    rw [List.length_append, be64Bytes_length]
  rw [withTreeBlock, List.take_append, List.take_of_length_le (by omega), hhead] at hin
  by_cases hlength : m < 16 + (blockOf t).length
  · rw [if_pos hlength]
    exact rejected_shortBitlen hnodup hin (by rw [List.length_take]; omega)
  · rw [if_neg hlength]
    rw [List.take_append, List.take_of_length_le (by rw [be64Bytes_length]; omega), be64Bytes_length] at hin
    have hzero : t = none → BitVec.ofNat 64 bits.length = 0 := fun ht => by rw [hempty ht]; rfl
    exact (rejected_packedBits hnodup hin hzero).1 (by rw [hbits, List.length_take]; omega)

/-- Settles O40: the truncations by where they end, then the checks in their order. -/
theorem truncatedContainerIsRejected : Obligations.TruncatedContainerIsRejected :=
  ⟨fun _ _ _ _ => rejected_truncated, fun _ _ => rejected_shortHeader, fun _ _ _ => rejected_shortTree,
    fun _ _ _ _ _ => rejected_records, fun _ _ _ _ => rejected_treeTrailing,
    fun _ _ _ hnodup hin => ⟨rejected_shortBitlen hnodup hin, by
      rintro b packed rfl
      exact ⟨rejected_emptyTreeBits hnodup hin, rejected_packedBits hnodup hin⟩⟩⟩

end Sys2Proof.Machine

/-! SUPPORT. DECODE's walk of a stored tree (43_bitstream.md R98 to R103): the way down by bits, whole codes, and every way
the walk can end; and UNCOMPRESS, which is a DESERIALIZE and this walk. -/

namespace Sys2Proof.Machine

open Sys2Proof

/-! ## The way down a tree -/

/-- The subtree that bits lead to: 0 is left, 1 is right (43_bitstream.md R99). -/
def descend : HuffTree → Bits → Option HuffTree
  | t, [] => some t
  | .leaf _ _, _ :: _ => none
  | .node _ l r, b :: p => descend (if b then r else l) p

@[simp] theorem descend_nil (t : HuffTree) : descend t [] = some t := by cases t <;> rfl

theorem descend_append (p q : Bits) : ∀ t, descend t (p ++ q) = (descend t p).bind (descend · q) := by
  induction p with
  | nil => intro t; simp
  | cons b p ih =>
    intro t
    cases t with
    | leaf w sym => rfl
    | node w l r => exact ih _

/-- A leaf's path leads to it (42_code_table.md R89). -/
theorem descend_of_mem_paths {t : HuffTree} : ∀ {p : Bits} {v : Byte × Bits}, v ∈ t.paths p →
    ∃ q w, v.2 = p ++ q ∧ descend t q = some (.leaf w v.1) := by
  induction t with
  | leaf w sym =>
    intro p v hv
    obtain rfl := List.mem_singleton.mp hv
    exact ⟨[], w, (List.append_nil p).symm, rfl⟩
  | node w l r ihl ihr =>
    intro p v hv
    rcases List.mem_append.mp hv with hv | hv
    · obtain ⟨q, w', hq, hleaf⟩ := ihl hv
      exact ⟨false :: q, w', by rw [hq, List.append_assoc]; rfl, hleaf⟩
    · obtain ⟨q, w', hq, hleaf⟩ := ihr hv
      exact ⟨true :: q, w', by rw [hq, List.append_assoc]; rfl, hleaf⟩

/-- A code of a tree with an internal root leads to its leaf. -/
theorem descend_codeFor {w : Word} {l r : HuffTree} {sym : Byte} (h : sym ∈ (HuffTree.node w l r).symbols) :
    ∃ w', descend (.node w l r) ((HuffTree.node w l r).codeFor sym) = some (.leaf w' sym) := by
  obtain ⟨q, w', hq, hleaf⟩ := descend_of_mem_paths (HuffTree.mem_codes_of_mem_symbols h)
  rw [List.nil_append] at hq
  rw [← hq] at hleaf
  exact ⟨w', hleaf⟩

/-- Bits that end inside a code lead to an internal node. -/
theorem descend_of_proper_start {t : HuffTree} {p q : Bits} {w : Word} {sym : Byte}
    (h : descend t q = some (.leaf w sym)) (hp : p <+: q) (hne : p ≠ q) :
    ∃ w' l r, descend t p = some (.node w' l r) := by
  obtain ⟨rest, rfl⟩ := hp
  rw [descend_append, Option.bind_eq_some_iff] at h
  obtain ⟨u, hu, hrest⟩ := h
  cases u with
  | node w' l r => exact ⟨w', l, r, hu⟩
  | leaf w' s =>
    cases rest with
    | nil => exact absurd (List.append_nil p).symm hne
    | cons b rest => exact absurd hrest nofun

/-- The child of a held internal node that a bit leads to. -/
theorem holdsAt_child {nodes : List Node} {i : Nat} {w : Word} {l r : HuffTree} (h : holdsAt nodes i (.node w l r))
    (b : Bool) : ∃ x y : NodeIndex, nodes[i]? = some (.internal w x y) ∧
      holdsAt nodes (if b then y else x).toNat (if b then r else l) ∧
      indicesOf nodes i (.node w l r) = i :: (indicesOf nodes x.toNat l ++ indicesOf nodes y.toNat r) := by
  obtain ⟨x, y, hi, hl, hr⟩ := h
  refine ⟨x, y, hi, ?_, by simp only [indicesOf, hi]⟩
  cases b
  · exact hl
  · exact hr

theorem mem_indicesOf_root {nodes : List Node} {i : Nat} {t : HuffTree} (h : holdsAt nodes i t) :
    i ∈ indicesOf nodes i t := by
  cases t with
  | leaf w sym => exact List.mem_singleton_self i
  | node w l r =>
    obtain ⟨x, y, _, _, hind⟩ := holdsAt_child h true
    rw [hind]
    exact List.mem_cons_self

/-- The walk goes down along bits that lead to an internal node, and meets no leaf on the way (43_bitstream.md R99). -/
theorem decodeWalk_descend {nodes : List Node} {root cap : Nat} {w' : Word} {l' r' : HuffTree} (p : Bits) :
    ∀ {t : HuffTree} {cur : Nat}, holdsAt nodes cur t → descend t p = some (.node w' l' r') →
    ∃ stop ∈ indicesOf nodes cur t, holdsAt nodes stop (.node w' l' r') ∧
      (p ≠ [] → (indicesOf nodes cur t).Nodup → stop ≠ cur) ∧
      ∀ rest i k, decodeWalk nodes root cap (p ++ rest) i k cur = decodeWalk nodes root cap rest (i + p.length) k stop := by
  induction p with
  | nil =>
    intro t cur hcur h
    rw [descend_nil] at h
    obtain rfl := Option.some.inj h
    exact ⟨cur, mem_indicesOf_root hcur, hcur, fun hne => absurd rfl hne, fun _ _ _ => rfl⟩
  | cons b p ih =>
    intro t cur hcur h
    cases t with
    | leaf w sym => exact absurd h nofun
    | node w l r =>
      obtain ⟨x, y, hi, hchild, hind⟩ := holdsAt_child hcur b
      replace h : descend (if b then r else l) p = some (.node w' l' r') := h
      obtain ⟨stop, hmem, hstop, _, hwalk⟩ := ih hchild h
      have hbelow : stop ∈ indicesOf nodes x.toNat l ++ indicesOf nodes y.toNat r := by
        rw [List.mem_append]
        cases b
        · exact .inl hmem
        · exact .inr hmem
      rw [hind]
      refine ⟨stop, List.mem_cons_of_mem _ hbelow, hstop, fun _ hnodup => ?_, fun rest i k => ?_⟩
      · rintro rfl
        exact (List.nodup_cons.mp hnodup).1 hbelow
      · have hinternal : ∃ w₁ x₁ y₁, nodes[(if b then y else x).toNat]? = some (.internal w₁ x₁ y₁) := by
          generalize (if b then r else l) = child at hchild h
          cases child with
          | leaf w₁ sym =>
            cases p with
            | nil => exact absurd (Option.some.inj h) nofun
            | cons b p => exact absurd h nofun
          | node w₁ l₁ r₁ =>
            obtain ⟨x₁, y₁, hget, _⟩ := hchild
            exact ⟨w₁, x₁, y₁, hget⟩
        obtain ⟨w₁, x₁, y₁, hget⟩ := hinternal
        rw [List.cons_append, decodeWalk, hi]
        simp only [hget]
        rw [hwalk, List.length_cons, Nat.add_right_comm, Nat.add_assoc]

/-- The walk emits a leaf's symbol at the last bit of its code and goes back to the root, or has no room for it
(43_bitstream.md R98). -/
theorem decodeWalk_code {nodes : List Node} {root cap : Nat} {w' : Word} {sym : Byte} (q : Bits) :
    ∀ {w : Word} {l r : HuffTree} {cur : Nat}, holdsAt nodes cur (.node w l r) →
    descend (.node w l r) q = some (.leaf w' sym) → ∀ rest i k,
    decodeWalk nodes root cap (q ++ rest) i k cur =
      if k = cap then .error (.error (plainError .outOverflow (i + q.length - 1)))
      else (decodeWalk nodes root cap rest (i + q.length) (k + 1) root).map (sym :: ·) := by
  induction q with
  | nil => intro w l r cur _ h; exact absurd h nofun
  | cons b q ih =>
    intro w l r cur hcur h rest i k
    obtain ⟨x, y, hi, hchild, _⟩ := holdsAt_child hcur b
    have hlast : i + (b :: q).length - 1 = i + q.length := by rw [List.length_cons]; omega
    have hnext : i + (b :: q).length = i + 1 + q.length := by rw [List.length_cons]; omega
    replace h : descend (if b then r else l) q = some (.leaf w' sym) := h
    rw [List.cons_append, decodeWalk, hi, hlast, hnext]
    dsimp only
    generalize (if b then r else l) = child at hchild h
    cases child with
    | leaf w₁ s =>
      rw [holdsAt] at hchild
      simp only [hchild]
      cases q with
      | cons b' q => exact absurd h nofun
      | nil =>
        rw [descend_nil] at h
        obtain ⟨_, rfl⟩ := HuffTree.leaf.inj (Option.some.inj h)
        split
        · rfl
        · rw [List.nil_append, List.length_nil, Nat.add_zero]
          cases decodeWalk nodes root cap rest (i + 1) (k + 1) root <;> rfl
    | node w₁ l₁ r₁ =>
      have hdown := ih hchild h rest (i + 1) k
      obtain ⟨x₁, y₁, hget, _⟩ := hchild
      simp only [hget]
      rw [hdown, show i + 1 + q.length - 1 = i + q.length by omega]

/-! ## Whole codes under any root -/

/-- The walk of DECODE over a tree held at `root`: that of R101 under a Leaf root, else that of R99. -/
def walkOf (nodes : List Node) (root cap : Nat) : HuffTree → Bits → Nat → Nat → Except Stop (List Byte)
  | .leaf _ sym, bits, i, k => decodeLeafRoot sym cap bits i k
  | .node _ _ _, bits, i, k => decodeWalk nodes root cap bits i k root

/-- DECODE walks the stored bits over the stored tree. -/
theorem decodeSymbols_eq_walkOf {s : State} {r : NodeIndex} {t : HuffTree} {bits : Bits} (hroot : s.root = some r)
    (hholds : holdsAt s.nodes r.toNat t) (hbits : storesBits s bits) :
    decodeSymbols s = walkOf s.nodes r.toNat s.cfg.outCap t bits 0 0 := by
  cases t with
  | leaf w sym =>
    rw [holdsAt] at hholds
    simp only [decodeSymbols, hroot, hholds, unpackBits_of_storesBits hbits, walkOf]
  | node w l r =>
    obtain ⟨x, y, hget, _⟩ := hholds
    simp only [decodeSymbols, hroot, hget, unpackBits_of_storesBits hbits, walkOf]

/-- One code is one symbol, where there is room for it. -/
theorem walkOf_code {nodes : List Node} {root cap : Nat} {t : HuffTree} {sym : Byte} (hholds : holdsAt nodes root t)
    (hsym : sym ∈ t.symbols) (rest : Bits) (i k : Nat) :
    walkOf nodes root cap t (t.codeFor sym ++ rest) i k =
      if k = cap then .error (.error (plainError .outOverflow (i + (t.codeFor sym).length - 1)))
      else (walkOf nodes root cap t rest (i + (t.codeFor sym).length) (k + 1)).map (sym :: ·) := by
  cases t with
  | leaf w s =>
    obtain rfl := List.mem_singleton.mp hsym
    have hcode : (HuffTree.leaf w sym).codeFor sym = [false] := by simp [HuffTree.codeFor, HuffTree.codes]
    rw [hcode, walkOf, List.singleton_append, decodeLeafRoot]
    split
    · rfl
    · rw [walkOf, List.length_singleton]
      cases decodeLeafRoot sym cap rest (i + 1) (k + 1) <;> rfl
  | node w l r =>
    obtain ⟨w', hleaf⟩ := descend_codeFor hsym
    exact decodeWalk_code _ hholds hleaf rest i k

/-- The codes of symbols that fit are those symbols, before what the bits after them are (43_bitstream.md R98). -/
theorem walkOf_encoded {nodes : List Node} {root cap : Nat} {t : HuffTree} (hholds : holdsAt nodes root t) (rest : Bits)
    (v : List Byte) : ∀ (i k : Nat), (∀ sym ∈ v, sym ∈ t.symbols) → k + v.length ≤ cap →
    walkOf nodes root cap t (t.encoded v ++ rest) i k =
      (walkOf nodes root cap t rest (i + (t.encoded v).length) (k + v.length)).map (v ++ ·) := by
  induction v with
  | nil =>
    intro i k _ _
    have hnil : t.encoded [] = [] := rfl
    rw [hnil, List.nil_append, List.length_nil, Nat.add_zero, List.length_nil, Nat.add_zero]
    cases walkOf nodes root cap t rest i k <;> rfl
  | cons sym v ih =>
    intro i k hsym hcap
    rw [List.forall_mem_cons] at hsym
    rw [List.length_cons] at hcap
    have hcons : t.encoded (sym :: v) = t.codeFor sym ++ t.encoded v := List.flatMap_cons
    rw [hcons, List.append_assoc, walkOf_code hholds hsym.1, if_neg (by omega), ih _ _ hsym.2 (by omega),
      List.length_append, List.length_cons, ← Nat.add_assoc i, show k + 1 + v.length = k + (v.length + 1) by omega]
    cases walkOf nodes root cap t rest (i + (t.codeFor sym).length + (t.encoded v).length) (k + (v.length + 1)) <;> rfl

@[simp] theorem walkOf_nil (nodes : List Node) (root cap : Nat) (t : HuffTree) (i k : Nat) :
    walkOf nodes root cap t [] i k = .ok [] := by
  cases t with
  | leaf w sym => rfl
  | node w l r => exact if_neg (not_not_intro rfl)

/-! ## What DECODE's walk answers -/

section
variable {s : State} {t : HuffTree} (hstore : storesTree s.nodes s.root (some t))
include hstore

/-- An encoding decodes to its input (43_bitstream.md R103). -/
theorem decodeSymbols_encoded {v : List Byte} (hsym : ∀ sym ∈ v, sym ∈ t.symbols) (hbits : storesBits s (t.encoded v))
    (hcap : v.length ≤ s.cfg.outCap) : decodeSymbols s = .ok v := by
  obtain ⟨r, hroot, hholds, _⟩ := hstore
  rw [decodeSymbols_eq_walkOf hroot hholds hbits, ← List.append_nil (t.encoded v),
    walkOf_encoded hholds [] v 0 0 hsym (by omega), walkOf_nil]
  simp [Except.map]

/-- One code more than OUT_CAP symbols is OUT_OVERFLOW at the code's last bit (60_exceptions.md R134). -/
theorem decodeSymbols_overflow {v : List Byte} {sym : Byte} {rest : Bits} (hv : ∀ x ∈ v, x ∈ t.symbols)
    (hsym : sym ∈ t.symbols) (hcap : v.length = s.cfg.outCap)
    (hbits : storesBits s (t.encoded v ++ t.codeFor sym ++ rest)) :
    decodeSymbols s =
      .error (.error (plainError .outOverflow ((t.encoded v ++ t.codeFor sym).length - 1))) := by
  obtain ⟨r, hroot, hholds, _⟩ := hstore
  rw [decodeSymbols_eq_walkOf hroot hholds hbits, List.append_assoc, walkOf_encoded hholds _ v 0 0 hv (by omega),
    walkOf_code hholds hsym, Nat.zero_add, Nat.zero_add, if_pos hcap, List.length_append]
  rfl

/-- Bits that end inside a code are PARTIAL_CODE at their end (43_bitstream.md R102). -/
theorem decodeSymbols_partialCode {w : Word} {l r : HuffTree} (ht : t = .node w l r) {v : List Byte} {p : Bits}
    {sym : Byte} (hv : ∀ x ∈ v, x ∈ t.symbols) (hsym : sym ∈ t.symbols) (hne : p ≠ []) (hp : p <+: t.codeFor sym)
    (hproper : p ≠ t.codeFor sym) (hbits : storesBits s (t.encoded v ++ p)) (hcap : v.length ≤ s.cfg.outCap) :
    decodeSymbols s = .error (.error (corruptError .partialCode (t.encoded v ++ p).length)) := by
  obtain ⟨root, hroot, hholds, hperm, _⟩ := hstore
  have hnodup : (indicesOf s.nodes root.toNat t).Nodup := hperm.nodup_iff.mpr List.nodup_range
  have hwalk := walkOf_encoded (cap := s.cfg.outCap) hholds p v 0 0 hv (by omega)
  rw [decodeSymbols_eq_walkOf hroot hholds hbits, hwalk, Nat.zero_add, Nat.zero_add, List.length_append]
  subst ht
  obtain ⟨w', hleaf⟩ := descend_codeFor hsym
  obtain ⟨w₁, l₁, r₁, hdown⟩ := descend_of_proper_start hleaf hp hproper
  obtain ⟨stop, _, _, hstop, hend⟩ := decodeWalk_descend (root := root.toNat) (cap := s.cfg.outCap) p hholds hdown
  have hpartial := hend [] ((HuffTree.node w l r).encoded v).length v.length
  rw [List.append_nil, decodeWalk, if_pos (hstop hne hnodup)] at hpartial
  rw [walkOf, hpartial]
  rfl

end

/-- Under a Leaf root the first 1 bit is LEAF_ROOT_ONE (43_bitstream.md R101). -/
theorem decodeSymbols_leafRootOne {s : State} {w : Word} {sym : Byte} {n : Nat} {rest : Bits}
    (hstore : storesTree s.nodes s.root (some (.leaf w sym))) (hcap : n ≤ s.cfg.outCap)
    (hbits : storesBits s (List.replicate n false ++ true :: rest)) :
    decodeSymbols s = .error (.error (corruptError .leafRootOne n)) := by
  rw [decodeSymbols_leafRoot hstore hbits, decodeLeafRoot_zeros sym s.cfg.outCap _ n 0 0 (by omega), decodeLeafRoot,
    Nat.zero_add]
  rfl

theorem decodeSymbols_emptyTree {s : State} (hstore : storesTree s.nodes s.root none) :
    decodeSymbols s = if s.bitLen ≠ 0 then .error (.error (corruptError .emptyTreeBits 0)) else .ok [] := by
  obtain ⟨hroot, _⟩ := hstore
  simp only [decodeSymbols, hroot]

/-! ## Every way the walk can end -/

/-- A walk with room for `room` symbols more that ends: with at most so many symbols, or with an error that has a code. -/
def walkEnds (room : Nat) (r : Except Stop (List Byte)) : Prop :=
  (∃ v, r = .ok v ∧ v.length ≤ room) ∨ ∃ e, r = .error (.error e) ∧ e.code ≠ .none

theorem walkEnds_cons {room : Nat} {r : Except Stop (List Byte)} (sym : Byte) : walkEnds room r →
    walkEnds (room + 1) (match r with
      | .error e => .error e
      | .ok rest => .ok (sym :: rest)) := by
  rintro (⟨v, rfl, hv⟩ | ⟨e, rfl, he⟩)
  · exact .inl ⟨sym :: v, rfl, Nat.succ_le_succ hv⟩
  · exact .inr ⟨e, rfl, he⟩

theorem decodeLeafRoot_ends (sym : Byte) (cap : Nat) (bits : Bits) : ∀ i k, k ≤ cap →
    walkEnds (cap - k) (decodeLeafRoot sym cap bits i k) := by
  induction bits with
  | nil => exact fun _ _ _ => .inl ⟨[], rfl, Nat.zero_le _⟩
  | cons b bits ih =>
    intro i k hk
    cases b with
    | true => exact .inr ⟨corruptError .leafRootOne i, rfl, nofun⟩
    | false =>
      rw [decodeLeafRoot]
      split
      · exact .inr ⟨plainError .outOverflow i, rfl, nofun⟩
      · have hrest := walkEnds_cons sym (ih (i + 1) (k + 1) (by omega))
        rwa [show cap - (k + 1) + 1 = cap - k by omega] at hrest

theorem decodeWalk_ends {nodes : List Node} {root cap : Nat} {wr : Word} {lr rr : HuffTree}
    (hroot : holdsAt nodes root (.node wr lr rr)) (bits : Bits) : ∀ {w : Word} {l r : HuffTree} (cur i k : Nat),
    holdsAt nodes cur (.node w l r) → k ≤ cap → walkEnds (cap - k) (decodeWalk nodes root cap bits i k cur) := by
  induction bits with
  | nil =>
    intro w l r cur i k _ _
    rw [decodeWalk]
    split
    · exact .inr ⟨corruptError .partialCode i, rfl, nofun⟩
    · exact .inl ⟨[], rfl, Nat.zero_le _⟩
  | cons b bits ih =>
    intro w l r cur i k hcur hk
    obtain ⟨x, y, hi, hchild, _⟩ := holdsAt_child hcur b
    rw [decodeWalk, hi]
    dsimp only
    generalize (if b then r else l) = child at hchild
    cases child with
    | leaf w₁ sym =>
      rw [holdsAt] at hchild
      simp only [hchild]
      split
      · exact .inr ⟨plainError .outOverflow i, rfl, nofun⟩
      · have hrest := walkEnds_cons sym (ih root (i + 1) (k + 1) hroot (by omega))
        rwa [show cap - (k + 1) + 1 = cap - k by omega] at hrest
    | node w₁ l₁ r₁ =>
      have hrest := ih _ (i + 1) k hchild hk
      obtain ⟨x₁, y₁, hget, _⟩ := hchild
      simp only [hget]
      exact hrest

/-- On a stored tree DECODE's walk answers at most OUT_CAP symbols or raises an error; it never breaks off
(43_bitstream.md R98, log entry 7). -/
theorem decodeSymbols_ends {s : State} {t : Option HuffTree} {bits : Bits} (hstore : storesTree s.nodes s.root t)
    (hbits : storesBits s bits) : walkEnds s.cfg.outCap (decodeSymbols s) := by
  cases t with
  | none =>
    rw [decodeSymbols_emptyTree hstore]
    split
    · exact .inr ⟨_, rfl, by decide⟩
    · exact .inl ⟨[], rfl, Nat.zero_le _⟩
  | some tree =>
    obtain ⟨r, hroot, hholds, _⟩ := hstore
    rw [decodeSymbols_eq_walkOf hroot hholds hbits]
    cases tree with
    | leaf w sym => exact decodeLeafRoot_ends sym _ bits 0 0 (Nat.zero_le _)
    | node w l r => exact decodeWalk_ends hholds bits _ 0 0 hholds (Nat.zero_le _)

/-! ## The obligations of DECODE -/

/-- Settles O32: the walk answers the encoded bytes; of the empty tree and no bits it answers none. -/
theorem decodeInvertsEncoding : Obligations.DecodeInvertsEncoding := by
  refine ⟨fun s tree v htv hbv hstore hsym hbits hcap => ?_, fun s htv hbv hstore hbits => ?_⟩
  · exact ⟨_, exec_decode_next htv hbv (decodeSymbols_encoded hstore hsym hbits hcap), wroteFromZero_writeBytes _ _⟩
  · have hlen : s.bitLen = 0 := bitLen_of_storesBits hbits
    exact exec_decode_next htv hbv ((decodeSymbols_emptyTree hstore).trans (if_neg (not_not_intro hlen)))

/-- Settles O33: the walk's error, which loses OUT. -/
theorem decodeReportsPartialCode : Obligations.DecodeReportsPartialCode := by
  refine ⟨?_, ?_, ?_⟩
  · intro s w l r v p sym htv hbv hstore hv hsym hne hp hproper hbits hcap
    have hsyms := decodeSymbols_partialCode hstore rfl hv hsym hne hp hproper hbits hcap
    have herror : corruptError .partialCode ((HuffTree.node w l r).encoded v ++ p).length =
        { code := .corruptContainer, detail := 13, info := s.bitLen } := by
      rw [bitLen_of_storesBits hbits]
      rfl
    rw [herror] at hsyms
    exact exec_decode_error htv hbv hsyms
  · intro s tree v sym rest htv hbv hstore hv hsym hcap hbits
    exact exec_decode_error htv hbv (decodeSymbols_overflow hstore hv hsym hcap hbits)
  · intro s htv hbv hstore hlen
    exact exec_decode_error htv hbv ((decodeSymbols_emptyTree hstore).trans (if_pos hlen))

/-! ## UNCOMPRESS -/

section
variable {s : State} {t : Option HuffTree} {bits : Bits} (hin : s.inLen.toNat ≤ s.cfg.inCap)
  (hbody : deserializeBody s = .done (deserialized t bits s))
include hin hbody

theorem exec_uncompress_eq :
    exec .uncompress s = finish (decodeBody (deserialized t bits s)).losingOut := by
  have hbodyOf : bodyOf .uncompress s = (decodeBody (deserialized t bits s)).losingOut := by
    change (uncompressBody s).losingOut = _
    rw [uncompressBody, hbody]
    rfl
  rw [exec_eq_finish (i := .uncompress) (precheck_readsIn hin), hbodyOf]

/-- UNCOMPRESS whose walk answers leaves the tree, the bits and the symbols (45_orchestration.md R116). -/
theorem exec_uncompress_next {v : List Byte} (hsyms : decodeSymbols (deserialized t bits s) = .ok v) :
    exec .uncompress s = .next { deserialized t bits s with
      outMem := writeBytes s.outMem 0 v, outLen := BitVec.ofNat 64 v.length, done := true, pending := none } := by
  rw [exec_uncompress_eq hin hbody, decodeBody, hsyms]
  rfl

/-- UNCOMPRESS whose walk raises leaves the tree and the bits, and loses OUT (60_exceptions.md R136). -/
theorem exec_uncompress_error {e : CmdError} (hsyms : decodeSymbols (deserialized t bits s) = .error (.error e)) :
    exec .uncompress s = .next (completeError e (outLost (deserialized t bits s))) := by
  rw [exec_uncompress_eq hin hbody, decodeBody, hsyms]
  rfl

end

/-- An error of DECODE's walk over a container of a tree and bits is UNCOMPRESS's, the products standing. -/
theorem uncompressFails_of_decode {s : State} {tree : HuffTree} {bits : Bits} {e : CmdError} {info : Nat}
    (hvalid : s.cfg.valid = true) (hin : inputIs s (containerOf (some tree) bits)) (hnodup : tree.symbols.Nodup)
    (hcap : ceil8 bits.length ≤ s.cfg.bitbufCap) (hinfo : e.info = BitVec.ofNat 64 info)
    (hsyms : storesTree (deserialized (some tree) bits s).nodes (deserialized (some tree) bits s).root (some tree) →
      storesBits (deserialized (some tree) bits s) bits →
      decodeSymbols (deserialized (some tree) bits s) = .error (.error e)) :
    uncompressFails s tree bits e.code e.detail info := by
  have hnodup' : ∀ t, some tree = some t → t.symbols.Nodup := fun t ht => Option.some.inj ht ▸ hnodup
  have hbody := deserializeBody_of_inputIs hvalid hin hnodup' nofun hcap
  have herror := hsyms (storesTree_deserialized hnodup' bits s)
    (storesBits_deserialized (some tree) (bits_lt_of_valid hvalid hcap) s)
  refine ⟨_, _, ?_, storesInPreorder_preorderNodes hnodup'⟩
  rw [exec_uncompress_error (inLen_le_of_inputIs hin) hbody herror, ← hinfo]
  rfl

/-- Of the container of a tree and an encoding UNCOMPRESS leaves the encoded bytes (45_orchestration.md R116, R119). -/
theorem exec_uncompress_encoded {s : State} {tree : HuffTree} {v : List Byte} (hvalid : s.cfg.valid = true)
    (hnodup : tree.symbols.Nodup) (hsym : ∀ sym ∈ v, sym ∈ tree.symbols)
    (hin : inputIs s (containerOf (some tree) (tree.encoded v)))
    (hcap : ceil8 (tree.encoded v).length ≤ s.cfg.bitbufCap) (hout : v.length ≤ s.cfg.outCap) :
    exec .uncompress s = .next { deserialized (some tree) (tree.encoded v) s with
      outMem := writeBytes s.outMem 0 v, outLen := BitVec.ofNat 64 v.length, done := true, pending := none } := by
  have hnodup' : ∀ t, some tree = some t → t.symbols.Nodup := fun t ht => Option.some.inj ht ▸ hnodup
  exact exec_uncompress_next (inLen_le_of_inputIs hin) (deserializeBody_of_inputIs hvalid hin hnodup' nofun hcap)
    (decodeSymbols_encoded (storesTree_deserialized hnodup' _ s) hsym
      (storesBits_deserialized (some tree) (bits_lt_of_valid hvalid hcap) s) hout)

/-- Of the container of the empty tree UNCOMPRESS leaves no byte (45_orchestration.md R116). -/
theorem exec_uncompress_empty {s : State} (hin : inputIs s (containerOf none [])) :
    exec .uncompress s = .next { deserialized none [] s with outLen := 0, done := true, pending := none } := by
  have hparse : deserializeBody s = .done (deserialized none [] s) :=
    deserializeBody_of_parse (parseContainer_containerOf nofun (fun _ => rfl) (by decide) (Nat.zero_le _) hin.1
      (bytesAt_of_inputIs hin))
  exact exec_uncompress_next (inLen_le_of_inputIs hin) hparse (decodeSymbols_emptyTree ⟨rfl, rfl⟩)

/-- Settles O45: DESERIALIZE's tree and bits, then DECODE's walk over them. -/
theorem uncompressRecoversInput : Obligations.UncompressRecoversInput := by
  intro s hvalid
  refine ⟨fun tree v hnodup hsym hin hcap hout => ?_, exec_uncompress_empty, fun tree bits hnodup hin hcap => ⟨?_, ?_, ?_⟩⟩
  · refine ⟨_, _, _, exec_uncompress_encoded hvalid hnodup hsym hin hcap hout, ?_, wroteFromZero_writeBytes _ _⟩
    exact storesInPreorder_preorderNodes fun t ht => Option.some.inj ht ▸ hnodup
  · rintro w l r v p sym ht hv hsym hne hp hproper rfl hout
    exact uncompressFails_of_decode (e := corruptError .partialCode (tree.encoded v ++ p).length) hvalid hin hnodup hcap rfl
      fun hstore hbits => decodeSymbols_partialCode hstore ht hv hsym hne hp hproper hbits hout
  · rintro w sym n rest rfl hout rfl
    exact uncompressFails_of_decode (e := corruptError .leafRootOne n) hvalid hin hnodup hcap rfl
      fun hstore hbits => decodeSymbols_leafRootOne hstore hout hbits
  · rintro v sym rest hv hsym hout rfl
    exact uncompressFails_of_decode
      (e := plainError .outOverflow ((tree.encoded v ++ tree.codeFor sym).length - 1)) hvalid hin hnodup hcap rfl
      fun hstore hbits => decodeSymbols_overflow hstore hv hsym hout hbits

end Sys2Proof.Machine

/-! SUPPORT. COUNT, the errors of BUILD and of ENCODE, and the fault at an unwritten byte (41_frequency_tree.md,
43_bitstream.md R96, 70_reset_and_hazards.md R153). -/

namespace Sys2Proof.Machine

open Sys2Proof

/-! ## COUNT -/

theorem freqOf_bump (freq : Vector Word 256) (sym other : Byte) :
    freqOf (bump freq sym) other = freqOf freq other + (if other = sym then 1 else 0) := by
  by_cases h : other = sym
  · subst h
    rw [if_pos rfl]
    exact freqOf_set_same freq other _
  · rw [if_neg h, add_zero]
    exact freqOf_set_other freq _ h

/-- Counting adds to each entry the number of occurrences of its byte (41_frequency_tree.md R78). -/
theorem freqOf_foldl_bump (bytes : List Byte) (sym : Byte) : ∀ freq : Vector Word 256,
    freqOf (bytes.foldl bump freq) sym = freqOf freq sym + BitVec.ofNat 64 (bytes.count sym) := by
  induction bytes with
  | nil => intro freq; simp
  | cons b bytes ih =>
    intro freq
    rw [List.foldl_cons, ih, freqOf_bump, BitVec.add_assoc]
    congr 1
    by_cases h : sym = b
    · subst h
      rw [if_pos rfl, List.count_cons_self, BitVec.ofNat_add, BitVec.add_comm]
      rfl
    · rw [if_neg h, List.count_cons_of_ne (Ne.symm h), zero_add]

/-- The table COUNT leaves. -/
def countsOf (bytes : List Byte) : Vector Word 256 := bytes.foldl bump (Vector.replicate 256 0)

theorem freqOf_countsOf {bytes : List Byte} (h : bytes.length < 2 ^ 64) (sym : Byte) :
    (freqOf (countsOf bytes) sym).toNat = bytes.count sym := by
  have hle := List.count_le_length (a := sym) (l := bytes)
  rw [countsOf, freqOf_foldl_bump, freqOf_replicate_zero, zero_add]
  exact Nat.mod_eq_of_lt (by omega)

theorem freqSum_eq_sum (freq : Vector Word 256) : freqSum freq = ∑ i : Fin 256, freq[i.val].toNat := by
  have hlist : freq.toList.map BitVec.toNat = List.ofFn fun i : Fin 256 => freq[i.val].toNat :=
    List.ext_getElem (by rw [List.length_map, Vector.length_toList, List.length_ofFn]) fun i _ _ => by
      rw [List.getElem_map, Vector.getElem_toList, List.getElem_ofFn]
  rw [freqSum, hlist, List.sum_ofFn]

/-- Each byte is counted once. -/
theorem sum_count (bytes : List Byte) : ∑ i : Fin 256, bytes.count (BitVec.ofFin i) = bytes.length := by
  induction bytes with
  | nil => simp
  | cons b bytes ih =>
    have hone : ∑ i : Fin 256, (if b = BitVec.ofFin i then 1 else 0) = 1 := by
      rw [Finset.sum_eq_single b.toFin]
      · exact if_pos rfl
      · intro i _ hi
        exact if_neg fun h => hi (by rw [h])
      · exact fun h => absurd (Finset.mem_univ _) h
    simp only [List.count_cons, beq_iff_eq, Finset.sum_add_distrib, ih, hone, List.length_cons]

theorem freqSum_countsOf {bytes : List Byte} (h : bytes.length < 2 ^ 64) : freqSum (countsOf bytes) = bytes.length := by
  rw [freqSum_eq_sum, ← sum_count bytes]
  exact Finset.sum_congr rfl fun i _ => freqOf_countsOf h (BitVec.ofFin i)

theorem memReadBytes_of_inputIs {s : State} {bytes : List Byte} (h : inputIs s bytes) :
    memReadBytes s.inMem 0 s.inLen.toNat = .ok bytes :=
  memReadBytes_eq_ok_iff.mpr ⟨h.1.symm, bytesAt_of_inputIs h⟩

theorem countBody_of_inputIs {s : State} {bytes : List Byte} (h : inputIs s bytes) :
    countBody s = .done { s with freq := countsOf bytes } := by
  rw [countBody, memReadBytes_of_inputIs h]
  rfl

/-- Settles O19: the body counts, and nothing wraps. -/
theorem countCountsOccurrences : Obligations.CountCountsOccurrences := by
  intro s bytes hin
  have hlt := length_lt_of_inputIs hin
  exact ⟨countsOf bytes, runCommand_of_done (precheck_readsIn (inLen_le_of_inputIs hin)) (countBody_of_inputIs hin),
    freqOf_countsOf hlt, (freqSum_countsOf hlt).trans hin.1.symm⟩

/-! ## The errors of BUILD -/

theorem presentLeaves_eq_nil_iff (freq : Vector Word 256) : presentLeaves freq = [] ↔ ∀ sym : Byte, freqOf freq sym = 0 := by
  rw [presentLeaves, List.filterMap_eq_nil_iff]
  constructor
  · intro h sym
    have hsym := h sym.toFin (List.mem_finRange _)
    by_contra hne
    exact absurd ((if_neg hne).symm.trans hsym) nofun
  · intro h i _
    exact if_pos (h (BitVec.ofFin i))

theorem exec_build_eq (s : State) : exec .build s = finish (buildBody s) := exec_eq_finish (i := .build) rfl

/-- Settles O24: with no leaf the body raises after the clears. -/
theorem buildOfEmptyTableFails : Obligations.BuildOfEmptyTableFails := by
  intro s hzero
  rw [exec_build_eq, buildBody, leavesFrom_freq, (presentLeaves_eq_nil_iff s.freq).mpr hzero]
  rfl

/-- The running sum first overflows at the first count that takes it there (41_frequency_tree.md R80). -/
theorem overflowSymbol_eq_some (counts : List Word) : ∀ (n sym acc : Nat), n < counts.length →
    2 ^ 64 ≤ acc + ((counts.take (n + 1)).map BitVec.toNat).sum →
    (∀ j, j < n → acc + ((counts.take (j + 1)).map BitVec.toNat).sum < 2 ^ 64) →
    overflowSymbol counts sym acc = some (sym + n) := by
  induction counts with
  | nil => intro n sym acc h; exact absurd h (Nat.not_lt_zero n)
  | cons f counts ih =>
    intro n sym acc hn hover hbelow
    rw [overflowSymbol]
    cases n with
    | zero =>
      simp only [Nat.zero_add, List.take_succ_cons, List.take_zero, List.map_cons, List.map_nil, List.sum_cons,
        List.sum_nil] at hover
      rw [if_pos (by omega), Nat.add_zero]
    | succ n =>
      have hhead := hbelow 0 (Nat.succ_pos n)
      simp only [Nat.zero_add, List.take_succ_cons, List.take_zero, List.map_cons, List.map_nil, List.sum_cons,
        List.sum_nil] at hhead
      rw [if_neg (by omega), ih n (sym + 1) (acc + f.toNat) (by simpa using hn)
        (by simpa [Nat.add_assoc] using hover) (fun j hj => by simpa [Nat.add_assoc] using hbelow (j + 1) (by omega))]
      congr 1
      omega

/-- Settles O25: the least symbol at which the running sum overflows is the one BUILD finds. -/
theorem buildReportsWeightOverflow : Obligations.BuildReportsWeightOverflow := by
  intro s sym hsym hover hbelow
  have hsymbol : overflowSymbol s.freq.toList 0 0 = some sym := by
    rw [overflowSymbol_eq_some s.freq.toList sym 0 0 (by simpa using hsym) (by rw [Nat.zero_add]; exact hover)
      (fun j hj => by rw [Nat.zero_add]; exact hbelow j hj), Nat.zero_add]
  have hne : presentLeaves s.freq ≠ [] := by
    intro hnil
    have hzero : ∀ n ∈ (s.freq.toList.take (sym + 1)).map BitVec.toNat, n = 0 := by
      intro n hn
      obtain ⟨f, hf, rfl⟩ := List.mem_map.mp hn
      obtain ⟨i, hi, rfl⟩ := List.getElem_of_mem (List.mem_of_mem_take hf)
      have h256 : i < 256 := by simpa using hi
      have hentry := (presentLeaves_eq_nil_iff s.freq).mp hnil (BitVec.ofFin ⟨i, h256⟩)
      rw [Vector.getElem_toList]
      exact congrArg BitVec.toNat hentry
    rw [freqSumThrough, List.sum_eq_zero hzero] at hover
    exact absurd hover (by decide)
  obtain ⟨leaf, leaves, hleaves⟩ := List.exists_cons_of_ne_nil hne
  rw [exec_build_eq, buildBody, leavesFrom_freq, hleaves]
  dsimp only
  rw [hsymbol]
  rfl

/-! ## The errors of ENCODE -/

/-- Settles O29: the walk passes the bytes with codes and stops at the first without. -/
theorem encodeReportsFirstCodelessByte : Obligations.EncodeReportsFirstCodelessByte := by
  intro s bytes sym hcv hcap hlen hbytes hread hcodes hnone
  obtain ⟨n, hn⟩ : ∃ n, s.inLen.toNat = bytes.length + (n + 1) := ⟨s.inLen.toNat - bytes.length - 1, by omega⟩
  have hstop : encodeBits s.inMem s.code bytes.length (n + 1) = .error (.error (plainError .noCode bytes.length)) := by
    simp only [encodeBits, memRead_eq, hread, hnone]
  have hbits : encodeBits s.inMem s.code 0 s.inLen.toNat = .error (.error (plainError .noCode bytes.length)) := by
    rw [hn, encodeBits_append bytes _ 0 (by simpa using hbytes) hcodes, Nat.zero_add, hstop]
    rfl
  rw [exec_encode_eq hcv hcap, encodeBody, hbits]
  rfl

/-- Settles O30: the codes are known, and their packed length is compared with BITBUF_CAP. -/
theorem encodeReportsBufferOverflow : Obligations.EncodeReportsBufferOverflow := by
  intro s bytes hcv hin hcodes hover
  rw [exec_encode_eq hcv (inLen_le_of_inputIs hin), encodeBody, encodeBits_of_inputIs hin hcodes, Body.ofExcept_ok,
    if_pos hover]
  rfl

/-! ## Unwritten input -/

/-- Written bytes are some bytes. -/
theorem exists_bytesAt_of_written {m : Memory} {n : Nat} (h : ∀ a, a < n → readByte m a ≠ none) :
    ∃ bytes : List Byte, bytes.length = n ∧ bytesAt m 0 bytes := by
  cases hread : memReadBytes m 0 n with
  | ok bytes => exact ⟨bytes, memReadBytes_eq_ok_iff.mp hread⟩
  | error e =>
    obtain ⟨x, _, hx, hnone, _⟩ := memReadBytes_error_unwritten hread
    exact absurd hnone (h x (by omega))

/-- Consecutive reads stop at the first unwritten byte (70_reset_and_hazards.md R153). -/
theorem memReadBytes_first_unwritten {m : Memory} {n a : Nat} (ha : a < n) (hnone : readByte m a = none)
    (hbelow : ∀ b, b < a → readByte m b ≠ none) : memReadBytes m 0 n = .error (.fault (.inUnwritten a)) := by
  cases hread : memReadBytes m 0 n with
  | ok bytes =>
    obtain ⟨hlen, hbytes⟩ := memReadBytes_eq_ok_iff.mp hread
    exact absurd hnone (readByte_ne_none_of_bytesAt hbytes (by omega))
  | error e =>
    obtain ⟨i, _, rfl, hi, hwritten⟩ := memReadBytes_error m n 0 e hread
    simp only [Nat.zero_add] at hi hwritten ⊢
    rcases Nat.lt_trichotomy i a with hlt | rfl | hlt
    · exact absurd hi (hbelow i hlt)
    · rfl
    · exact absurd hnone (hwritten a hlt)

/-- ENCODE's walk stops at the first unwritten byte when every byte before it has a code. -/
theorem encodeBits_first_unwritten {m : Memory} {code : Vector Bits 256} {n a : Nat} (ha : a < n)
    (hnone : readByte m a = none) (hbelow : ∀ b, b < a → readByte m b ≠ none)
    (hcodes : ∀ b sym, b < a → readByte m b = some sym → codeOf code sym ≠ []) :
    encodeBits m code 0 n = .error (.fault (.inUnwritten a)) := by
  obtain ⟨bytes, hlen, hbytes⟩ := exists_bytesAt_of_written hbelow
  obtain ⟨k, hk⟩ : ∃ k, n = bytes.length + (k + 1) := ⟨n - bytes.length - 1, by omega⟩
  have hstop : encodeBits m code a (k + 1) = .error (.fault (.inUnwritten a)) := by
    simp only [encodeBits, memRead_eq, hnone]
  have hcoded : ∀ sym ∈ bytes, codeOf code sym ≠ [] := by
    intro sym hsym
    obtain ⟨i, hi, rfl⟩ := List.getElem_of_mem hsym
    have hread := hbytes i hi
    rw [Nat.zero_add, List.getElem?_eq_getElem hi] at hread
    exact hcodes i _ (by omega) hread
  rw [hk, encodeBits_append bytes _ 0 hbytes hcoded, Nat.zero_add, hlen, hstop]
  rfl

/-- Settles O20: the reads of COUNT, COMPRESS and ENCODE in order, and the parser on a container with one byte unwritten. -/
theorem unwrittenInputIsFault : Obligations.UnwrittenInputIsFault := by
  constructor
  · intro s a hcap ha hnone hbelow
    have hcount : countBody s = .faulted (.inUnwritten a) := by
      rw [countBody, memReadBytes_first_unwritten ha hnone hbelow]
      rfl
    have hcompress : (compressBody s).losingOut = .faulted (.inUnwritten a) := by
      rw [compressBody, hcount]
      rfl
    refine ⟨?_, ?_, fun hcv hcodes => ?_⟩
    · rw [exec_eq_finish (i := .count) (precheck_readsIn hcap), bodyOf, hcount]
      rfl
    · rw [exec_eq_finish (i := .compress) (precheck_readsIn hcap)]
      exact congrArg finish hcompress
    · rw [exec_encode_eq hcv hcap, encodeBody, encodeBits_first_unwritten ha hnone hbelow hcodes]
      rfl
  · intro s t bits a hlen hin hcap hnodup hempty hlt ha hnone hbytes
    have hparse := parseContainer_unwritten (n := s.inLen.toNat) hnodup hempty hlt hcap hlen ha hnone hbytes
    have hpre : precheck Need.nothing true s = none := precheck_readsIn (by omega)
    have hbody : deserializeBody s = .faulted (.inUnwritten a) := by
      rw [deserializeBody, hparse]
      rfl
    have huncompress : (uncompressBody s).losingOut = .faulted (.inUnwritten a) := by
      rw [uncompressBody, hbody]
      rfl
    constructor
    · rw [exec_eq_finish (i := .deserialize) hpre, bodyOf, hbody]
      rfl
    · rw [exec_eq_finish (i := .uncompress) hpre]
      exact congrArg finish huncompress

end Sys2Proof.Machine

/-! SUPPORT. BUILD's merges (41_frequency_tree.md R80 to R86): the pool in key order, the two least keys of each merge, and
the weights. -/

namespace Sys2Proof.Machine

open Sys2Proof

/-! ## The pool in key order -/

/-- The order of keys of 41_frequency_tree.md R82. -/
def keyLess (a b : Key) : Prop :=
  a.weight.toNat < b.weight.toNat ∨ (a.weight.toNat = b.weight.toNat ∧ a.index < b.index)

theorem Key.lt_iff (a b : Key) : a.lt b = true ↔ keyLess a b := by
  simp only [Key.lt, keyLess, Bool.or_eq_true, Bool.and_eq_true, decide_eq_true_eq, ← BitVec.toNat_inj]

theorem keyLess_trans {a b c : Key} (h : keyLess a b) (h' : keyLess b c) : keyLess a c := by
  unfold keyLess at *
  omega

/-- Putting a key of a new index into a pool in key order keeps the order. -/
theorem insertKey_sorted {k : Key} {pool : List Key} (h : pool.Pairwise keyLess)
    (hnew : ∀ a ∈ pool, a.index ≠ k.index) :
    (insertKey k pool).Pairwise keyLess := by
  induction pool with
  | nil => exact List.pairwise_singleton _ _
  | cons a pool ih =>
    obtain ⟨ha, hpool⟩ := List.pairwise_cons.mp h
    rw [insertKey]
    split
    · next hlt =>
      have hka := (Key.lt_iff k a).mp hlt
      refine List.pairwise_cons.mpr ⟨fun b hb => ?_, h⟩
      rcases List.mem_cons.mp hb with rfl | hb
      · exact hka
      · exact keyLess_trans hka (ha b hb)
    · next hlt =>
      have hak : keyLess a k := by
        have hnot : ¬ keyLess k a := fun h => hlt ((Key.lt_iff k a).mpr h)
        have hne := hnew a List.mem_cons_self
        unfold keyLess at *
        omega
      refine List.pairwise_cons.mpr ⟨fun b hb => ?_, ih hpool fun b hb => hnew b (List.mem_cons_of_mem a hb)⟩
      rcases List.mem_cons.mp ((insertKey_perm k pool).subset hb) with rfl | hb
      · exact hak
      · exact ha b hb

theorem poolOf_index_ge (nodes : List Node) (i : Nat) : ∀ k ∈ poolOf nodes i, i ≤ k.index := by
  intro k hk
  have hmem := (poolOf_indices_perm nodes i).subset (List.mem_map_of_mem hk)
  exact (List.mem_range'_1.mp hmem).1

theorem poolOf_sorted (nodes : List Node) : ∀ i, (poolOf nodes i).Pairwise keyLess := by
  induction nodes with
  | nil => exact fun _ => List.Pairwise.nil
  | cons n nodes ih =>
    intro i
    refine insertKey_sorted (ih (i + 1)) fun a ha => ?_
    have hge := poolOf_index_ge nodes (i + 1) a ha
    exact Nat.ne_of_gt hge

/-- Each key of the first pool has its record's weight. -/
theorem poolOf_weight (nodes : List Node) : ∀ (i : Nat) (k : Key), k ∈ poolOf nodes i →
    ∃ n, nodes[k.index - i]? = some n ∧ n.weight = k.weight := by
  induction nodes with
  | nil => exact fun _ _ hk => absurd hk List.not_mem_nil
  | cons n nodes ih =>
    intro i k hk
    rcases List.mem_cons.mp ((insertKey_perm _ _).subset hk) with rfl | hk
    · exact ⟨n, by simp, rfl⟩
    · obtain ⟨x, hx, hw⟩ := ih (i + 1) k hk
      have hge := poolOf_index_ge nodes (i + 1) k hk
      refine ⟨x, ?_, hw⟩
      rwa [show k.index - i = (k.index - (i + 1)) + 1 by omega, List.getElem?_cons_succ]

/-- The weights of a pool, as integers. -/
def poolWeights (pool : List Key) : List Nat := pool.map fun k => k.weight.toNat

theorem poolWeights_insertKey_sum (k : Key) (pool : List Key) :
    (poolWeights (insertKey k pool)).sum = k.weight.toNat + (poolWeights pool).sum :=
  ((insertKey_perm k pool).map _).sum_eq

theorem poolWeights_poolOf_sum (nodes : List Node) : ∀ i,
    (poolWeights (poolOf nodes i)).sum = (nodes.map fun n => n.weight.toNat).sum := by
  induction nodes with
  | nil => exact fun _ => rfl
  | cons n nodes ih => intro i; rw [poolOf, poolWeights_insertKey_sum, ih, List.map_cons, List.sum_cons]

/-! ## Records made earlier stay as they are -/

theorem childBelow_append {nodes : List Node} (made : List Node) {k j : Nat} (hk : k ≤ nodes.length) :
    childBelow (nodes ++ made) k j ↔ childBelow nodes k j := by
  constructor
  · rintro ⟨m, w, a, b, hm, hget, hj⟩
    rw [List.getElem?_append_left (by omega)] at hget
    exact ⟨m, w, a, b, hm, hget, hj⟩
  · rintro ⟨m, w, a, b, hm, hget, hj⟩
    refine ⟨m, w, a, b, hm, ?_, hj⟩
    rwa [List.getElem?_append_left (by omega)]

theorem inPool_append {nodes : List Node} (made : List Node) {k j : Nat} (hk : k ≤ nodes.length) :
    inPool (nodes ++ made) k j ↔ inPool nodes k j := by
  rw [inPool, inPool, childBelow_append made hk]

theorem keyBefore_append {nodes : List Node} (made : List Node) {i j : Nat} (h : keyBefore nodes i j) :
    keyBefore (nodes ++ made) i j := by
  obtain ⟨x, y, hx, hy, hlt⟩ := h
  exact ⟨x, y, by rw [List.getElem?_append_left (List.getElem?_eq_some_iff.mp hx).1, hx],
    by rw [List.getElem?_append_left (List.getElem?_eq_some_iff.mp hy).1, hy], hlt⟩

/-- Record `k`, with children `a` and `b`, joined the two least keys of the pool of its moment and has the sum of their
weights (41_frequency_tree.md R82, R84, R86). -/
def mergedLeast (nodes : List Node) (k : Nat) (w : Word) (a b : Nat) : Prop :=
  (inPool nodes k a ∧ inPool nodes k b ∧ keyBefore nodes a b ∧
    ∀ j, inPool nodes k j → j ≠ a → j ≠ b → keyBefore nodes b j) ∧
  ∃ x y, nodes[a]? = some x ∧ nodes[b]? = some y ∧ w.toNat = x.weight.toNat + y.weight.toNat

theorem mergedLeast_append {nodes : List Node} (made : List Node) {k a b : Nat} {w : Word} (hk : k ≤ nodes.length)
    (h : mergedLeast nodes k w a b) : mergedLeast (nodes ++ made) k w a b := by
  obtain ⟨⟨ha, hb, hab, hleast⟩, x, y, hx, hy, hw⟩ := h
  refine ⟨⟨(inPool_append made hk).mpr ha, (inPool_append made hk).mpr hb, keyBefore_append made hab,
    fun j hj hja hjb => ?_⟩, x, y, ?_, ?_, hw⟩
  · exact keyBefore_append made (hleast j ((inPool_append made hk).mp hj) hja hjb)
  · rw [List.getElem?_append_left (List.getElem?_eq_some_iff.mp hx).1, hx]
  · rw [List.getElem?_append_left (List.getElem?_eq_some_iff.mp hy).1, hy]

/-! ## The merge loop -/

/-- The pool of the merge loop: it holds in key order the keys of exactly the records not yet merged, their weights adding
up to the total; and every merge so far joined two least keys (41_frequency_tree.md R80 to R86). -/
structure PoolState (total : Nat) (leaves : List Node) (pool : List Key) (nodes : List Node) : Prop where
  sorted : pool.Pairwise keyLess
  weights : ∀ k ∈ pool, ∃ n, nodes[k.index]? = some n ∧ n.weight = k.weight
  complete : ∀ j, j ∈ pool.map Key.index ↔ inPool nodes nodes.length j
  sum : (poolWeights pool).sum = total
  merged : ∀ k w a b, nodes[k]? = some (.internal w a b) → mergedLeast nodes k w a.toNat b.toNat
  leaf : ∀ w sym, Node.leaf w sym ∈ nodes → Node.leaf w sym ∈ leaves

theorem PoolState.keyBefore {total : Nat} {leaves nodes : List Node} {pool : List Key}
    (h : PoolState total leaves pool nodes) {a b : Key} (ha : a ∈ pool) (hb : b ∈ pool) (hab : keyLess a b) :
    keyBefore nodes a.index b.index := by
  obtain ⟨x, hx, hxw⟩ := h.weights a ha
  obtain ⟨y, hy, hyw⟩ := h.weights b hb
  exact ⟨x, y, hx, hy, by rw [hxw, hyw]; exact hab⟩

theorem PoolState.indices_nodup {total : Nat} {leaves nodes : List Node} {pool : List Key}
    (h : PoolState total leaves pool nodes) : (pool.map Key.index).Nodup := by
  rw [List.Nodup, List.pairwise_map]
  refine h.sorted.imp_of_mem fun {a b} ha hb hab heq => ?_
  obtain ⟨x, hx, hxw⟩ := h.weights a ha
  obtain ⟨y, hy, hyw⟩ := h.weights b hb
  rw [heq, hy] at hx
  have hweight : a.weight = b.weight := by rw [← hxw, ← hyw, Option.some.inj hx]
  unfold keyLess at hab
  rw [hweight] at hab
  omega

/-- The leaves are in the first pool, unmerged (41_frequency_tree.md R80). -/
theorem PoolState.start {leaves : List Node} (h : ∀ n ∈ leaves, ∃ w sym, n = Node.leaf w sym) :
    PoolState ((leaves.map fun n => n.weight.toNat).sum) leaves (poolOf leaves 0) leaves where
  sorted := poolOf_sorted leaves 0
  weights k hk := by
    obtain ⟨n, hn, hw⟩ := poolOf_weight leaves 0 k hk
    exact ⟨n, hn, hw⟩
  complete j := by
    rw [(poolOf_indices_perm leaves 0).mem_iff, List.mem_range'_1, inPool]
    refine ⟨fun hj => ⟨by omega, ?_⟩, fun hj => ⟨Nat.zero_le j, by omega⟩⟩
    rintro ⟨m, w, a, b, _, hget, _⟩
    obtain ⟨w', sym, hleaf⟩ := h _ (List.mem_of_getElem? hget)
    exact absurd hleaf nofun
  sum := poolWeights_poolOf_sum leaves 0
  merged k w a b hget := by
    obtain ⟨w', sym, hleaf⟩ := h _ (List.mem_of_getElem? hget)
    exact absurd hleaf nofun
  leaf _ _ h := h

/-- A merge takes its two children out of the pool and puts the new record in. -/
theorem inPool_merge {nodes : List Node} {w : Word} {l r : NodeIndex} {j : Nat}
    (hbelow : ∀ i, childBelow nodes nodes.length i → i < nodes.length)
    (hl : l.toNat < nodes.length) (hr : r.toNat < nodes.length) :
    inPool (nodes ++ [.internal w l r]) (nodes.length + 1) j ↔
      j = nodes.length ∨ (inPool nodes nodes.length j ∧ j ≠ l.toNat ∧ j ≠ r.toNat) := by
  have hchild : childBelow (nodes ++ [.internal w l r]) (nodes.length + 1) j ↔
      childBelow nodes nodes.length j ∨ j = l.toNat ∨ j = r.toNat := by
    constructor
    · rintro ⟨m, w', a, b, hm, hget, hj⟩
      by_cases hlt : m < nodes.length
      · rw [List.getElem?_append_left hlt] at hget
        exact .inl ⟨m, w', a, b, hlt, hget, hj⟩
      · obtain rfl : m = nodes.length := by omega
        rw [List.getElem?_concat_length] at hget
        obtain ⟨_, rfl, rfl⟩ := Node.internal.inj (Option.some.inj hget)
        exact .inr (hj.imp Eq.symm Eq.symm)
    · rintro (⟨m, w', a, b, hm, hget, hj⟩ | hj)
      · exact ⟨m, w', a, b, by omega, by rwa [List.getElem?_append_left hm], hj⟩
      · exact ⟨nodes.length, w, l, r, by omega, List.getElem?_concat_length, hj.imp Eq.symm Eq.symm⟩
  rw [inPool, inPool, hchild]
  constructor
  · rintro ⟨hlt, hnot⟩
    push Not at hnot
    obtain ⟨hnot, hnl, hnr⟩ := hnot
    by_cases hj : j = nodes.length
    · exact .inl hj
    · exact .inr ⟨⟨by omega, hnot⟩, hnl, hnr⟩
  · rintro (rfl | ⟨⟨hlt, hnot⟩, hnl, hnr⟩)
    · refine ⟨by omega, ?_⟩
      rintro (hnot | hnot | hnot)
      · exact absurd (hbelow _ hnot) (Nat.lt_irrefl _)
      · omega
      · omega
    · refine ⟨by omega, ?_⟩
      rintro (h | h | h)
      · exact hnot h
      · exact hnl h
      · exact hnr h

theorem PoolState.index_lt {total : Nat} {leaves nodes : List Node} {pool : List Key} (h : PoolState total leaves pool nodes)
    {k : Key} (hk : k ∈ pool) : k.index < nodes.length := by
  obtain ⟨n, hn, _⟩ := h.weights k hk
  exact (List.getElem?_eq_some_iff.mp hn).1

/-- A child was made before its parent. -/
theorem PoolState.child_lt {total : Nat} {leaves nodes : List Node} {pool : List Key} (h : PoolState total leaves pool nodes)
    {i : Nat} (hi : childBelow nodes nodes.length i) : i < nodes.length := by
  obtain ⟨m, w, x, y, hm, hget, hi⟩ := hi
  obtain ⟨⟨⟨hx, _⟩, ⟨hy, _⟩, _⟩, _⟩ := h.merged m w x y hget
  rcases hi with rfl | rfl
  · omega
  · omega

section

variable {total : Nat} {leaves nodes : List Node} {a b : Key} {pool : List Key}
  (h : PoolState total leaves (a :: b :: pool) nodes)

include h

/-- The pool's two least keys and the rest of it, in key order. -/
theorem PoolState.least : keyLess a b ∧ (∀ k ∈ pool, keyLess b k) ∧ pool.Pairwise keyLess := by
  have hsorted := h.sorted
  simp only [List.pairwise_cons, List.mem_cons, forall_eq_or_imp] at hsorted
  obtain ⟨⟨hab, _⟩, hrest, hpool⟩ := hsorted
  exact ⟨hab, hrest, hpool⟩

/-- Within a total of 64 bits no merged weight wraps (41_frequency_tree.md R86). -/
theorem PoolState.toNat_weight_add (htotal : total < 2 ^ 64) :
    (a.weight + b.weight).toNat = a.weight.toNat + b.weight.toNat := by
  have hsum := h.sum
  simp only [poolWeights, List.map_cons, List.sum_cons] at hsum
  rw [BitVec.toNat_add]
  exact Nat.mod_eq_of_lt (by omega)

variable (hindex : ∀ k ∈ a :: b :: pool, (BitVec.ofNat 9 k.index).toNat = k.index)

include hindex

/-- After a merge the pool holds the keys of exactly the records not yet merged. -/
theorem PoolState.complete_merge (j : Nat) :
    j ∈ (insertKey { weight := a.weight + b.weight, index := nodes.length } pool).map Key.index ↔
      inPool (nodes ++ [.internal (a.weight + b.weight) (BitVec.ofNat 9 a.index) (BitVec.ofNat 9 b.index)])
        (nodes.length + 1) j := by
  have ha : a ∈ a :: b :: pool := List.mem_cons_self
  have hb : b ∈ a :: b :: pool := List.mem_cons_of_mem a List.mem_cons_self
  have hnodup := h.indices_nodup
  simp only [List.map_cons, List.nodup_cons, List.mem_cons, not_or] at hnodup
  obtain ⟨⟨_, hapool⟩, hbpool, _⟩ := hnodup
  rw [inPool_merge (fun _ => h.child_lt) (by rw [hindex a ha]; exact h.index_lt ha)
    (by rw [hindex b hb]; exact h.index_lt hb), hindex a ha, hindex b hb, ← h.complete j,
    ((insertKey_perm _ pool).map Key.index).mem_iff]
  simp only [List.map_cons, List.mem_cons]
  constructor
  · rintro (rfl | hj)
    · exact .inl rfl
    · exact .inr ⟨.inr (.inr hj), fun hja => hapool (hja ▸ hj), fun hjb => hbpool (hjb ▸ hj)⟩
  · rintro (rfl | ⟨rfl | rfl | hj, hja, hjb⟩)
    · exact .inl rfl
    · exact absurd rfl hja
    · exact absurd rfl hjb
    · exact .inr hj

/-- The record a merge makes joined the two least keys (41_frequency_tree.md R84). -/
theorem PoolState.mergedLeast_new (htotal : total < 2 ^ 64) :
    mergedLeast nodes nodes.length (a.weight + b.weight) (BitVec.ofNat 9 a.index).toNat
      (BitVec.ofNat 9 b.index).toNat := by
  have ha : a ∈ a :: b :: pool := List.mem_cons_self
  have hb : b ∈ a :: b :: pool := List.mem_cons_of_mem a List.mem_cons_self
  have hin {k : Key} (hk : k ∈ a :: b :: pool) : inPool nodes nodes.length k.index :=
    (h.complete k.index).mp (List.mem_map_of_mem hk)
  obtain ⟨hab, hrest, _⟩ := h.least
  obtain ⟨x, hx, hxw⟩ := h.weights a ha
  obtain ⟨y, hy, hyw⟩ := h.weights b hb
  rw [hindex a ha, hindex b hb]
  refine ⟨⟨hin ha, hin hb, h.keyBefore ha hb hab, fun j hj hja hjb => ?_⟩, x, y, hx, hy,
    by rw [h.toNat_weight_add htotal, hxw, hyw]⟩
  obtain ⟨k, hk, rfl⟩ := List.mem_map.mp ((h.complete j).mpr hj)
  rcases List.mem_cons.mp hk with rfl | hk'
  · exact absurd rfl hja
  rcases List.mem_cons.mp hk' with rfl | hk'
  · exact absurd rfl hjb
  exact h.keyBefore hb hk (hrest k hk')

theorem PoolState.merge (htotal : total < 2 ^ 64) :
    PoolState total leaves (insertKey { weight := a.weight + b.weight, index := nodes.length } pool)
      (nodes ++ [.internal (a.weight + b.weight) (BitVec.ofNat 9 a.index) (BitVec.ofNat 9 b.index)]) := by
  have hlt {k : Key} (hk : k ∈ pool) : k.index < nodes.length :=
    h.index_lt (List.mem_cons_of_mem a (List.mem_cons_of_mem b hk))
  refine ⟨?_, ?_, ?_, ?_, ?_, ?_⟩
  · exact insertKey_sorted h.least.2.2 fun k hk => (hlt hk).ne
  · intro k hk
    rcases List.mem_cons.mp ((insertKey_perm _ pool).subset hk) with rfl | hk
    · exact ⟨_, List.getElem?_concat_length, rfl⟩
    · obtain ⟨n, hn, hw⟩ := h.weights k (List.mem_cons_of_mem a (List.mem_cons_of_mem b hk))
      exact ⟨n, by rw [List.getElem?_append_left (hlt hk), hn], hw⟩
  · rw [List.length_append, List.length_singleton]
    exact h.complete_merge hindex
  · rw [poolWeights_insertKey_sum, h.toNat_weight_add htotal, Nat.add_assoc]
    exact h.sum
  · intro k w x y hget
    by_cases hk : k < nodes.length
    · rw [List.getElem?_append_left hk] at hget
      exact mergedLeast_append _ hk.le (h.merged k w x y hget)
    · obtain rfl : k = nodes.length := by
        have := (List.getElem?_eq_some_iff.mp hget).1
        rw [List.length_append, List.length_singleton] at this
        omega
      rw [List.getElem?_concat_length] at hget
      obtain ⟨rfl, rfl, rfl⟩ := Node.internal.inj (Option.some.inj hget)
      exact mergedLeast_append _ (Nat.le_refl _) (h.mergedLeast_new hindex htotal)
  · intro w sym hmem
    rcases List.mem_append.mp hmem with hmem | hmem
    · exact h.leaf w sym hmem
    · exact absurd (List.mem_singleton.mp hmem) nofun

end

theorem MergeState.toNat_index {leaves nodes : List Node} {pool : List Key} (hlen : leaves.length ≤ 256)
    (h : MergeState leaves pool nodes) : ∀ k ∈ pool, (BitVec.ofNat 9 k.index).toNat = k.index := by
  intro k hk
  obtain ⟨tree, hforest⟩ := h.forest
  have hlt := holdsAt_lt_length (hforest.holds k.index (List.mem_map_of_mem hk))
  have hcount := h.count
  have hpos := List.length_pos_of_mem hk
  exact Nat.mod_eq_of_lt (by omega)

/-! ## What BUILD leaves -/

theorem presentLeaves_leaf {freq : Vector Word 256} : ∀ n ∈ presentLeaves freq, ∃ w sym, n = Node.leaf w sym := by
  intro n hn
  rw [presentLeaves_eq_map] at hn
  obtain ⟨c, _, rfl⟩ := List.mem_map.mp hn
  exact ⟨c.1, c.2, rfl⟩

/-- The leaf of one symbol, where its count is above 0. -/
def presentLeaf (freq : Vector Word 256) (i : Fin 256) : Option Node :=
  if freq[i.val] = 0 then none else some (.leaf freq[i.val] (BitVec.ofNat 8 i.val))

theorem presentLeaves_eq (freq : Vector Word 256) :
    presentLeaves freq = (List.finRange 256).filterMap (presentLeaf freq) := rfl

/-- The present counts add up to the whole table's (41_frequency_tree.md R80). -/
theorem presentLeaves_weight_sum (freq : Vector Word 256) :
    ((presentLeaves freq).map fun n => n.weight.toNat).sum = freqSum freq := by
  have hskip (is : List (Fin 256)) :
      ((is.filterMap (presentLeaf freq)).map fun n => n.weight.toNat).sum =
        (is.map fun i : Fin 256 => freq[i.val].toNat).sum := by
    induction is with
    | nil => rfl
    | cons i is ih =>
      rw [List.map_cons, List.sum_cons, ← ih]
      by_cases hi : freq[i.val] = 0
      · rw [List.filterMap_cons_none (f := presentLeaf freq) (if_pos hi), hi]
        simp
      · rw [List.filterMap_cons_some (f := presentLeaf freq) (if_neg hi), List.map_cons, List.sum_cons]
        rfl
  rw [presentLeaves_eq, hskip, freqSum_eq_sum, ← List.sum_ofFn, List.ofFn_eq_map]

/-- The last pool of BUILD is its root alone, with all of the invariants (41_frequency_tree.md R80 to R86). -/
theorem buildNodes_poolState {freq : Vector Word 256} (hne : presentLeaves freq ≠ []) (hsum : freqSum freq < 2 ^ 64) :
    ∃ root : Key, root.index = (buildNodes (presentLeaves freq)).length - 1 ∧
      PoolState (freqSum freq) (presentLeaves freq) [root] (buildNodes (presentLeaves freq)) := by
  have hlen := presentLeaves_length_le freq
  have hstart := PoolState.start (presentLeaves_leaf (freq := freq))
  rw [presentLeaves_weight_sum] at hstart
  obtain ⟨last, hlast, hmerge, hpool⟩ := mergeLoop_invariant
    (P := fun pool nodes => MergeState (presentLeaves freq) pool nodes ∧
      PoolState (freqSum freq) (presentLeaves freq) pool nodes)
    (fun a b pool nodes h => ⟨h.1.merge _ hlen, h.2.merge (h.1.toNat_index hlen) hsum⟩)
    (presentLeaves freq).length _ _ (by simp) ⟨MergeState.start hne, hstart⟩
  have hnewest := hmerge.newest
  obtain ⟨root, rfl⟩ : ∃ root, last = [root] := by
    refine List.length_eq_one_iff.mp (Nat.le_antisymm hlast ?_)
    exact List.length_map Key.index ▸ List.length_pos_of_mem hnewest
  exact ⟨root, (List.mem_singleton.mp hnewest).symm, hpool⟩

/-- Settles O22: `PoolState.merged` of the arena BUILD ends with. -/
theorem buildMergesTwoLeastKeys : Obligations.BuildMergesTwoLeastKeys := by
  intro s hne hsum
  obtain ⟨root, _, hpool⟩ := buildNodes_poolState hne hsum
  exact ⟨_, exec_build_next hne hsum, rfl, fun k w a b hget => (hpool.merged k w a b hget).1⟩

theorem buildNodes_length_le {freq : Vector Word 256} (hne : presentLeaves freq ≠ []) :
    (buildNodes (presentLeaves freq)).length - 1 < 2 ^ 9 := by
  obtain ⟨_, hlength, _⟩ := buildNodes_spec hne
  have := presentLeaves_length_le freq
  omega

/-- BUILD's arena is a tree store, rooted at its last record (41_frequency_tree.md R83). -/
theorem storesTree_buildNodes {freq : Vector Word 256} (hne : presentLeaves freq ≠ []) :
    ∃ t, storesTree (buildNodes (presentLeaves freq))
      (some (BitVec.ofNat 9 ((buildNodes (presentLeaves freq)).length - 1))) (some t) := by
  obtain ⟨_, _, t, hfull⟩ := buildNodes_spec hne
  have hindex : (BitVec.ofNat 9 ((buildNodes (presentLeaves freq)).length - 1)).toNat =
      (buildNodes (presentLeaves freq)).length - 1 := Nat.mod_eq_of_lt (buildNodes_length_le hne)
  exact ⟨t, _, rfl, by rwa [hindex]⟩

/-- Settles O23: every merge adds two weights, and the last pool holds the total at the root. -/
theorem buildKeepsWeightInvariant : Obligations.BuildKeepsWeightInvariant := by
  intro s hne hsum
  obtain ⟨root, hroot, hpool⟩ := buildNodes_poolState hne hsum
  obtain ⟨n, hn, hw⟩ := hpool.weights root (List.mem_singleton_self root)
  have hindex : (BitVec.ofNat 9 ((buildNodes (presentLeaves s.freq)).length - 1)).toNat = root.index := by
    rw [hroot]
    exact Nat.mod_eq_of_lt (buildNodes_length_le hne)
  refine ⟨_, exec_build_next hne hsum, rfl, fun k w a b hget => (hpool.merged k w a b hget).2, _, n, rfl, ?_, ?_⟩
  · rw [hindex]
    exact hn
  · rw [hw]
    simpa [poolWeights] using hpool.sum

end Sys2Proof.Machine

/-! SUPPORT. A Huffman code costs at most 8 bits a byte (00_scope.md R10): BUILD's merges in rounds, each of which halves the
pool and adds no more weight than the total. -/

namespace Sys2Proof

/-! ## The cost of a tree -/

/-- The weight at the root of a tree. -/
def HuffTree.rootWeight : HuffTree → Nat
  | .leaf w _ => w.toNat
  | .node w _ _ => w.toNat

/-- The sum of the internal weights. -/
def HuffTree.cost : HuffTree → Nat
  | .leaf _ _ => 0
  | .node w l r => w.toNat + l.cost + r.cost

/-- Each leaf weighs what its symbol weighs, each internal node what its children weigh (41_frequency_tree.md R86). -/
def HuffTree.weighs (g : Byte → Nat) : HuffTree → Prop
  | .leaf w sym => w.toNat = g sym
  | .node w l r => w.toNat = l.rootWeight + r.rootWeight ∧ l.weighs g ∧ r.weighs g

/-- The weighted length of the paths is the sum of the internal weights, and the path to the tree once for its root. -/
theorem HuffTree.sum_paths {g : Byte → Nat} {t : HuffTree} (h : t.weighs g) : ∀ p : Machine.Bits,
    ((t.paths p).map fun x => g x.1 * x.2.length).sum = t.cost + p.length * t.rootWeight := by
  induction t with
  | leaf w sym =>
    intro p
    rw [HuffTree.weighs] at h
    simp [HuffTree.paths, HuffTree.cost, HuffTree.rootWeight, h, Nat.mul_comm]
  | node w l r ihl ihr =>
    intro p
    obtain ⟨hw, hl, hr⟩ := h
    rw [HuffTree.paths, List.map_append, List.sum_append, ihl hl, ihr hr, List.length_append, List.length_append,
      List.length_singleton, List.length_singleton, HuffTree.cost, HuffTree.rootWeight, hw]
    ring

theorem HuffTree.codeFor_of_mem_codes {t : HuffTree} (hnodup : t.symbols.Nodup) {x : Byte × Machine.Bits}
    (hx : x ∈ t.codes) : t.codeFor x.1 = x.2 := by
  have hsym : x.1 ∈ t.symbols := t.map_fst_codes ▸ List.mem_map_of_mem hx
  have hnodup' : (t.codes.map Prod.fst).Nodup := by rwa [t.map_fst_codes]
  exact congrArg Prod.snd (List.inj_on_of_nodup_map hnodup' (mem_codes_of_mem_symbols hsym) hx rfl)

/-- The length of an encoding, symbol by symbol. -/
theorem HuffTree.encoded_length {t : HuffTree} {v : List Byte} (hnodup : t.symbols.Nodup)
    (hsyms : ∀ sym, sym ∈ t.symbols ↔ sym ∈ v) :
    (t.encoded v).length = (t.codes.map fun x => v.count x.1 * x.2.length).sum := by
  have hset : v.toFinset = t.symbols.toFinset := by
    ext sym
    rw [List.mem_toFinset, List.mem_toFinset, hsyms]
  calc (t.encoded v).length
      = (v.map fun sym => (t.codeFor sym).length).sum := List.length_flatMap
    _ = ∑ sym ∈ t.symbols.toFinset, v.count sym * (t.codeFor sym).length := by
        rw [Finset.sum_list_map_count, hset]
        rfl
    _ = ((t.codes.map Prod.fst).map fun sym => v.count sym * (t.codeFor sym).length).sum := by
        rw [List.sum_toFinset _ hnodup, t.map_fst_codes]
    _ = (t.codes.map fun x => v.count x.1 * x.2.length).sum := by
        rw [List.map_map]
        refine congrArg List.sum (List.map_congr_left fun x hx => ?_)
        rw [Function.comp_apply, codeFor_of_mem_codes hnodup hx]

end Sys2Proof

namespace Sys2Proof.Machine

open Sys2Proof

/-! ## The cost of the arena -/

/-- The weight of an internal record. -/
def internalWeight : Node → Nat
  | .leaf _ _ => 0
  | .internal w _ _ => w.toNat

/-- The sum of an arena's internal weights. -/
def arenaCost (nodes : List Node) : Nat := (nodes.map internalWeight).sum

theorem visitsOf_internalWeight (nodes : List Node) (t : HuffTree) : ∀ (i : Nat) (p : Bits), holdsAt nodes i t →
    ((visitsOf nodes i t p).map fun v => internalWeight v.1).sum = t.cost := by
  induction t with
  | leaf w sym => exact fun _ _ _ => rfl
  | node w l r ihl ihr =>
    intro i p h
    obtain ⟨a, b, hi, hl, hr⟩ := h
    simp only [visitsOf, hi, List.map_cons, List.sum_cons, List.map_append, List.sum_append, ihl _ _ hl, ihr _ _ hr,
      HuffTree.cost, Nat.add_assoc]
    rfl

theorem arenaCost_of_fullTree {nodes : List Node} {i : Nat} {t : HuffTree} (h : fullTree nodes i t) :
    arenaCost nodes = t.cost := by
  rw [arenaCost, ← ((visitsOf_perm h).map internalWeight).sum_eq, List.map_map]
  exact visitsOf_internalWeight nodes t i [] h.1

/-! ## The rounds of the merge loop -/

/-- The pool's weights, in order, are at most these, one by one. -/
def dominates : List Nat → List Nat → Prop
  | [], _ => True
  | _ :: _, [] => False
  | x :: bounds, w :: ws => w ≤ x ∧ dominates bounds ws

theorem dominates_self (ws : List Nat) : dominates ws ws := by
  induction ws with
  | nil => exact trivial
  | cons w ws ih => exact ⟨Nat.le_refl w, ih⟩

/-- A least weight put in front leaves the bounds good. -/
theorem dominates_cons {bounds ws : List Nat} (h : dominates bounds ws) : ∀ {w : Nat}, (∀ x ∈ ws, w ≤ x) →
    ws.Pairwise (· ≤ ·) → dominates bounds (w :: ws) := by
  induction bounds generalizing ws with
  | nil => exact fun _ _ => trivial
  | cons x bounds ih =>
    intro w hw hsorted
    cases ws with
    | nil => exact absurd h id
    | cons y ws =>
      obtain ⟨hyx, hrest⟩ := h
      obtain ⟨hy, hws⟩ := List.pairwise_cons.mp hsorted
      exact ⟨(hw y List.mem_cons_self).trans hyx, ih hrest hy hws⟩

@[simp] theorem poolWeights_cons (k : Key) (pool : List Key) :
    poolWeights (k :: pool) = k.weight.toNat :: poolWeights pool := rfl

theorem poolWeights_sorted {pool : List Key} (h : pool.Pairwise keyLess) : (poolWeights pool).Pairwise (· ≤ ·) := by
  rw [poolWeights, List.pairwise_map]
  refine h.imp fun {a b} hab => ?_
  unfold keyLess at hab
  omega

theorem dominates_insertKey (k : Key) {bounds : List Nat} {pool : List Key} (hsorted : pool.Pairwise keyLess)
    (h : dominates bounds (poolWeights pool)) : dominates bounds (poolWeights (insertKey k pool)) := by
  induction pool generalizing bounds with
  | nil =>
    cases bounds with
    | nil => exact trivial
    | cons x bounds => exact absurd h id
  | cons a pool ih =>
    cases bounds with
    | nil => exact trivial
    | cons x bounds =>
      have hweights := poolWeights_sorted hsorted
      rw [poolWeights_cons] at h hweights
      obtain ⟨haw, hws⟩ := List.pairwise_cons.mp hweights
      obtain ⟨ha, hpool⟩ := List.pairwise_cons.mp hsorted
      obtain ⟨hax, hrest⟩ := h
      rw [insertKey]
      split
      · next hlt =>
        have hka := (Key.lt_iff k a).mp hlt
        unfold keyLess at hka
        exact ⟨(by omega : k.weight.toNat ≤ x), dominates_cons hrest haw hws⟩
      · exact ⟨hax, ih hpool hrest⟩

/-- The merge loop inside a round: `k` rounds are left after it, and `bounds` are the weights of the round's start that no
merge of it has used up. A round ends with at most `2 ^ k` keys, and costs no more than its first weights. -/
def CostState (total : Nat) (pool : List Key) (nodes : List Node) : Prop :=
  ∃ (k : Nat) (bounds : List Nat), dominates bounds (poolWeights pool) ∧
    arenaCost nodes + bounds.sum + k * total ≤ 8 * total ∧ 2 * pool.length ≤ 2 ^ (k + 1) + bounds.length

theorem CostState.start {leaves : List Node} (total : Nat) (hleaf : ∀ n ∈ leaves, ∃ w sym, n = Node.leaf w sym)
    (hlen : leaves.length ≤ 256) : CostState total (poolOf leaves 0) leaves := by
  have hcost : arenaCost leaves = 0 := by
    rw [arenaCost, List.sum_eq_zero_iff]
    intro x hx
    obtain ⟨n, hn, rfl⟩ := List.mem_map.mp hx
    obtain ⟨w, sym, rfl⟩ := hleaf n hn
    rfl
  exact ⟨8, [], trivial, by rw [hcost]; simp, by rw [poolOf_length]; simpa using by omega⟩

/-- A merge inside a round uses up two of its bounds. -/
theorem CostState.step {total k : Nat} {nodes : List Node} {a b : Key} {pool : List Key} {bounds : List Nat}
    (hsorted : pool.Pairwise keyLess) (hweight : (a.weight + b.weight).toNat = a.weight.toNat + b.weight.toNat)
    (hbounds : dominates bounds (poolWeights (a :: b :: pool)))
    (hcost : arenaCost nodes + bounds.sum + k * total ≤ 8 * total)
    (hlen : 2 * (a :: b :: pool).length ≤ 2 ^ (k + 1) + bounds.length) (htwo : 2 ≤ bounds.length) :
    CostState total (insertKey { weight := a.weight + b.weight, index := nodes.length } pool)
      (nodes ++ [.internal (a.weight + b.weight) (BitVec.ofNat 9 a.index) (BitVec.ofNat 9 b.index)]) := by
  rw [poolWeights_cons, poolWeights_cons] at hbounds
  match bounds, hbounds with
  | [], _ | [_], _ => exact absurd htwo (by simp)
  | x :: y :: bounds, ⟨hax, hby, hrest⟩ =>
    refine ⟨k, bounds, dominates_insertKey _ hsorted hrest, ?_, ?_⟩
    · simp only [List.sum_cons] at hcost
      simp only [arenaCost, List.map_append, List.sum_append, List.map_singleton, List.sum_singleton, internalWeight,
        hweight] at hcost ⊢
      omega
    · rw [insertKey_length]
      simp only [List.length_cons] at hlen
      omega

theorem CostState.merge {total : Nat} {leaves nodes : List Node} {a b : Key} {pool : List Key} (htotal : total < 2 ^ 64)
    (hpool : PoolState total leaves (a :: b :: pool) nodes) (h : CostState total (a :: b :: pool) nodes) :
    CostState total (insertKey { weight := a.weight + b.weight, index := nodes.length } pool)
      (nodes ++ [.internal (a.weight + b.weight) (BitVec.ofNat 9 a.index) (BitVec.ofNat 9 b.index)]) := by
  obtain ⟨_, _, hsorted⟩ := hpool.least
  have hweight := hpool.toNat_weight_add htotal
  obtain ⟨k, bounds, hbounds, hcost, hlen⟩ := h
  have htwo : 2 ≤ (a :: b :: pool).length := by simp
  by_cases hround : (a :: b :: pool).length ≤ 2 ^ k
  · -- The round is over: the next one starts, with the weights of the whole pool as its bounds.
    obtain ⟨k, rfl⟩ : ∃ j, k = j + 1 := by
      refine Nat.exists_eq_succ_of_ne_zero ?_
      rintro rfl
      omega
    have hsum := hpool.sum
    have hcount : (poolWeights (a :: b :: pool)).length = (a :: b :: pool).length := List.length_map _
    refine CostState.step (k := k) hsorted hweight (dominates_self (poolWeights (a :: b :: pool))) ?_ (by omega) (by omega)
    rw [hsum]
    rw [Nat.succ_mul] at hcost
    omega
  · rw [Nat.pow_succ] at hlen
    exact CostState.step hsorted hweight hbounds hcost (by rwa [Nat.pow_succ]) (by omega)

/-- The internal weights of the arena BUILD makes add up to at most eight times the total. -/
theorem arenaCost_buildNodes_le {freq : Vector Word 256} (hsum : freqSum freq < 2 ^ 64) :
    arenaCost (buildNodes (presentLeaves freq)) ≤ 8 * freqSum freq := by
  have hlen := presentLeaves_length_le freq
  have hleaf := presentLeaves_leaf (freq := freq)
  by_cases hne : presentLeaves freq = []
  · rw [hne]
    exact Nat.zero_le _
  have hstart := PoolState.start hleaf
  rw [presentLeaves_weight_sum] at hstart
  obtain ⟨last, _, _, _, hcost⟩ := mergeLoop_invariant
    (P := fun pool nodes => MergeState (presentLeaves freq) pool nodes ∧
      PoolState (freqSum freq) (presentLeaves freq) pool nodes ∧ CostState (freqSum freq) pool nodes)
    (fun a b pool nodes h => ⟨h.1.merge _ hlen, h.2.1.merge (h.1.toNat_index hlen) hsum, h.2.2.merge hsum h.2.1⟩)
    (presentLeaves freq).length _ _ (by simp) ⟨MergeState.start hne, hstart, CostState.start _ hleaf hlen⟩
  obtain ⟨k, bounds, _, hle, _⟩ := hcost
  rw [buildNodes]
  omega

/-! ## The tree of an input -/

theorem mem_presentLeaves {freq : Vector Word 256} {w : Word} {sym : Byte} :
    Node.leaf w sym ∈ presentLeaves freq ↔ w = freqOf freq sym ∧ freqOf freq sym ≠ 0 := by
  rw [presentLeaves_eq, List.mem_filterMap]
  constructor
  · rintro ⟨i, _, hi⟩
    obtain ⟨hne, hleaf⟩ := Option.ite_none_left_eq_some.mp hi
    obtain ⟨rfl, rfl⟩ := Node.leaf.inj (Option.some.inj hleaf)
    have hfreq : freqOf freq (BitVec.ofNat 8 i.val) = freq[i.val] := by
      unfold freqOf
      congr 1
      exact Nat.mod_eq_of_lt i.isLt
    rw [hfreq]
    exact ⟨rfl, hne⟩
  · rintro ⟨rfl, hne⟩
    have hsym : BitVec.ofNat 8 sym.toFin.val = sym := by
      rw [BitVec.val_toFin, BitVec.ofNat_toNat, BitVec.setWidth_eq]
    refine ⟨sym.toFin, List.mem_finRange _, (if_neg hne).trans ?_⟩
    exact congrArg (fun x => some (Node.leaf (freqOf freq sym) x)) hsym

/-- The symbols of a full tree are those of the arena's leaves. -/
theorem mem_symbols_of_fullTree {nodes : List Node} {i : Nat} {t : HuffTree} (h : fullTree nodes i t) {sym : Byte} :
    sym ∈ t.symbols ↔ ∃ w, Node.leaf w sym ∈ nodes := by
  have hvisits (n : Node) : n ∈ nodes ↔ ∃ p, (n, p) ∈ visitsOf nodes i t [] := by
    rw [← (visitsOf_perm h).mem_iff, List.mem_map]
    simp
  rw [← t.map_fst_paths [], ← leaves_visitsOf nodes t i [] h.1]
  simp only [List.mem_map, List.mem_filterMap, hvisits]
  constructor
  · rintro ⟨x, ⟨⟨n, p⟩, hmem, hx⟩, rfl⟩
    cases n with
    | leaf w s =>
      obtain rfl := Option.some.inj hx
      exact ⟨w, p, hmem⟩
    | internal w l r => exact absurd hx nofun
  · rintro ⟨w, p, hmem⟩
    exact ⟨(sym, p), ⟨_, hmem, rfl⟩, rfl⟩

theorem weight_of_holdsAt {nodes : List Node} {i : Nat} {t : HuffTree} {n : Node} (h : holdsAt nodes i t)
    (hn : nodes[i]? = some n) : n.weight.toNat = t.rootWeight := by
  cases t with
  | leaf w sym =>
    obtain rfl := Option.some.inj (hn.symm.trans h)
    rfl
  | node w l r =>
    obtain ⟨a, b, hi, _⟩ := h
    obtain rfl := Option.some.inj (hn.symm.trans hi)
    rfl

/-- A tree of the arena weighs what the arena's records say. -/
theorem weighs_of_holdsAt {nodes : List Node} {g : Byte → Nat} (hleaf : ∀ w sym, Node.leaf w sym ∈ nodes → w.toNat = g sym)
    (hmerged : ∀ k w a b, nodes[k]? = some (.internal w a b) → mergedLeast nodes k w a.toNat b.toNat) {t : HuffTree} :
    ∀ {i : Nat}, holdsAt nodes i t → t.weighs g := by
  induction t with
  | leaf w sym => exact fun h => hleaf w sym (List.mem_of_getElem? h)
  | node w l r ihl ihr =>
    rintro i ⟨a, b, hi, hl, hr⟩
    obtain ⟨_, x, y, hx, hy, hw⟩ := hmerged i w a b hi
    rw [weight_of_holdsAt hl hx, weight_of_holdsAt hr hy] at hw
    exact ⟨hw, ihl hl, ihr hr⟩

theorem freqOf_countsOf_ne_zero {v : List Byte} (hlt : v.length < 2 ^ 64) (sym : Byte) :
    freqOf (countsOf v) sym ≠ 0 ↔ sym ∈ v := by
  rw [← List.count_pos_iff, ← freqOf_countsOf hlt, Nat.pos_iff_ne_zero, ne_eq, ne_eq, ← BitVec.toNat_inj]
  rfl

theorem presentLeaves_countsOf_ne_nil {v : List Byte} (hne : v ≠ []) (hlt : v.length < 2 ^ 64) :
    presentLeaves (countsOf v) ≠ [] := by
  obtain ⟨sym, hsym⟩ := List.exists_mem_of_ne_nil v hne
  rw [ne_eq, presentLeaves_eq_nil_iff]
  exact fun h => (freqOf_countsOf_ne_zero hlt sym).mpr hsym (h sym)

/-- BUILD of the counts of a non-empty input makes a tree of exactly its symbols, whose codes cost at most 8 bits a byte
(00_scope.md R10, 41_frequency_tree.md R80). -/
theorem buildNodes_countsOf {v : List Byte} (hne : v ≠ []) (hlt : v.length < 2 ^ 64) :
    ∃ t, fullTree (buildNodes (presentLeaves (countsOf v))) ((buildNodes (presentLeaves (countsOf v))).length - 1) t ∧
      (∀ sym, sym ∈ t.symbols ↔ sym ∈ v) ∧ (t.encoded v).length ≤ 8 * v.length := by
  have hsum := freqSum_countsOf hlt
  have hcount := freqOf_countsOf hlt
  have hleaves := presentLeaves_countsOf_ne_nil hne hlt
  obtain ⟨hfirst, _, t, hfull⟩ := buildNodes_spec hleaves
  obtain ⟨root, _, hpool⟩ := buildNodes_poolState hleaves (by omega : freqSum (countsOf v) < 2 ^ 64)
  have hcost := arenaCost_buildNodes_le (by omega : freqSum (countsOf v) < 2 ^ 64)
  rw [arenaCost_of_fullTree hfull, hsum] at hcost
  have hweighs : t.weighs v.count :=
    weighs_of_holdsAt (fun w sym h => by rw [(mem_presentLeaves.mp (hpool.leaf w sym h)).1, hcount]) hpool.merged hfull.1
  have hsyms (sym : Byte) : sym ∈ t.symbols ↔ sym ∈ v := by
    rw [mem_symbols_of_fullTree hfull, ← freqOf_countsOf_ne_zero hlt]
    constructor
    · rintro ⟨w, hw⟩
      exact (mem_presentLeaves.mp (hpool.leaf w sym hw)).2
    · exact fun hsym => ⟨_, hfirst.subset (mem_presentLeaves.mpr ⟨rfl, hsym⟩)⟩
  refine ⟨t, hfull, hsyms, ?_⟩
  rw [HuffTree.encoded_length hfull.2.2 hsyms]
  cases t with
  | leaf w sym =>
    have := List.count_le_length (a := sym) (l := v)
    simp only [HuffTree.codes, List.map_singleton, List.sum_singleton, List.length_singleton]
    omega
  | node w l r => simpa [HuffTree.codes, HuffTree.sum_paths hweighs] using hcost

end Sys2Proof.Machine

/-! SUPPORT. COMPRESS (45_orchestration.md R114 to R118): what each of its stages leaves, as a function of the input. -/

namespace Sys2Proof.Machine

open Sys2Proof

/-! ## The stages of COMPRESS -/

/-- The records BUILD makes of an input's counts, none for the empty input (45_orchestration.md R115). -/
def nodesOf (v : List Byte) : List Node := buildNodes (presentLeaves (countsOf v))

/-- The root of the tree of an input. -/
def rootOf (v : List Byte) : Option NodeIndex :=
  if v = [] then none else some (BitVec.ofNat 9 ((nodesOf v).length - 1))

/-- The state after COUNT, the tree step and GENCODES. -/
def coded (v : List Byte) (c : Vector Bits 256) (s : State) : State :=
  { s with
    freq := countsOf v, nodes := nodesOf v, root := rootOf v, tv := true, code := c, cv := true, bv := false, bitLen := 0,
    bitbuf := [] }

/-- The state after ENCODE. -/
def packed (v : List Byte) (c : Vector Bits 256) (s : State) : State :=
  { coded v c s with
    bitbuf := packBytes (ceil8 (v.flatMap (codeOf c)).length) (v.flatMap (codeOf c))
    bitLen := BitVec.ofNat 64 (v.flatMap (codeOf c)).length
    bv := true }

/-- An input's tree and codes: the tree has exactly its symbols and costs at most 8 bits a byte (00_scope.md R10). -/
structure InputTree (v : List Byte) (c : Vector Bits 256) (tree : HuffTree) : Prop where
  stores : storesTree (nodesOf v) (rootOf v) (some tree)
  symbols : ∀ sym, sym ∈ tree.symbols ↔ sym ∈ v
  codes : ∀ sym, codeOf c sym = tree.codeFor sym
  cost : (tree.encoded v).length ≤ 8 * v.length

theorem InputTree.flatMap_codeOf {v : List Byte} {c : Vector Bits 256} {tree : HuffTree} (h : InputTree v c tree) :
    v.flatMap (codeOf c) = tree.encoded v := by
  rw [HuffTree.encoded, funext h.codes]

theorem InputTree.nodup {v : List Byte} {c : Vector Bits 256} {tree : HuffTree} (h : InputTree v c tree) :
    tree.symbols.Nodup := storesTree_nodup h.stores tree rfl

theorem exists_inputTree {v : List Byte} (hne : v ≠ []) (hlt : v.length < 2 ^ 64) :
    ∃ c tree, codeTable (nodesOf v) (rootOf v) = .ok c ∧ InputTree v c tree := by
  obtain ⟨tree, hfull, hsyms, hcost⟩ := buildNodes_countsOf hne hlt
  have hindex : (BitVec.ofNat 9 ((nodesOf v).length - 1)).toNat = (nodesOf v).length - 1 :=
    Nat.mod_eq_of_lt (buildNodes_length_le (presentLeaves_countsOf_ne_nil hne hlt))
  have hstore : storesTree (nodesOf v) (rootOf v) (some tree) := ⟨_, if_neg hne, by rwa [hindex]⟩
  obtain ⟨c, hc, _, hcodes⟩ := codeTable_of_storesTree hstore
  exact ⟨c, tree, hc, hstore, hsyms, hcodes tree rfl, hcost⟩

theorem nodesOf_nil : nodesOf [] = [] := by
  have hleaves : presentLeaves (countsOf []) = [] := (presentLeaves_eq_nil_iff _).mpr freqOf_replicate_zero
  rw [nodesOf, hleaves]
  rfl

theorem storesTree_nodesOf_nil : storesTree (nodesOf []) (rootOf []) none := ⟨rfl, nodesOf_nil⟩

theorem InputTree.codeOf_ne_nil {v : List Byte} {c : Vector Bits 256} {tree : HuffTree} (h : InputTree v c tree) :
    ∀ sym ∈ v, codeOf c sym ≠ [] := fun sym hsym => by
  rwa [h.codes, HuffTree.codeFor_ne_nil_iff, h.symbols]

/-- Every input, the empty one too, has a tree and a code table, which has a code for each of its bytes. -/
theorem exists_codeTable {v : List Byte} (hlt : v.length < 2 ^ 64) :
    ∃ t c, storesTree (nodesOf v) (rootOf v) t ∧ codeTable (nodesOf v) (rootOf v) = .ok c ∧
      ∀ sym ∈ v, codeOf c sym ≠ [] := by
  by_cases hne : v = []
  · subst hne
    exact ⟨none, _, storesTree_nodesOf_nil, rfl, fun sym h => absurd h List.not_mem_nil⟩
  · obtain ⟨c, tree, hc, htree⟩ := exists_inputTree hne hlt
    exact ⟨some tree, c, htree.stores, hc, htree.codeOf_ne_nil⟩

theorem compressTree_of_inputIs {s : State} {v : List Byte} (h : inputIs s v) :
    compressTree { s with freq := countsOf v } = .done { invalidateAll s with
      freq := countsOf v, nodes := nodesOf v, root := rootOf v, tv := true } := by
  have hlt := length_lt_of_inputIs h
  by_cases hne : v = []
  · subst hne
    have hlen : s.inLen = 0 := BitVec.eq_of_toNat_eq h.1
    rw [compressTree, if_pos hlen, nodesOf_nil]
    rfl
  · have hlen : s.inLen ≠ 0 := fun h0 => hne (List.length_eq_zero_iff.mp (h.1.symm.trans (congrArg BitVec.toNat h0)))
    have hsum : freqSum (countsOf v) < 2 ^ 64 := (freqSum_countsOf hlt).trans_lt hlt
    rw [compressTree, if_neg hlen,
      buildBody_done (s := { s with freq := countsOf v }) (presentLeaves_countsOf_ne_nil hne hlt) hsum, rootOf, if_neg hne]
    rfl

/-- COMPRESS up to its last step (45_orchestration.md R114). -/
theorem compressBody_of_inputIs {s : State} {v : List Byte} {c : Vector Bits 256} (h : inputIs s v)
    (hc : codeTable (nodesOf v) (rootOf v) = .ok c) (hcodes : ∀ sym ∈ v, codeOf c sym ≠ []) :
    compressBody s =
      if s.cfg.bitbufCap < ceil8 (v.flatMap (codeOf c)).length then
        .raised (plainError .bitbufOverflow (ceil8 (v.flatMap (codeOf c)).length)) (coded v c s)
      else serializeBody (packed v c s) := by
  have hcount : (countBody s).andThen compressTree = .done { invalidateAll s with
      freq := countsOf v, nodes := nodesOf v, root := rootOf v, tv := true } := by
    rw [countBody_of_inputIs h, Body.andThen, compressTree_of_inputIs h]
  have hgencodes : ((countBody s).andThen compressTree).andThen gencodesBody = .done (coded v c s) := by
    rw [hcount, Body.andThen, gencodesBody]
    simp only [hc]
    rfl
  have hbits : encodeBits (coded v c s).inMem (coded v c s).code 0 (coded v c s).inLen.toNat =
      .ok (v.flatMap (codeOf c)) := encodeBits_of_inputIs (s := coded v c s) h hcodes
  rw [compressBody, hgencodes, Body.andThen, encodeBody, hbits, Body.ofExcept_ok]
  exact apply_ite (Body.andThen · serializeBody) _ _ _

theorem exec_compress_eq {s : State} {v : List Byte} (h : inputIs s v) :
    exec .compress s = finish (compressBody s).losingOut :=
  exec_eq_finish (i := .compress) (precheck_readsIn (inLen_le_of_inputIs h))

theorem storesBits_packed {s : State} {v : List Byte} {c : Vector Bits 256} (hlt : (v.flatMap (codeOf c)).length < 2 ^ 64) :
    storesBits (packed v c s) (v.flatMap (codeOf c)) := ⟨Nat.mod_eq_of_lt hlt, rfl⟩

/-- COMPRESS on an input with a stored tree, in terms of its container (45_orchestration.md R114). -/
theorem compressBody_of_stores {s : State} {v : List Byte} {c : Vector Bits 256} {t : Option HuffTree}
    (h : inputIs s v) (hc : codeTable (nodesOf v) (rootOf v) = .ok c) (hcodes : ∀ sym ∈ v, codeOf c sym ≠ [])
    (hstore : storesTree (nodesOf v) (rootOf v) t) (hlt : (v.flatMap (codeOf c)).length < 2 ^ 64)
    (hcap : ceil8 (v.flatMap (codeOf c)).length ≤ s.cfg.bitbufCap) :
    compressBody s =
      if s.cfg.outCap < (containerOf t (v.flatMap (codeOf c))).length then
        .raised (plainError .outOverflow (containerOf t (v.flatMap (codeOf c))).length) (packed v c s)
      else .done (writeOut (containerOf t (v.flatMap (codeOf c))) (containerOf t (v.flatMap (codeOf c))).length
        (packed v c s)) := by
  rw [compressBody_of_inputIs h hc hcodes, if_neg (Nat.not_lt.mpr hcap)]
  exact serializeBody_of_stores (s := packed v c s) hstore (storesBits_packed hlt)

theorem exec_compress_bitbufOverflow {s : State} {v : List Byte} {c : Vector Bits 256} {tree : HuffTree}
    (h : inputIs s v) (hc : codeTable (nodesOf v) (rootOf v) = .ok c) (htree : InputTree v c tree)
    (hcap : s.cfg.bitbufCap < ceil8 (tree.encoded v).length) :
    exec .compress s = .next (completeError (plainError .bitbufOverflow (ceil8 (tree.encoded v).length))
      (outLost (coded v c s))) := by
  rw [exec_compress_eq h, compressBody_of_inputIs h hc htree.codeOf_ne_nil, htree.flatMap_codeOf, if_pos hcap]
  rfl

section

variable {s : State} {v : List Byte} {c : Vector Bits 256} {tree : HuffTree} (hvalid : s.cfg.valid = true)
  (h : inputIs s v) (hc : codeTable (nodesOf v) (rootOf v) = .ok c) (htree : InputTree v c tree)
  (hcap : ceil8 (tree.encoded v).length ≤ s.cfg.bitbufCap)

include hvalid h hc htree hcap

theorem exec_compress_outOverflow (hout : s.cfg.outCap < (containerOf (some tree) (tree.encoded v)).length) :
    exec .compress s = .next (completeError (plainError .outOverflow (containerOf (some tree) (tree.encoded v)).length)
      (outLost (packed v c s))) := by
  have hbits := htree.flatMap_codeOf
  rw [exec_compress_eq h, compressBody_of_stores h hc htree.codeOf_ne_nil htree.stores
    (bits_lt_of_valid hvalid (by rwa [hbits])) (by rwa [hbits]), hbits, if_pos hout]
  rfl

theorem exec_compress_next (hout : (containerOf (some tree) (tree.encoded v)).length ≤ s.cfg.outCap) :
    exec .compress s = .next (completeOk (writeOut (containerOf (some tree) (tree.encoded v))
      (containerOf (some tree) (tree.encoded v)).length (packed v c s))) := by
  have hbits := htree.flatMap_codeOf
  rw [exec_compress_eq h, compressBody_of_stores h hc htree.codeOf_ne_nil htree.stores
    (bits_lt_of_valid hvalid (by rwa [hbits])) (by rwa [hbits]), hbits, if_neg (Nat.not_lt.mpr hout)]
  rfl

end

/-- COMPRESS of the empty input (45_orchestration.md R115). -/
theorem exec_compress_empty {s : State} (h : inputIs s []) (hout : 16 ≤ s.cfg.outCap) :
    exec .compress s = .next (completeOk (writeOut (List.replicate 16 0) 16
      (packed [] (Vector.replicate 256 []) s))) := by
  rw [exec_compress_eq h, compressBody_of_stores h rfl (fun sym h => absurd h List.not_mem_nil) storesTree_nodesOf_nil
    (by decide) (Nat.zero_le _)]
  exact congrArg (fun b => finish (Body.losingOut b)) (if_neg (Nat.not_lt.mpr hout))

/-! ## The obligations -/

/-- Settles O41: `exec_compress_empty`. -/
theorem compressOfEmptyInput : Obligations.CompressOfEmptyInput := by
  intro s hlen hout
  have hin : inputIs s [] := ⟨congrArg BitVec.toNat hlen, Nat.zero_le _, fun a ha => absurd ha (Nat.not_lt_zero a)⟩
  refine ⟨writeBytes s.outMem 0 (List.replicate 16 0), ?_, wroteFromZero_writeBytes _ _⟩
  rw [exec_compress_empty hin hout, completeOk, writeOut, packed, coded, nodesOf_nil]
  rfl

/-- Settles O42: one lemma for each way COMPRESS ends. -/
theorem compressWritesContainer : Obligations.CompressWritesContainer := by
  intro s v hvalid hin hne
  have hlt := length_lt_of_inputIs hin
  obtain ⟨c, tree, hc, htree⟩ := exists_inputTree hne hlt
  have hbuild := exec_build_next (s := { s with freq := countsOf v }) (presentLeaves_countsOf_ne_nil hne hlt)
    ((freqSum_countsOf hlt).trans_lt hlt)
  have hroot : rootOf v = some (BitVec.ofNat 9 ((nodesOf v).length - 1)) := if_neg hne
  have hcost := htree.cost
  have hbits := htree.flatMap_codeOf
  refine ⟨countsOf v, nodesOf v, rootOf v, c, tree, ?_, htree.stores, htree.symbols, freqOf_countsOf hlt, htree.codes,
    by omega, fun hcap hout => ⟨writeBytes s.outMem 0 (containerOf (some tree) (tree.encoded v)), ?_, ?_⟩, fun hcap => ?_,
    fun hcap hout => ?_⟩
  · rw [hbuild, hroot]
    rfl
  · rw [exec_compress_next hvalid hin hc htree hcap hout, ← hbits]
    rfl
  · exact wroteFromZero_writeBytes _ _
  · exact exec_compress_bitbufOverflow hin hc htree hcap
  · rw [exec_compress_outOverflow hvalid hin hc htree hcap hout, ← hbits]
    rfl

theorem Config.conforming_bounds {c : Config} (h : c.conforming = true) :
    c.valid = true ∧ c.inCap + 4871 ≤ c.outCap ∧ c.inCap ≤ c.bitbufCap := by
  simpa only [Config.conforming, Bool.and_eq_true, decide_eq_true_eq, and_assoc] using h

/-- Settles O43: 8 bits a byte pack into as many bytes as the input has. -/
theorem compressNeverFailsWhenConforming : Obligations.CompressNeverFailsWhenConforming := by
  intro s v hconf hin herr
  obtain ⟨hvalid, hout, hbuf⟩ := Config.conforming_bounds hconf
  have hlt := length_lt_of_inputIs hin
  by_cases hne : v = []
  · subst hne
    exact ⟨_, exec_compress_empty hin (by omega), rfl, herr, Nat.le_of_ble_eq_true rfl⟩
  · obtain ⟨c, tree, hc, htree⟩ := exists_inputTree hne hlt
    have hfits := hin.2.1
    have hcost := htree.cost
    have hceil := ceil8_bounds (tree.encoded v).length
    have hblock := blockOf_length_le (storesTree_nodup htree.stores)
    have hlen := containerOf_length (some tree) (tree.encoded v)
    refine ⟨_, exec_compress_next hvalid hin hc htree (by omega) (by omega), rfl, herr, ?_⟩
    refine (Nat.mod_le _ _).trans ?_
    omega

theorem ceil8_mono {m n : Nat} (h : m ≤ n) : ceil8 m ≤ ceil8 n := by
  have := ceil8_bounds m
  have := ceil8_bounds n
  omega

theorem storedContainer_length {t : Option HuffTree} {s : State} (h : storesTree s.nodes s.root t)
    (hbuf : ceil8 s.bitLen.toNat ≤ s.bitbuf.length) : (storedContainer t s).length = containerSize s := by
  simp only [storedContainer, List.length_append, be64Bytes_length, List.length_take, containerSize,
    treeBlockSize_of_storesTree h]
  omega

/-- Settles O44: the stages are functions of the input, and OUT holds what was written of them. -/
theorem compressIsFunctionOfInput : Obligations.CompressIsFunctionOfInput := by
  intro s1 s2 t1 t2 v hcfg hin1 hin2 hexec1 hexec2
  obtain ⟨t, c, hstore, hc, hcodes⟩ := exists_codeTable (length_lt_of_inputIs hin1)
  rw [exec_compress_eq hin1, compressBody_of_inputIs hin1 hc hcodes,
    serializeBody_of_storesTree (s := packed v c s1) hstore] at hexec1
  rw [exec_compress_eq hin2, compressBody_of_inputIs hin2 hc hcodes,
    serializeBody_of_storesTree (s := packed v c s2) hstore] at hexec2
  have hout : (packed v c s1).cfg.outCap = (packed v c s2).cfg.outCap := congrArg Config.outCap hcfg
  have hsize : containerSize (packed v c s1) = containerSize (packed v c s2) := rfl
  by_cases hcap : s1.cfg.bitbufCap < ceil8 (v.flatMap (codeOf c)).length
  · rw [if_pos hcap] at hexec1
    rw [if_pos (hcfg ▸ hcap)] at hexec2
    obtain rfl := Host.Outcome.next.inj hexec1
    obtain rfl := Host.Outcome.next.inj hexec2
    exact ⟨rfl, fun _ _ => rfl, rfl, rfl, rfl, rfl, rfl, rfl, rfl, rfl, rfl⟩
  rw [if_neg hcap] at hexec1
  rw [if_neg (hcfg ▸ hcap)] at hexec2
  by_cases hfit : (packed v c s1).cfg.outCap < containerSize (packed v c s1)
  · rw [if_pos hfit] at hexec1
    rw [if_pos (hout ▸ hfit)] at hexec2
    obtain rfl := Host.Outcome.next.inj hexec1
    obtain rfl := Host.Outcome.next.inj hexec2
    exact ⟨rfl, fun _ _ => rfl, rfl, rfl, rfl, rfl, rfl, rfl, rfl, rfl, rfl⟩
  · rw [if_neg hfit] at hexec1
    rw [if_neg (hout ▸ hfit)] at hexec2
    obtain rfl := Host.Outcome.next.inj hexec1
    obtain rfl := Host.Outcome.next.inj hexec2
    have hlen : (storedContainer t (packed v c s1)).length = containerSize (packed v c s1) := by
      have hmod := Nat.mod_le (v.flatMap (codeOf c)).length (2 ^ 64)
      exact storedContainer_length (s := packed v c s1) hstore ((ceil8_mono hmod).trans_eq (packBytes_length _ _).symm)
    refine ⟨rfl, fun a ha => ?_, rfl, rfl, rfl, rfl, rfl, rfl, rfl, rfl, rfl⟩
    have hwritten : a < (storedContainer t (packed v c s1)).length := by
      rw [hlen]
      exact Nat.lt_of_lt_of_le ha (Nat.mod_le _ _)
    exact ((wroteFromZero_writeBytes s1.outMem _).1 a hwritten).trans
      ((wroteFromZero_writeBytes s2.outMem _).1 a hwritten).symm

theorem eq_of_outputIs {s : State} {xs ys : List Byte} (hx : outputIs s xs) (hy : outputIs s ys) : xs = ys := by
  refine eq_of_bytesAt (m := s.outMem) (a := 0) (hx.1.symm.trans hy.1) (fun a ha => ?_) fun a ha => ?_
  · rw [Nat.zero_add, hx.2 a ha]
  · rw [Nat.zero_add, hy.2 a ha]

/-- Settles O46: the container of COMPRESS's tree is the container UNCOMPRESS reads. -/
theorem uncompressAfterCompressIsIdentity : Obligations.UncompressAfterCompressIsIdentity := by
  intro s t v c hvalid hin herr hexec hterr hout u hcfg hinu hfit
  obtain ⟨_, hlow, hhigh, _⟩ := Config.valid_bounds hvalid
  by_cases hne : v = []
  · subst hne
    rw [exec_compress_empty hin hlow] at hexec
    obtain rfl := Host.Outcome.next.inj hexec
    have hzeros : c = List.replicate 16 0 :=
      eq_of_outputIs hout (outputIs_of_writeBytes (m := s.outMem) rfl rfl (by simp))
    have hempty : containerOf none [] = List.replicate 16 0 := rfl
    exact ⟨_, exec_uncompress_empty (by rwa [hempty, ← hzeros]), rfl, rfl, fun a ha => absurd ha (Nat.not_lt_zero a)⟩
  obtain ⟨codes, tree, hc, htree⟩ := exists_inputTree hne (length_lt_of_inputIs hin)
  by_cases hcap : s.cfg.bitbufCap < ceil8 (tree.encoded v).length
  · rw [exec_compress_bitbufOverflow hin hc htree hcap] at hexec
    obtain rfl := Host.Outcome.next.inj hexec
    exact absurd hterr nofun
  by_cases hover : s.cfg.outCap < (containerOf (some tree) (tree.encoded v)).length
  · rw [exec_compress_outOverflow hvalid hin hc htree (Nat.not_lt.mp hcap) hover] at hexec
    obtain rfl := Host.Outcome.next.inj hexec
    exact absurd hterr nofun
  rw [exec_compress_next hvalid hin hc htree (Nat.not_lt.mp hcap) (Nat.not_lt.mp hover)] at hexec
  obtain rfl := Host.Outcome.next.inj hexec
  obtain rfl : c = containerOf (some tree) (tree.encoded v) :=
    eq_of_outputIs hout (outputIs_of_writeBytes rfl rfl (by omega))
  rw [← hcfg] at hvalid hcap
  have hsyms : ∀ sym ∈ v, sym ∈ tree.symbols := fun sym => (htree.symbols sym).mpr
  exact ⟨_, exec_uncompress_encoded hvalid htree.nodup hsyms hinu (Nat.not_lt.mp hcap) hfit, rfl,
    outputIs_of_writeBytes rfl rfl (length_lt_of_inputIs hin)⟩

end Sys2Proof.Machine

/-! SUPPORT. Every error that a command raises has an error code (60_exceptions.md R131): the parser of DESERIALIZE, and the
walk of ENCODE. -/

namespace Sys2Proof.Machine

open Sys2Proof

/-- An error this computation raises has a code. -/
def raisesCode {α : Type} (r : Except Stop α) : Prop := ∀ e, r = .error (.error e) → e.code ≠ .none

theorem raisesCode_ok {α : Type} (a : α) : raisesCode (.ok a) := nofun

theorem raisesCode_corrupt {α : Type} (d : CorruptDetail) (info : Nat) :
    raisesCode (.error (.error (corruptError d info)) : Except Stop α) := by
  intro e h
  obtain rfl := Stop.error.inj (Except.error.inj h)
  exact nofun

theorem raisesCode_plain {α : Type} {c : ErrCode} (hc : c ≠ .none) (info : Nat) :
    raisesCode (.error (.error (plainError c info)) : Except Stop α) := by
  intro e h
  obtain rfl := Stop.error.inj (Except.error.inj h)
  exact hc

/-- A raise passed on. -/
theorem raisesCode.rethrow {α β : Type} {r : Except Stop α} {e : Stop} (h : raisesCode r) (he : r = .error e) :
    raisesCode (.error e : Except Stop β) := by
  intro e' he'
  obtain rfl := Except.error.inj he'
  exact h e' he

theorem memRead_raisesCode (m : Memory) (a : Nat) : raisesCode (memRead m a) := by
  intro e h
  exact absurd (memRead_error h).1 nofun

theorem memReadBytes_raisesCode (m : Memory) (a n : Nat) : raisesCode (memReadBytes m a n) := by
  intro e h
  obtain ⟨_, _, _, _, he⟩ := memReadBytes_error_unwritten h
  exact absurd he nofun

theorem memRead64_raisesCode (m : Memory) (a : Nat) : raisesCode (memRead64 m a) := by
  intro e h
  obtain ⟨_, _, _, _, he⟩ := memRead64_error_unwritten h
  exact absurd he nofun

theorem parseTreeLength_raisesCode (m : Memory) (n : Nat) : raisesCode (parseTreeLength m n) := by
  unfold parseTreeLength
  split
  · exact raisesCode_corrupt _ _
  split
  · next h => exact (memRead64_raisesCode m 0).rethrow h
  split
  · exact raisesCode_corrupt _ _
  · exact raisesCode_ok _

theorem readRecord_raisesCode (m : Memory) (last pos count : Nat) (seen : List Byte) :
    raisesCode (readRecord m last pos count seen) := by
  unfold readRecord
  split
  · exact raisesCode_corrupt _ _
  split
  · next h => exact (memRead_raisesCode m pos).rethrow h
  split
  · exact raisesCode_corrupt _ _
  split
  · exact raisesCode_corrupt _ _
  split
  · exact raisesCode_corrupt _ _
  split
  · next h => exact (memRead64_raisesCode m (pos + 1)).rethrow h
  split
  · split
    · next h => exact (memRead_raisesCode m (pos + 9)).rethrow h
    split
    · exact raisesCode_corrupt _ _
    · exact raisesCode_ok _
  · exact raisesCode_ok _

theorem parseRecords_raisesCode (m : Memory) (last fuel : Nat) : ∀ stack pos nodes seen,
    raisesCode (parseRecords m last fuel stack pos nodes seen) := by
  induction fuel with
  | zero =>
    intro stack pos nodes seen
    cases stack with
    | nil => exact raisesCode_ok _
    | cons slot stack => exact nofun
  | succ fuel ih =>
    intro stack pos nodes seen
    cases stack with
    | nil => exact raisesCode_ok _
    | cons slot stack =>
      rw [parseRecords_succ]
      split
      · next h => exact (readRecord_raisesCode m last pos nodes.length seen).rethrow h
      · exact ih _ _ _ _

theorem parseTree_raisesCode (m : Memory) (len : Nat) : raisesCode (parseTree m len) := by
  unfold parseTree
  split
  · exact raisesCode_ok _
  split
  · next h => exact (parseRecords_raisesCode m _ _ _ _ _ _).rethrow h
  split
  · exact raisesCode_corrupt _ _
  · exact raisesCode_ok _

theorem parsePadding_raisesCode (m : Memory) (r b : Nat) : raisesCode (parsePadding m r b) := by
  unfold parsePadding
  split
  · exact raisesCode_ok _
  split
  · next h => exact (memRead_raisesCode m _).rethrow h
  split
  · exact raisesCode_corrupt _ _
  · exact raisesCode_ok _

theorem parseBits_raisesCode (m : Memory) (n len cap : Nat) : raisesCode (parseBits m n len cap) := by
  unfold parseBits
  split
  · exact raisesCode_corrupt _ _
  split
  · next h => exact (memRead64_raisesCode m _).rethrow h
  split
  · exact raisesCode_corrupt _ _
  split
  · exact raisesCode_corrupt _ _
  split
  · exact raisesCode_corrupt _ _
  split
  · next h => exact (parsePadding_raisesCode m _ _).rethrow h
  split
  · exact raisesCode_plain (by decide) _
  split
  · next h => exact (memReadBytes_raisesCode m _ _).rethrow h
  · exact raisesCode_ok _

theorem parseContainer_raisesCode (m : Memory) (n cap : Nat) : raisesCode (parseContainer m n cap) := by
  unfold parseContainer
  split
  · next h => exact (parseTreeLength_raisesCode m n).rethrow h
  split
  · next h => exact (parseTree_raisesCode m _).rethrow h
  split
  · next h => exact (parseBits_raisesCode m n _ cap).rethrow h
  · exact raisesCode_ok _

theorem encodeBits_raisesCode (m : Memory) (code : Vector Bits 256) (n : Nat) : ∀ i, raisesCode (encodeBits m code i n) := by
  induction n with
  | zero => exact fun _ => raisesCode_ok _
  | succ n ih =>
    intro i
    unfold encodeBits
    split
    · next h => exact (memRead_raisesCode m i).rethrow h
    split
    · exact raisesCode_plain (by decide) _
    split
    · next h => exact (ih (i + 1)).rethrow h
    · exact raisesCode_ok _

/-- ENCODE's walk breaks off only at an unwritten byte (70_reset_and_hazards.md R153). -/
theorem encodeBits_fault {m : Memory} {code : Vector Bits 256} {n i : Nat} {f : Fault}
    (h : encodeBits m code i n = .error (.fault f)) : ∃ x, x < i + n ∧ readByte m x = none := by
  induction n generalizing i with
  | zero => exact absurd h nofun
  | succ n ih =>
    unfold encodeBits at h
    split at h
    · next hread => exact ⟨i, by omega, (memRead_error hread).2⟩
    split at h
    · exact absurd h nofun
    split at h
    · next hrest =>
      obtain rfl := Except.error.inj h
      obtain ⟨x, hx, hnone⟩ := ih hrest
      exact ⟨x, by omega, hnone⟩
    · exact absurd h nofun

/-- Where no symbol has a code ENCODE's walk answers only on the empty input. -/
theorem encodeBits_eq_nil {m : Memory} {code : Vector Bits 256} {n i : Nat} {bits : Bits}
    (hcode : ∀ sym, codeOf code sym = []) (h : encodeBits m code i n = .ok bits) : bits = [] := by
  cases n with
  | zero => exact (Except.ok.inj h).symm
  | succ n =>
    unfold encodeBits at h
    split at h
    · exact absurd h nofun
    · simp only [hcode] at h
      exact absurd h nofun

end Sys2Proof.Machine

/-! SUPPORT. The invariant of the stores (10_state.md R49 items 1 to 5), kept by the body of every command; a body breaks off
only at an input byte not written since reset. -/

namespace Sys2Proof.Machine

open Sys2Proof

/-! ## The invariant of the stores -/

/-- The invariant without STATUS. -/
structure StoreInv (s : State) : Prop where
  config : s.cfg.valid = true
  memory : memoryInv s
  tree : treeInv s
  codes : codeInv s
  bits : bitInv s

theorem StoreInv.of_inv {s : State} (h : inv s) : StoreInv s := ⟨h.config, h.memory, h.tree, h.codes, h.bits⟩

theorem StoreInv.tree_stored {s : State} (h : StoreInv s) : ∃ t, storesTree s.nodes s.root t :=
  h.tree.imp fun _ ht => ht.1

theorem StoreInv.bits_stored {s : State} (h : StoreInv s) :
    ∃ bits, storesBits s bits ∧ ceil8 bits.length ≤ s.cfg.bitbufCap := by
  obtain ⟨⟨bits, hbits, hcap, _⟩, _⟩ := h.bits
  exact ⟨bits, hbits, hcap⟩

/-! ## What each clear and each product leaves -/

theorem StoreInv.clearedAll {s : State} (h : StoreInv s) : StoreInv (invalidateAll s) where
  config := h.config
  memory := h.memory
  tree := ⟨none, ⟨rfl, rfl⟩, fun _ => rfl⟩
  codes := ⟨fun _ => rfl, nofun⟩
  bits := ⟨⟨[], ⟨rfl, rfl⟩, Nat.zero_le _, fun _ => rfl, fun _ => rfl⟩, nofun⟩

theorem StoreInv.clearedBits {s : State} (h : StoreInv s) : StoreInv (invalidateBits s) where
  config := h.config
  memory := h.memory
  tree := h.tree
  codes := h.codes
  bits := ⟨⟨[], ⟨rfl, rfl⟩, Nat.zero_le _, fun _ => rfl, fun _ => rfl⟩, nofun⟩

/-- COUNT's writes touch no store of the invariant. -/
theorem StoreInv.withFreq {s : State} (h : StoreInv s) (f : Vector Word 256) : StoreInv { s with freq := f } :=
  ⟨h.config, h.memory, h.tree, h.codes, h.bits⟩

/-- A tree stored, with the codes and the bits cleared (10_state.md R49 items 1, 2, 5). -/
theorem StoreInv.withTree {s : State} (h : StoreInv s) {nodes : List Node} {root : Option NodeIndex} {t : Option HuffTree}
    (hstore : storesTree nodes root t) :
    StoreInv { invalidateAll s with nodes := nodes, root := root, tv := true } where
  config := h.config
  memory := h.memory
  tree := ⟨t, hstore, nofun⟩
  codes := ⟨fun _ => rfl, nofun⟩
  bits := ⟨⟨[], ⟨rfl, rfl⟩, Nat.zero_le _, fun _ => rfl, fun _ => rfl⟩, nofun⟩

/-- The codes of the tree (10_state.md R49 item 3). -/
theorem StoreInv.withCodes {s : State} (h : StoreInv s) (htv : s.tv = true) {c : Vector Bits 256}
    (hc : codeTable s.nodes s.root = .ok c) : StoreInv { s with code := c, cv := true } where
  config := h.config
  memory := h.memory
  tree := h.tree
  codes := ⟨nofun, fun _ => ⟨htv, hc⟩⟩
  bits := h.bits

/-- Bits that fit BITBUF_CAP, none with the empty tree (10_state.md R49 item 4). -/
theorem StoreInv.withBits {s : State} (h : StoreInv s) (htv : s.tv = true) {bits : Bits}
    (hcap : ceil8 bits.length ≤ s.cfg.bitbufCap) (hroot : s.root = none → bits = []) :
    StoreInv { s with
      bitbuf := packBytes (ceil8 bits.length) bits, bitLen := BitVec.ofNat 64 bits.length, bv := true } where
  config := h.config
  memory := h.memory
  tree := h.tree
  codes := h.codes
  bits := ⟨⟨bits, ⟨Nat.mod_eq_of_lt (bits_lt_of_valid h.config hcap), rfl⟩, hcap, nofun, hroot⟩, fun _ => htv⟩

/-- Bytes that fit OUT_CAP, written from address 0 on (10_state.md R30). -/
theorem StoreInv.writtenOut {s : State} (h : StoreInv s) {bytes : List Byte} (hlen : bytes.length ≤ s.cfg.outCap) :
    StoreInv (writeOut bytes bytes.length s) := by
  obtain ⟨hcanonical, hin, hout, _⟩ := h.memory
  obtain ⟨hwritten, hother⟩ := wroteFromZero_writeBytes s.outMem bytes
  rw [memoriesCanonical_iff] at hcanonical
  refine ⟨h.config, ⟨(memoriesCanonical_iff _).mpr ⟨hcanonical.1, writeBytes_wf bytes _ 0 hcanonical.2⟩, hin, fun a ha => ?_,
    fun a ha => ?_⟩, h.tree, h.codes, h.bits⟩
  · exact (hother a (hlen.trans ha)).trans (hout a ha)
  · have hlt : a < bytes.length := Nat.lt_of_lt_of_le ha (Nat.mod_le _ _)
    change readByte (writeBytes s.outMem 0 bytes) a ≠ none
    rw [hwritten a hlt, List.getElem?_eq_getElem hlt]
    exact nofun

theorem StoreInv.lostOut {s : State} (h : StoreInv s) : StoreInv (outLost s) := by
  obtain ⟨hcanonical, hin, _⟩ := h.memory
  rw [memoriesCanonical_iff] at hcanonical
  exact ⟨h.config, ⟨(memoriesCanonical_iff _).mpr ⟨hcanonical.1, rfl⟩, hin, fun _ _ => rfl,
    fun a ha => absurd ha (Nat.not_lt_zero a)⟩, h.tree, h.codes, h.bits⟩

/-! ## Sound bodies -/

/-- A body is sound: the state it ends in meets the invariant of the stores and `P`; where it raises, the error has a code
and the state meets the invariant; and it breaks off only when `W`. -/
def Body.Sound (W : Prop) (P : State → Prop) : Body → Prop
  | .done t => StoreInv t ∧ P t
  | .raised e t => e.code ≠ .none ∧ StoreInv t
  | .faulted _ => W

theorem Body.Sound.mono {W W' : Prop} {P Q : State → Prop} {b : Body} (h : b.Sound W P) (hW : W → W')
    (hPQ : ∀ t, P t → Q t) : b.Sound W' Q := by
  cases b with
  | done t => exact ⟨h.1, hPQ t h.2⟩
  | raised e t => exact h
  | faulted f => exact hW h

theorem Body.sound_ofExcept {α : Type} {W : Prop} {P : State → Prop} {r : Except Stop α} {s : State} {k : α → Body}
    (hs : StoreInv s) (hraise : raisesCode r) (hfault : ∀ f, r = .error (.fault f) → W)
    (hk : ∀ a, r = .ok a → (k a).Sound W P) : (Body.ofExcept r s k).Sound W P := by
  cases r with
  | ok a => exact hk a rfl
  | error e =>
    cases e with
    | error e => exact ⟨hraise e rfl, hs⟩
    | fault f => exact hfault f rfl

theorem Body.Sound.andThen {W : Prop} {P Q : State → Prop} {b : Body} {k : State → Body} (hb : b.Sound W P)
    (hk : ∀ t, StoreInv t → P t → (k t).Sound W Q) : (b.andThen k).Sound W Q := by
  cases b with
  | done t => exact hk t hb.1 hb.2
  | raised e t => exact hb
  | faulted f => exact hb

theorem Body.Sound.losingOut {W : Prop} {P : State → Prop} {b : Body} (h : b.Sound W P) : b.losingOut.Sound W P := by
  cases b with
  | done t => exact h
  | raised e t => exact ⟨h.1, h.2.lostOut⟩
  | faulted f => exact h

/-! ## The bodies -/

section

variable {s : State} {W : Prop} (h : StoreInv s)

include h

theorem countBody_sound : (countBody s).Sound (¬ inputWritten s) fun t => inputWritten s → inputWritten t := by
  refine Body.sound_ofExcept h (memReadBytes_raisesCode _ _ _) (fun f hf hwritten => ?_) fun _ _ => ⟨h.withFreq _, id⟩
  obtain ⟨x, _, hx, hnone, _⟩ := memReadBytes_error_unwritten hf
  exact hwritten x (by omega) hnone

theorem buildBody_sound : (buildBody s).Sound W fun t => t.tv = true ∧ (inputWritten s → inputWritten t) := by
  unfold buildBody
  split
  · exact ⟨nofun, h.clearedAll⟩
  next leaf leaves hleaves =>
  split
  · exact ⟨nofun, h.clearedAll⟩
  · rw [leavesFrom_freq] at hleaves
    obtain ⟨t, hstore⟩ := storesTree_buildNodes (hleaves ▸ List.cons_ne_nil leaf leaves : presentLeaves s.freq ≠ [])
    rw [← hleaves]
    exact ⟨h.withTree hstore, rfl, id⟩

theorem compressTree_sound : (compressTree s).Sound W fun t => t.tv = true ∧ (inputWritten s → inputWritten t) := by
  unfold compressTree
  split
  · exact ⟨h.withTree (t := none) ⟨rfl, rfl⟩, rfl, id⟩
  · exact buildBody_sound h

theorem gencodesBody_sound (htv : s.tv = true) :
    (gencodesBody s).Sound W fun t => t.cv = true ∧ (inputWritten s → inputWritten t) := by
  obtain ⟨t, hstore⟩ := h.tree_stored
  obtain ⟨c, hc, _⟩ := codeTable_of_storesTree hstore
  rw [gencodesBody, hc, Body.ofExcept_ok]
  exact ⟨h.withCodes htv hc, rfl, id⟩

theorem encodeBody_sound (hcv : s.cv = true) :
    (encodeBody s).Sound (¬ inputWritten s) fun t => t.tv = true ∧ t.bv = true := by
  obtain ⟨htv, hcode⟩ := h.codes.2 hcv
  refine Body.sound_ofExcept h.clearedBits (encodeBits_raisesCode _ _ _ 0) (fun f hf hwritten => ?_) fun bits hbits => ?_
  · obtain ⟨x, hx, hnone⟩ := encodeBits_fault hf
    exact hwritten x (by omega) hnone
  · split
    · exact ⟨nofun, h.clearedBits⟩
    next hcap =>
    refine ⟨h.withBits htv (Nat.not_lt.mp hcap) fun hroot => encodeBits_eq_nil (fun sym => ?_) hbits, htv, rfl⟩
    rw [hroot] at hcode
    rw [← Except.ok.inj hcode]
    exact codeOf_replicate_nil sym

theorem serializeBody_sound : (serializeBody s).Sound W fun _ => True := by
  obtain ⟨t, hstore⟩ := h.tree_stored
  obtain ⟨bits, hbits, _⟩ := h.bits_stored
  rw [serializeBody_of_stores hstore hbits]
  split
  · exact ⟨nofun, h⟩
  next hfit => exact ⟨h.writtenOut (Nat.not_lt.mp hfit), trivial⟩

theorem decodeBody_sound : (decodeBody s).Sound W fun _ => True := by
  obtain ⟨t, hstore⟩ := h.tree_stored
  obtain ⟨bits, hbits, _⟩ := h.bits_stored
  rw [decodeBody]
  rcases decodeSymbols_ends hstore hbits with ⟨v, hv, hfit⟩ | ⟨e, he, hcode⟩
  · rw [hv]
    exact ⟨h.writtenOut hfit, trivial⟩
  · rw [he]
    exact ⟨hcode, h⟩

theorem deserializeBody_sound : (deserializeBody s).Sound (¬ inputWritten s) fun _ => True := by
  rcases deserializeBody_cases s with ⟨t, bits, hbody, hnodup, hempty, hlt, hcap, _⟩ | ⟨e, he, hbody⟩ | ⟨x, hbody, hx, hnone⟩
  · rw [hbody]
    have hroot : preorderRoot t = none → bits = [] := fun hroot => hempty (Option.map_eq_none_iff.mp hroot)
    exact ⟨(h.withTree (storesInPreorder_preorderNodes hnodup).1).withBits rfl hcap hroot, trivial⟩
  · rw [hbody]
    exact ⟨parseContainer_raisesCode _ _ _ e he, h.clearedAll⟩
  · rw [hbody]
    exact fun hwritten => hwritten x hx hnone

theorem compressBody_sound : (compressBody s).Sound (¬ inputWritten s) fun _ => True := by
  have hcount := countBody_sound h
  have htree := hcount.andThen (k := compressTree) fun t ht hin =>
    (compressTree_sound ht).mono id fun u ⟨htv, hu⟩ => (⟨htv, hu ∘ hin⟩ : u.tv = true ∧ (inputWritten s → inputWritten u))
  have hcodes := htree.andThen (k := gencodesBody) fun t ht ⟨htv, hin⟩ =>
    (gencodesBody_sound ht htv).mono id fun u ⟨hcv, hu⟩ =>
      (⟨hcv, hu ∘ hin⟩ : u.cv = true ∧ (inputWritten s → inputWritten u))
  have hbits := hcodes.andThen (k := encodeBody) fun t ht ⟨hcv, hin⟩ =>
    (encodeBody_sound ht hcv).mono (fun hunwritten hs => hunwritten (hin hs)) fun _ hu => hu
  exact hbits.andThen fun _ ht _ => serializeBody_sound ht

theorem uncompressBody_sound : (uncompressBody s).Sound (¬ inputWritten s) fun _ => True :=
  (deserializeBody_sound h).andThen fun _ ht _ => decodeBody_sound ht

theorem clearBody_sound : (clearBody s).Sound W fun _ => True := by
  obtain ⟨hcanonical, hin, hout, _⟩ := h.memory
  exact ⟨⟨h.config, ⟨hcanonical, hin, hout, fun a ha => absurd ha (Nat.not_lt_zero a)⟩, h.clearedAll.tree,
    h.clearedAll.codes, h.clearedAll.bits⟩, trivial⟩

/-- Every command whose pre-checks pass has a sound body: it breaks off only on unwritten input it reads. -/
theorem bodyOf_sound {i : Instr} (hpre : precheck i.need i.readsIn s = none) :
    (bodyOf i s).Sound (i.readsIn = true ∧ ¬ inputWritten s) fun _ => True := by
  obtain ⟨hflags, _⟩ := (precheck_none_iff _ _ _).mp hpre
  obtain ⟨htv, hcv, _⟩ := (missingMask_eq_zero_iff _ _).mp hflags
  have hreads {P : State → Prop} {b : Body} (hi : i.readsIn = true) (hb : b.Sound (¬ inputWritten s) P) :
      b.Sound (i.readsIn = true ∧ ¬ inputWritten s) fun _ => True := hb.mono (fun hw => ⟨hi, hw⟩) fun _ _ => trivial
  cases i with
  | nop => exact ⟨h, trivial⟩
  | count => exact hreads rfl (countBody_sound h)
  | build => exact (buildBody_sound h).mono id fun _ _ => trivial
  | gencodes => exact (gencodesBody_sound h (htv rfl)).mono id fun _ _ => trivial
  | encode => exact hreads rfl (encodeBody_sound h (hcv rfl))
  | serialize => exact (serializeBody_sound h).losingOut
  | deserialize => exact hreads rfl (deserializeBody_sound h)
  | decode => exact (decodeBody_sound h).losingOut
  | compress => exact hreads rfl (compressBody_sound h).losingOut
  | uncompress => exact hreads rfl (uncompressBody_sound h).losingOut
  | clear => exact clearBody_sound h

end

end Sys2Proof.Machine

/-! SUPPORT. The invariant of 10_state.md R49 over every step: the stores by the sound bodies, STATUS by the completions. -/

namespace Sys2Proof.Machine

open Sys2Proof

/-! ## Codes and completion from the invariant -/

/-- Settles O50: with CV = 1 the codes are those of the stored tree, and with CV = 0 or the empty tree there are none. -/
theorem invariantCodesFormPrefixCode : Obligations.InvariantCodesFormPrefixCode := by
  intro s hinv
  have hnone (h : ∀ sym, codeOf s.code sym = []) :
      (∀ a b : Byte, a ≠ b → codeOf s.code a ≠ [] → ¬ codeOf s.code a <+: codeOf s.code b) ∧
      (∀ a : Byte, (codeOf s.code a).length ≤ 255) :=
    ⟨fun a _ _ hne => absurd (h a) hne, fun a => by rw [h a]; exact Nat.zero_le _⟩
  obtain ⟨hoff, hon⟩ := hinv.codes
  cases hcv : s.cv with
  | false => exact hnone fun sym => by rw [hoff hcv, codeOf_replicate_nil]
  | true =>
    obtain ⟨_, hcode⟩ := hon hcv
    obtain ⟨t, hstore, _⟩ := hinv.tree
    obtain ⟨c, hc, hempty, htree⟩ := codeTable_of_storesTree hstore
    obtain rfl := Except.ok.inj (hc.symm.trans hcode)
    cases t with
    | none => exact hnone (hempty rfl)
    | some tree =>
      simp only [htree tree rfl]
      exact ⟨fun a b => HuffTree.codeFor_not_prefix, HuffTree.codeFor_length_le (storesTree_nodup hstore tree rfl)⟩

/-- Settles O51: a failed pre-check completes, and a sound body breaks off only on unwritten input. -/
theorem noCommandStopsTheCore : Obligations.NoCommandStopsTheCore := by
  intro s i hinv hwritten
  cases hpre : precheck i.need i.readsIn s with
  | some e => exact ⟨_, exec_eq_completeError hpre⟩
  | none =>
    have hsound := bodyOf_sound (StoreInv.of_inv hinv) hpre
    rw [exec_eq_finish hpre]
    cases hbody : bodyOf i s with
    | done t => exact ⟨_, rfl⟩
    | raised e t => exact ⟨_, rfl⟩
    | faulted f =>
      rw [hbody] at hsound
      obtain ⟨hreads, hunwritten⟩ := hsound
      exact absurd (hwritten hreads (((precheck_none_iff _ _ _).mp hpre).2 hreads)) hunwritten

/-! ## STATUS -/

/-- STATUS while a command is pending: nothing is recorded yet (60_exceptions.md R126). -/
def statusClear (s : State) : Prop :=
  s.done = false ∧ s.err = false ∧ s.errCode = .none ∧ s.detail = 0 ∧ s.errInfo = 0

theorem statusClear_of_inv {s : State} (h : inv s) {w : Word} (hw : s.pending = some w) : statusClear s := by
  have hstatus := h.status
  simp only [statusInv, hw, Option.isNone_some, Bool.false_or, Bool.and_eq_true, Bool.not_eq_true'] at hstatus
  obtain ⟨⟨⟨_, hdone, herr⟩, hcode⟩, _⟩ := hstatus
  simp only [herr, Bool.false_or, Bool.and_eq_true, decide_eq_true_eq] at hcode
  obtain ⟨⟨hcode, hdetail⟩, hinfo⟩ := hcode
  exact ⟨hdone, herr, hcode, hdetail, hinfo⟩

theorem bodyOf_keeps_status (i : Instr) (s : State) (h : statusClear s) : (bodyOf i s).Leaves statusClear := by
  refine (bodyOf_keeps (fun t => (t.done, t.err, t.errCode, t.detail, t.errInfo))
    (fun _ _ hframe => (congrArg (fun t : State => (t.done, t.err, t.errCode, t.detail, t.errInfo)) hframe :))
    (fun _ => rfl) i s).mono fun t ht => ?_
  simp only [Prod.mk.injEq] at ht
  obtain ⟨hdone, herr, hcode, hdetail, hinfo⟩ := ht
  rwa [statusClear, hdone, herr, hcode, hdetail, hinfo]

theorem inv_completeOk {s : State} (h : StoreInv s) (hstatus : statusClear s) : inv (completeOk s) := by
  obtain ⟨_, herr, hcode, hdetail, hinfo⟩ := hstatus
  refine ⟨h.config, ?_, h.memory, h.tree, h.codes, h.bits⟩
  simp [statusInv, completeOk, herr, hcode, hdetail, hinfo]

theorem inv_completeError {s : State} {e : CmdError} (h : StoreInv s) (hstatus : statusClear s) (he : e.code ≠ .none) :
    inv (completeError e s) := by
  obtain ⟨hdone, _⟩ := hstatus
  refine ⟨h.config, ?_, h.memory, h.tree, h.codes, h.bits⟩
  simp [statusInv, completeError, hdone, he]

/-! ## Every step -/

theorem precheck_code {n : Need} {readsIn : Bool} {s : State} {e : CmdError} (h : precheck n readsIn s = some e) :
    e.code ≠ .none := by
  unfold precheck at h
  split at h
  · rw [← Option.some.inj h]
    exact nofun
  split at h
  · rw [← Option.some.inj h]
    exact nofun
  · exact absurd h nofun

theorem inv_exec {i : Instr} {s t : State} {w : Word} (hw : s.pending = some w) (h : inv s) (hexec : exec i s = .next t) :
    inv t := by
  have hstatus := statusClear_of_inv h hw
  have hkept := bodyOf_keeps_status i s hstatus
  cases hpre : precheck i.need i.readsIn s with
  | some e =>
    rw [exec_eq_completeError hpre] at hexec
    obtain rfl := Host.Outcome.next.inj hexec
    exact inv_completeError (StoreInv.of_inv h) hstatus (precheck_code hpre)
  | none =>
    have hsound := bodyOf_sound (StoreInv.of_inv h) hpre
    rw [exec_eq_finish hpre] at hexec
    cases hbody : bodyOf i s with
    | done u =>
      rw [hbody] at hexec hsound hkept
      obtain rfl := Host.Outcome.next.inj hexec
      exact inv_completeOk hsound.1 hkept
    | raised e u =>
      rw [hbody] at hexec hsound hkept
      obtain rfl := Host.Outcome.next.inj hexec
      exact inv_completeError hsound.2 hkept hsound.1
    | faulted f =>
      rw [hbody] at hexec
      exact absurd hexec nofun

theorem inv_cmdWrite {s : State} (w : Word) (h : inv s) : inv (cmdWrite w s) := by
  unfold cmdWrite
  split
  · exact ⟨h.config, rfl, h.memory, h.tree, h.codes, h.bits⟩
  · exact ⟨h.config, h.status, h.memory, h.tree, h.codes, h.bits⟩

theorem inv_regStore {s : State} (r : Reg) (v : Word) (h : inv s) : inv (regStore r v s) := by
  cases r with
  | inLen | winIndex | freqWin => exact ⟨h.config, h.status, h.memory, h.tree, h.codes, h.bits⟩
  | id | cmd | status | errInfo | outLen | bitLen | root | nodeCount | codeLenWin | codeBitsWin | nodeWin | nodeWeightWin
  | inCap | outCap | bitbufCap | reserved => exact h

/-- An InWrite within IN_CAP keeps IN inside its space (20_memory.md R51). -/
theorem inv_inWrite {s : State} {a : Nat} (b : Byte) (ha : a < s.cfg.inCap) (h : inv s) :
    inv { s with inMem := writeByte s.inMem a b } := by
  obtain ⟨hcanonical, hin, hout, houtLen⟩ := h.memory
  rw [memoriesCanonical_iff] at hcanonical
  refine ⟨h.config, h.status, ⟨(memoriesCanonical_iff _).mpr ⟨writeByte_wf _ a b hcanonical.1, hcanonical.2⟩,
    fun x hx => ?_, hout, houtLen⟩, h.tree, h.codes, h.bits⟩
  exact (readByte_writeByte_other _ _ (Nat.ne_of_gt (Nat.lt_of_lt_of_le ha hx))).trans (hin x hx)

theorem HostEffect.keeps_inv {op : HostOp} {s t : State} (hs : inv s) (h : HostEffect op s t) : inv t := by
  cases h with
  | reads log draws program => exact ⟨hs.config, hs.status, hs.memory, hs.tree, hs.codes, hs.bits⟩
  | command w => exact inv_cmdWrite w hs
  | stores r v => exact inv_regStore r v hs
  | writesIn a b hcap => exact inv_inWrite b hcap hs
  | resets => exact inv_of_emptyStores hs.config rfl rfl rfl rfl rfl rfl rfl rfl rfl rfl rfl

/-- Settles O48: the ENGINE's step is a sound body and its completion, and the HOST's is one of five effects. -/
theorem everyStepKeepsInvariant : Obligations.EveryStepKeepsInvariant := by
  intro s t hs h
  refine step_keeps (fun u program schedule hu => ?_) (fun i u v hw hu => inv_exec hw hu) (fun w u hw hu => ?_)
    (fun op u v hu hv => hv.keeps_inv hu) hs h
  · exact ⟨hu.config, hu.status, hu.memory, hu.tree, hu.codes, hu.bits⟩
  · exact inv_completeError (StoreInv.of_inv hu) (statusClear_of_inv hu hw) nofun

end Sys2Proof.Machine
